-- ==== Sys2Proof/Word.lean ====
section
/-! DEFINITION. The units of data of the codec: the byte of R9 and the 64-bit register data path of R25. -/

namespace Sys2Proof

/-- A byte, the smallest addressable unit (R9, R60). -/
abbrev Byte := BitVec 8

/-- The data of a register transaction: the path is 64 bits wide (R25). -/
abbrev Data := BitVec 64

/-- The command word written to `CMD` (R90). -/
abbrev CmdWord := BitVec 32

end Sys2Proof
end

