-- ==== Sys2Proof/Config.lean ====
section
/-! DEFINITION. The parameters of R7 and the one free value of the spec, the buffer contents after reset (R49). -/

namespace Sys2Proof

/-- The buffer capacities of R7. The third parameter, `NCTX`, is the number of contexts a state holds
(`Machine.State.nctx`). DESIGN CHOICE, log 1: the parameters stand in State as data no step changes. -/
structure Config where
  /-- `WBUF_MAX`, the capacity of each wire buffer. -/
  wbufMax : Nat
  /-- `OPT_MAX`, the capacity of each options buffer. -/
  optMax : Nat
  deriving DecidableEq, Repr

/-- The defaults of R7. -/
def Config.default : Config where
  wbufMax := 2048
  optMax := 40

/-- The default of `NCTX` (R7). -/
def Config.defaultNctx : Nat := 2

/-- `PAY_CAP = WBUF_MAX − 8`, derived (R7). -/
def Config.payCap (c : Config) : Nat := c.wbufMax - 8

/-- The constraints R7 puts on the capacities. -/
abbrev Config.Valid (c : Config) : Prop :=
  42 ≤ c.wbufMax ∧ c.wbufMax + c.optMax + 20 ≤ 65535 ∧ c.optMax % 4 = 0 ∧ 20 ≤ c.optMax

/-- The constraint R7 puts on `NCTX`. -/
abbrev Config.ValidNctx (n : Nat) : Prop := 1 ≤ n ∧ n ≤ 3

/-- FREE VALUE (R49, 93 U1, log 4): the byte that a buffer holds at an offset nothing has written since
reset. The first argument is the buffer's `fill` number, fresh for every buffer at every reset. -/
opaque Config.resetByte : Nat → Nat → Byte

end Sys2Proof
end

