-- ==== Sys2Proof/Syntax.lean ====
section
/-! DEFINITION. The instructions of the codec: one constructor per row of spec/opcode_table.json. -/

namespace Sys2Proof

/-- The twelve commands of R92 and the four host transactions of R175.
A command's `x` is its context number, the 4-bit CTX field (R91). -/
inductive Instr where
  /-- `CSUM x` (R171). -/
  | csum (x : BitVec 4)
  /-- `ICMP_MKREQ x, seq` (R112). -/
  | icmpMkreq (x : BitVec 4) (seq : BitVec 16)
  /-- `ICMP_ENC x` (R115). -/
  | icmpEnc (x : BitVec 4)
  /-- `ICMP_DEC x` (R116). -/
  | icmpDec (x : BitVec 4)
  /-- `ICMP_VFY x` (R118). -/
  | icmpVfy (x : BitVec 4)
  /-- `IP_MK x` (R132). -/
  | ipMk (x : BitVec 4)
  /-- `IP_ENC x` (R137). -/
  | ipEnc (x : BitVec 4)
  /-- `IP_DEC x` (R139). -/
  | ipDec (x : BitVec 4)
  /-- `IP_VFY x` (R142). -/
  | ipVfy (x : BitVec 4)
  /-- `ETH_MK x` (R152). -/
  | ethMk (x : BitVec 4)
  /-- `ETH_ENC x` (R154). -/
  | ethEnc (x : BitVec 4)
  /-- `ETH_DEC x` (R156). -/
  | ethDec (x : BitVec 4)
  /-- `REG_RD(idx)` (R176). -/
  | regRd (idx : BitVec 8)
  /-- `REG_WR(idx, v)` (R177). -/
  | regWr (idx : BitVec 8) (v : Data)
  /-- `BUF_RD(x, sel, off)` (R178). -/
  | bufRd (x : BitVec 4) (sel : BitVec 2) (off : BitVec 16)
  /-- `BUF_WR(x, sel, off, d)` (R179). -/
  | bufWr (x : BitVec 4) (sel : BitVec 2) (off : BitVec 16) (d : Byte)
  deriving DecidableEq, Repr

end Sys2Proof
end

