-- ==== Sys2Proof/WellFormed.lean ====
section
/-! DEFINITION. Which instructions exist on a block with `nctx` contexts. -/

namespace Sys2Proof

/-- A command names a context that exists (R90: `CTX` must be < NCTX). A host transaction may carry any
arguments: the port takes every one of them (R45, R181). -/
def Instr.wf (nctx : Nat) : Instr → Bool
  | .csum x => decide (x.toNat < nctx)
  | .icmpMkreq x _ => decide (x.toNat < nctx)
  | .icmpEnc x => decide (x.toNat < nctx)
  | .icmpDec x => decide (x.toNat < nctx)
  | .icmpVfy x => decide (x.toNat < nctx)
  | .ipMk x => decide (x.toNat < nctx)
  | .ipEnc x => decide (x.toNat < nctx)
  | .ipDec x => decide (x.toNat < nctx)
  | .ipVfy x => decide (x.toNat < nctx)
  | .ethMk x => decide (x.toNat < nctx)
  | .ethEnc x => decide (x.toNat < nctx)
  | .ethDec x => decide (x.toNat < nctx)
  | .regRd _ => true
  | .regWr _ _ => true
  | .bufRd _ _ _ => true
  | .bufWr _ _ _ _ => true

/-- Is it one of the twelve commands of R92 (and not a host transaction)? -/
def Instr.isCommand : Instr → Bool
  | .csum _ => true
  | .icmpMkreq _ _ => true
  | .icmpEnc _ => true
  | .icmpDec _ => true
  | .icmpVfy _ => true
  | .ipMk _ => true
  | .ipEnc _ => true
  | .ipDec _ => true
  | .ipVfy _ => true
  | .ethMk _ => true
  | .ethEnc _ => true
  | .ethDec _ => true
  | .regRd _ => false
  | .regWr _ _ => false
  | .bufRd _ _ _ => false
  | .bufWr _ _ _ _ => false

end Sys2Proof
end

