-- ==== Sys2Proof/Decode.lean ====
section
/-! DEFINITION. The command word: its fields (R90), the decoder (R92, R93) and the encoder (R92). -/

namespace Sys2Proof

/-- Why a command word is illegal (R93). All four set the same flag, `GERR.ILL`; the names and the order
in which they are looked at are the model's (DESIGN CHOICE, log 9). -/
inductive Illegal where
  /-- Bits 15:12 are not 0. -/
  | zeroField
  /-- `CTX` ≥ NCTX. -/
  | noSuchContext
  /-- The opcode is none of the twelve. -/
  | unknownOpcode
  /-- `IMM16` ≠ 0 in a command other than `ICMP_MKREQ`. -/
  | immediate
  deriving DecidableEq, Repr

/-- `word[7:0]`, the opcode UNIT·16 + FN (R90). -/
def CmdWord.opcode (w : CmdWord) : BitVec 8 := w.extractLsb' 0 8

/-- `word[11:8]`, `CTX` (R90). -/
def CmdWord.ctx (w : CmdWord) : BitVec 4 := w.extractLsb' 8 4

/-- `word[15:12]`, `ZERO` (R90). -/
def CmdWord.zero (w : CmdWord) : BitVec 4 := w.extractLsb' 12 4

/-- `word[31:16]`, `IMM16` (R90). -/
def CmdWord.imm (w : CmdWord) : BitVec 16 := w.extractLsb' 16 16

/-- A command without an immediate: `IMM16` must be 0 (R90, R93). -/
def withoutImm (imm : BitVec 16) (i : Instr) : Except Illegal Instr :=
  if imm = 0 then .ok i else .error .immediate

/-- The opcode map of R92; any other opcode is illegal (R93). -/
def decodeOpcode (opcode : BitVec 8) (x : BitVec 4) (imm : BitVec 16) : Except Illegal Instr :=
  if opcode = 0x00 then withoutImm imm (.csum x)
  else if opcode = 0x10 then .ok (.icmpMkreq x imm)
  else if opcode = 0x11 then withoutImm imm (.icmpEnc x)
  else if opcode = 0x12 then withoutImm imm (.icmpDec x)
  else if opcode = 0x13 then withoutImm imm (.icmpVfy x)
  else if opcode = 0x20 then withoutImm imm (.ipMk x)
  else if opcode = 0x21 then withoutImm imm (.ipEnc x)
  else if opcode = 0x22 then withoutImm imm (.ipDec x)
  else if opcode = 0x23 then withoutImm imm (.ipVfy x)
  else if opcode = 0x30 then withoutImm imm (.ethMk x)
  else if opcode = 0x31 then withoutImm imm (.ethEnc x)
  else if opcode = 0x32 then withoutImm imm (.ethDec x)
  else .error .unknownOpcode

/-- The decoder, total on all 2^32 words: one of the twelve commands, or illegal (R93). -/
def decodeCommand (nctx : Nat) (w : CmdWord) : Except Illegal Instr :=
  if CmdWord.zero w ≠ 0 then .error .zeroField
  else if nctx ≤ (CmdWord.ctx w).toNat then .error .noSuchContext
  else decodeOpcode (CmdWord.opcode w) (CmdWord.ctx w) (CmdWord.imm w)

/-- `match | (x << 8)` (R92). -/
def commandWord (mtch : CmdWord) (x : BitVec 4) : CmdWord := mtch ||| (x.setWidth 32 <<< 8)

/-- The encoder of R92: the word of a command; a host transaction has no bit pattern
(spec/opcode_table.json), so no word. -/
def encodeCommand : Instr → Option CmdWord
  | .csum x => some (commandWord 0x00000000 x)
  | .icmpMkreq x seq => some (commandWord 0x00000010 x ||| (seq.setWidth 32 <<< 16))
  | .icmpEnc x => some (commandWord 0x00000011 x)
  | .icmpDec x => some (commandWord 0x00000012 x)
  | .icmpVfy x => some (commandWord 0x00000013 x)
  | .ipMk x => some (commandWord 0x00000020 x)
  | .ipEnc x => some (commandWord 0x00000021 x)
  | .ipDec x => some (commandWord 0x00000022 x)
  | .ipVfy x => some (commandWord 0x00000023 x)
  | .ethMk x => some (commandWord 0x00000030 x)
  | .ethEnc x => some (commandWord 0x00000031 x)
  | .ethDec x => some (commandWord 0x00000032 x)
  | .regRd _ => none
  | .regWr _ _ => none
  | .bufRd _ _ _ => none
  | .bufWr _ _ _ _ => none

/-- The instruction the decoder reads from a table row's bits `w` (bit 0 the least significant), on a
block with the default NCTX. Every command word is 32 bits long (R94). -/
def decodeTableWord (nbits w : Nat) : Option Instr :=
  if nbits ≤ 32 then
    match decodeCommand Config.defaultNctx (BitVec.ofNat 32 (w % 2 ^ nbits)) with
    | .ok i => some i
    | .error _ => none
  else none

end Sys2Proof
end

