-- ==== Sys2Proof/Machine/State.lean ====
section
/-! DEFINITION. The state of the block (10_state.md), its inputs, and the state right after reset. -/

namespace Sys2Proof.Machine

/-- Reasons to stop with a fault: NONE. Every condition of the block is reported in `STATUS` or `GERR` and
the block goes on (R186, R196), so no meaning raises a fault; claims of the form "no fault" are claims
about every state (safe). -/
inductive Fault where
  deriving DecidableEq, Repr

/-- Reasons to refuse an instruction. -/
inductive Refusal where
  /-- Raised by an arm of `exec` whose instruction has no meaning yet (safe). No arm raises it now. -/
  | notModelled (mnemonic : String)
  deriving DecidableEq, Repr

/-- The bytes of a buffer that something has written since reset, as (offset, byte) pairs with the offsets
strictly rising (`Memory.wf`). An unlisted offset holds no written value. -/
abbrev Memory := List Host.Cell

/-- A byte buffer of a context (R33 to R35): the bytes written since reset, and the number of the
unspecified contents that the rest of it holds (R49, log 4). -/
structure Buffer where
  /-- Which unspecified contents it got at reset: the first argument of `Config.resetByte`. -/
  fill : Nat
  /-- The written bytes. -/
  cells : Memory
  deriving DecidableEq, Repr

/-- One context: the three records, the three buffers, status and result (R21, R24). -/
structure Context where
  /-- `STATUS` (R43). -/
  status : BitVec 6
  /-- `CSUM_RES` (R44). -/
  csumRes : BitVec 16
  /-- `WLEN` (R33). -/
  wlen : BitVec 16
  /-- `ETH_DST` (R27). -/
  ethDst : BitVec 48
  /-- `ETH_SRC` (R27). -/
  ethSrc : BitVec 48
  /-- `ETH_TYPE` (R27). -/
  ethType : BitVec 16
  /-- `IP_VIHL` (R28, R29). -/
  ipVihl : BitVec 8
  /-- `IP_TOS` (R28). -/
  ipTos : BitVec 8
  /-- `IP_TLEN` (R28). -/
  ipTlen : BitVec 16
  /-- `IP_ID` (R28). -/
  ipId : BitVec 16
  /-- `IP_FLFR` (R28). -/
  ipFlfr : BitVec 16
  /-- `IP_TTL` (R28). -/
  ipTtl : BitVec 8
  /-- `IP_PROTO` (R28). -/
  ipProto : BitVec 8
  /-- `IP_CSUM` (R28). -/
  ipCsum : BitVec 16
  /-- `IP_SRC` (R28). -/
  ipSrc : BitVec 32
  /-- `IP_DST` (R28). -/
  ipDst : BitVec 32
  /-- `IP_OPTLEN` (R30). -/
  ipOptlen : BitVec 16
  /-- `IC_TYPE` (R31). -/
  icType : BitVec 8
  /-- `IC_CODE` (R31). -/
  icCode : BitVec 8
  /-- `IC_CSUM` (R31). -/
  icCsum : BitVec 16
  /-- `IC_ID` (R31). -/
  icId : BitVec 16
  /-- `IC_SEQ` (R31). -/
  icSeq : BitVec 16
  /-- `IC_PLEN` (R32). -/
  icPlen : BitVec 16
  /-- `WBUF` (R33). -/
  wbuf : Buffer
  /-- `PAY` (R34). -/
  pay : Buffer
  /-- `OPT` (R35). -/
  opt : Buffer
  deriving DecidableEq, Repr

/-- A host transaction as the port takes it (R175). -/
inductive Transaction where
  /-- `REG_RD(idx)`. -/
  | regRd (idx : BitVec 8)
  /-- `REG_WR(idx, v)`. -/
  | regWr (idx : BitVec 8) (v : Data)
  /-- `BUF_RD(x, sel, off)`. -/
  | bufRd (x : BitVec 4) (sel : BitVec 2) (off : BitVec 16)
  /-- `BUF_WR(x, sel, off, d)`. -/
  | bufWr (x : BitVec 4) (sel : BitVec 2) (off : BitVec 16) (d : Byte)
  deriving DecidableEq, Repr

/-- What can happen to the block from outside: a transaction, or reset, an event on a par with one (R205). -/
inductive Input where
  /-- A host transaction. -/
  | transaction (t : Transaction)
  /-- The block's one reset. -/
  | reset
  deriving DecidableEq, Repr

/-- What a transaction returns to the host (R175), the ReadValue of R20. -/
inductive Reply where
  /-- A write returns nothing. -/
  | nothing
  /-- The 64-bit value of a `REG_RD`. -/
  | word (v : Data)
  /-- The byte of a `BUF_RD`. -/
  | byte (b : Byte)
  deriving DecidableEq, Repr

/-- The state of the block (R21) and, after it, the model's own fields. -/
structure State where
  /-- `CFG` (R36): bit 0 `STRICT`, bit 1 `PEER_EN`. -/
  cfg : BitVec 2
  /-- `IDENT` (R37). -/
  ident : BitVec 16
  /-- `MAC_LOCAL` (R38). -/
  macLocal : BitVec 48
  /-- `MAC_PEER` (R38). -/
  macPeer : BitVec 48
  /-- `TIME_SEC` (R39). -/
  timeSec : BitVec 64
  /-- `TIME_SUB` (R39). -/
  timeSub : BitVec 32
  /-- `GERR` (R41): bit 0 `ILL`, bit 1 `BUS`. -/
  gerr : BitVec 2
  /-- The contexts `ctx[0] .. ctx[NCTX−1]` (R21). -/
  ctxs : List Context
  /-- The capacities (R7); no step changes them (log 1). -/
  config : Config
  /-- What the last transaction returned (log 3). -/
  reply : Reply
  /-- The inputs still to come, oldest first: the port's total order (R72, log 2). -/
  pending : List Input
  /-- The number of the next unspecified contents a reset gives out (log 4). -/
  nextFill : Nat
  deriving DecidableEq, Repr

/-- `NCTX`: the number of contexts (R7, R21). -/
def State.nctx (s : State) : Nat := s.ctxs.length

/-- A buffer right after reset: nothing written, every byte unspecified (R49). -/
def Buffer.unwritten (fill : Nat) : Buffer where
  fill := fill
  cells := []

/-- A context right after reset: every register 0, buffers unspecified (R49, R206).
Its buffers take the unspecified contents `fill`, `fill + 1` and `fill + 2`. -/
def Context.reset (fill : Nat) : Context where
  status := 0
  csumRes := 0
  wlen := 0
  ethDst := 0
  ethSrc := 0
  ethType := 0
  ipVihl := 0
  ipTos := 0
  ipTlen := 0
  ipId := 0
  ipFlfr := 0
  ipTtl := 0
  ipProto := 0
  ipCsum := 0
  ipSrc := 0
  ipDst := 0
  ipOptlen := 0
  icType := 0
  icCode := 0
  icCsum := 0
  icId := 0
  icSeq := 0
  icPlen := 0
  wbuf := Buffer.unwritten fill
  pay := Buffer.unwritten (fill + 1)
  opt := Buffer.unwritten (fill + 2)

/-- `n` contexts right after reset, with unspecified contents numbered from `fill` on. -/
def resetContexts : Nat → Nat → List Context
  | 0, _ => []
  | n + 1, fill => Context.reset fill :: resetContexts n (fill + 3)

/-- The block right after reset (R49, R206), with `n` contexts of the capacities `c`. -/
def State.afterReset (c : Config) (n fill : Nat) (pending : List Input) : State where
  cfg := 0
  ident := 0
  macLocal := 0
  macPeer := 0
  timeSec := 0
  timeSub := 0
  gerr := 0
  ctxs := resetContexts n fill
  config := c
  reply := .nothing
  pending := pending
  nextFill := fill + 3 * n

/-- The block with the default parameters of R7 right after reset, with no input waiting. -/
def State.reset : State := State.afterReset Config.default Config.defaultNctx 0 []

end Sys2Proof.Machine
end

