-- ==== Sys2Proof/Machine/Flags.lean ====
section
/-! DEFINITION. The status word of a context (R43) and the sticky error flags (R41). -/

namespace Sys2Proof.Machine

/-- `LAYER` of `STATUS` (R43). -/
inductive Layer where
  | csum
  | icmp
  | ip
  | eth
  deriving DecidableEq, Repr

/-- `CODE` of `STATUS` (R43); the codes 4 to 15 are never written. -/
inductive Code where
  | ok
  | truncated
  | csumMismatch
  | range
  deriving DecidableEq, Repr

/-- `STATUS[5:4]` (R43). -/
def Layer.bits : Layer → BitVec 2
  | .csum => 0
  | .icmp => 1
  | .ip => 2
  | .eth => 3

/-- `STATUS[3:0]` (R43). -/
def Code.bits : Code → BitVec 4
  | .ok => 0
  | .truncated => 1
  | .csumMismatch => 2
  | .range => 3

/-- The 6-bit word of the pair (CODE, LAYER) (R43). -/
def statusWord (code : Code) (layer : Layer) : BitVec 6 := layer.bits ++ code.bits

/-- `STATUS.CODE` (R43). -/
def statusCode (status : BitVec 6) : BitVec 4 := status.extractLsb' 0 4

/-- `STATUS.LAYER` (R43). -/
def statusLayer (status : BitVec 6) : BitVec 2 := status.extractLsb' 4 2

/-- `CFG.STRICT`, bit 0 (R36). -/
def State.strict (s : State) : Bool := s.cfg.getLsbD 0

/-- `CFG.PEER_EN`, bit 1 (R36). -/
def State.peerEn (s : State) : Bool := s.cfg.getLsbD 1

/-- Sets `GERR.ILL`, bit 0, and nothing else (R189). -/
def State.setIll (s : State) : State := { s with gerr := s.gerr ||| 1#2 }

/-- Sets `GERR.BUS`, bit 1, and nothing else (R181). -/
def State.setBus (s : State) : State := { s with gerr := s.gerr ||| 2#2 }

/-- Write one to clear: `GERR & ~v[1:0]` (R41). -/
def clearGerr (gerr : BitVec 2) (v : Data) : BitVec 2 := gerr &&& ~~~(v.setWidth 2)

end Sys2Proof.Machine
end

