-- ==== Sys2Proof/Machine/Ops.lean ====
section
/-! DEFINITION. The shared operations: buffer bytes (R11), a context of the state, raising a condition (R186),
running a command on a context, and reset (R205). -/

namespace Sys2Proof.Machine

/-- The canonical form of the written bytes: offsets strictly rising. An unlisted offset has no written
value, so no entry can repeat what an unlisted one reads as. -/
abbrev Memory.wf (m : Memory) : Prop := (m.map Prod.fst).Pairwise (· < ·)

/-- The written byte at an offset, if any. -/
def Memory.get? : Memory → Nat → Option Byte
  | [], _ => none
  | (k, v) :: m, a => if k = a then some v else Memory.get? m a

/-- The cells of a byte sequence laid down from offset `a` on. -/
def Memory.cellsFrom (a : Nat) : List Byte → Memory
  | [] => []
  | b :: bs => (a, b) :: Memory.cellsFrom (a + 1) bs

/-- Lays the bytes `bs` down at offsets `a` on, in place of what stood there; no byte, no change. -/
def Memory.put (m : Memory) (a : Nat) : List Byte → Memory
  | [] => m
  | b :: bs =>
    m.filter (fun c => decide (c.1 < a)) ++ Memory.cellsFrom a (b :: bs)
      ++ m.filter (fun c => decide (a + (bs.length + 1) ≤ c.1))

/-- The byte at an offset: the one last written there, else the unspecified reset content (R49). -/
def Buffer.read (b : Buffer) (off : Nat) : Byte := (Memory.get? b.cells off).getD (Config.resetByte b.fill off)

/-- `MemRead(buf, addr, n)` (R11). -/
def Buffer.readBytes (b : Buffer) (addr n : Nat) : List Byte := (List.range n).map fun i => b.read (addr + i)

/-- `MemWrite(buf, addr, n, v)` with n the length of v (R11). -/
def Buffer.writeBytes (b : Buffer) (addr : Nat) (bs : List Byte) : Buffer :=
  { b with cells := Memory.put b.cells addr bs }

/-- The state with context `x` replaced. -/
def State.putCtx (s : State) (x : Nat) (c : Context) : State := { s with ctxs := s.ctxs.set x c }

/-- A condition a command raises: its code and the layer it arose at (R185). -/
structure Raised where
  /-- `TRUNCATED`, `CSUM_MISMATCH` or `RANGE`. -/
  code : Code
  /-- The layer reported. -/
  layer : Layer
  deriving DecidableEq, Repr

/-- A command that does not raise ends with its `STATUS` write (R11, R43). -/
def Context.finish (c : Context) (code : Code) (layer : Layer) : Context :=
  { c with status := statusWord code layer }

/-- TAKING A CONDITION (R11, R186, R195): the context as it was before the command, with `STATUS` alone
written. There is no entry, no saved state and nothing to return from (R195, R196). -/
def Context.raise (c : Context) (r : Raised) : Context := c.finish r.code r.layer

/-- The context after a command: what the command made of it, or, where it raised, the old one with the
condition reported. -/
def Context.settle (c : Context) : Except Raised Context → Context
  | .ok c' => c'
  | .error r => c.raise r

/-- Runs a command on context `x` (R21): only that context changes. A context that does not exist makes
the command word illegal (R93): `GERR.ILL` and nothing else. -/
def State.onContext (s : State) (x : BitVec 4) (body : Context → Except Raised Context) : State :=
  match s.ctxs[x.toNat]? with
  | none => s.setIll
  | some c => s.putCtx x.toNat (c.settle (body c))

/-- The reset event (R205, R206): every register 0, fresh unspecified buffer contents; the inputs still to
come and the parameters stay (log 5). -/
def State.applyReset (s : State) : State := State.afterReset s.config s.ctxs.length s.nextFill s.pending

end Sys2Proof.Machine
end

