-- ==== Sys2Proof/Machine/Operands.lean ====
section
/-! DEFINITION. Operand forms: the constants of R8, the byte order helpers of R10, the register index map
(R24, R25) and the buffer selectors (R60, R175). -/

namespace Sys2Proof.Machine

/-! ## Constants of R8 and R7 -/

/-- `ETH_MIN`: fewest bytes an Ethernet decode accepts. -/
def ethMin : Nat := 14
/-- `IP_MIN`: fewest bytes an IPv4 decode accepts. -/
def ipMin : Nat := 20
/-- `ICMP_MIN`: fewest bytes an ICMP decode accepts. -/
def icmpMin : Nat := 8
/-- `ETHERTYPE_IPV4`. -/
def ethertypeIpv4 : BitVec 16 := 0x0800
/-- `ICMP_ECHO_REQUEST` (90 C1). -/
def icmpEchoRequest : BitVec 8 := 8
/-- `MAC_BROADCAST`. -/
def macBroadcast : BitVec 48 := 0xFFFFFFFFFFFF
/-- `IP_VERSION`. -/
def ipVersion : BitVec 4 := 4
/-- `IHL_BASE`: 32-bit words of a header without options. -/
def ihlBase : Nat := 5
/-- `IHL_EXTRA_CAP`: the most words the construct command adds for options (R7, 90 C2). -/
def ihlExtraCap : Nat := 4

/-! ## Byte order (R10) -/

/-- `BE16`. -/
def be16 (v : BitVec 16) : List Byte := [v.extractLsb' 8 8, v.extractLsb' 0 8]

/-- `BE32`. -/
def be32 (v : BitVec 32) : List Byte :=
  [v.extractLsb' 24 8, v.extractLsb' 16 8, v.extractLsb' 8 8, v.extractLsb' 0 8]

/-- `BE48`. -/
def be48 (v : BitVec 48) : List Byte :=
  [v.extractLsb' 40 8, v.extractLsb' 32 8, v.extractLsb' 24 8, v.extractLsb' 16 8, v.extractLsb' 8 8,
    v.extractLsb' 0 8]

/-- `BE64`. -/
def be64 (v : BitVec 64) : List Byte :=
  [v.extractLsb' 56 8, v.extractLsb' 48 8, v.extractLsb' 40 8, v.extractLsb' 32 8, v.extractLsb' 24 8,
    v.extractLsb' 16 8, v.extractLsb' 8 8, v.extractLsb' 0 8]

/-- `UBE`: the unsigned integer whose big-endian bytes these are. -/
def ube (bs : List Byte) : Nat := bs.foldl (fun acc b => acc * 256 + b.toNat) 0

/-- The byte at offset `i` of a sequence; the callers establish that there is one (0 past the end). -/
def byteAt (bs : List Byte) (i : Nat) : Byte := bs.getD i 0

/-- `U16BE(b[i], b[i+1])`. -/
def u16At (bs : List Byte) (i : Nat) : BitVec 16 := byteAt bs i ++ byteAt bs (i + 1)

/-- The subsequence `b[i .. j)` of R9. -/
def slice (bs : List Byte) (i j : Nat) : List Byte := (bs.drop i).take (j - i)

/-! ## The register index map (R24) -/

/-- The global registers. -/
inductive GlobalReg where
  | cfg
  | ident
  | macLocal
  | macPeer
  | timeSec
  | timeSub
  | gerr
  | cmd
  deriving DecidableEq, Repr

/-- The registers of a context. -/
inductive CtxReg where
  | status
  | csumRes
  | wlen
  | ethDst
  | ethSrc
  | ethType
  | ipVihl
  | ipTos
  | ipTlen
  | ipId
  | ipFlfr
  | ipTtl
  | ipProto
  | ipCsum
  | ipSrc
  | ipDst
  | ipOptlen
  | icType
  | icCode
  | icCsum
  | icId
  | icSeq
  | icPlen
  deriving DecidableEq, Repr

/-- What a register index names. -/
inductive RegRef where
  /-- A global register. -/
  | global (r : GlobalReg)
  /-- A register of context `x`. -/
  | context (x : Nat) (r : CtxReg)
  /-- An index in no table (R45). -/
  | reserved
  deriving DecidableEq, Repr

/-- The global part of the map of R24. -/
def globalRegAt (idx : Nat) : Option GlobalReg :=
  if idx = 0x00 then some .cfg
  else if idx = 0x01 then some .ident
  else if idx = 0x02 then some .macLocal
  else if idx = 0x03 then some .macPeer
  else if idx = 0x04 then some .timeSec
  else if idx = 0x05 then some .timeSub
  else if idx = 0x06 then some .gerr
  else if idx = 0x07 then some .cmd
  else none

/-- The context part of the map of R24, by offset. -/
def ctxRegAt (off : Nat) : Option CtxReg :=
  if off = 0x00 then some .status
  else if off = 0x01 then some .csumRes
  else if off = 0x02 then some .wlen
  else if off = 0x10 then some .ethDst
  else if off = 0x11 then some .ethSrc
  else if off = 0x12 then some .ethType
  else if off = 0x20 then some .ipVihl
  else if off = 0x21 then some .ipTos
  else if off = 0x22 then some .ipTlen
  else if off = 0x23 then some .ipId
  else if off = 0x24 then some .ipFlfr
  else if off = 0x25 then some .ipTtl
  else if off = 0x26 then some .ipProto
  else if off = 0x27 then some .ipCsum
  else if off = 0x28 then some .ipSrc
  else if off = 0x29 then some .ipDst
  else if off = 0x2A then some .ipOptlen
  else if off = 0x30 then some .icType
  else if off = 0x31 then some .icCode
  else if off = 0x32 then some .icCsum
  else if off = 0x33 then some .icId
  else if off = 0x34 then some .icSeq
  else if off = 0x35 then some .icPlen
  else none

/-- R24: indices 0x00 to 0x3F are global; `0x40·(x+1) + off` is register `off` of context x. -/
def regRef (idx : BitVec 8) : RegRef :=
  if idx.toNat < 0x40 then
    match globalRegAt idx.toNat with
    | some r => .global r
    | none => .reserved
  else
    match ctxRegAt (idx.toNat % 0x40) with
    | some r => .context (idx.toNat / 0x40 - 1) r
    | none => .reserved

/-- A global register, zero-extended; `CMD` has no storage and reads 0 (R25, R40). -/
def State.readGlobal (s : State) : GlobalReg → Data
  | .cfg => s.cfg.setWidth 64
  | .ident => s.ident.setWidth 64
  | .macLocal => s.macLocal.setWidth 64
  | .macPeer => s.macPeer.setWidth 64
  | .timeSec => s.timeSec
  | .timeSub => s.timeSub.setWidth 64
  | .gerr => s.gerr.setWidth 64
  | .cmd => 0

/-- A register of a context, zero-extended (R25). -/
def Context.readReg (c : Context) : CtxReg → Data
  | .status => c.status.setWidth 64
  | .csumRes => c.csumRes.setWidth 64
  | .wlen => c.wlen.setWidth 64
  | .ethDst => c.ethDst.setWidth 64
  | .ethSrc => c.ethSrc.setWidth 64
  | .ethType => c.ethType.setWidth 64
  | .ipVihl => c.ipVihl.setWidth 64
  | .ipTos => c.ipTos.setWidth 64
  | .ipTlen => c.ipTlen.setWidth 64
  | .ipId => c.ipId.setWidth 64
  | .ipFlfr => c.ipFlfr.setWidth 64
  | .ipTtl => c.ipTtl.setWidth 64
  | .ipProto => c.ipProto.setWidth 64
  | .ipCsum => c.ipCsum.setWidth 64
  | .ipSrc => c.ipSrc.setWidth 64
  | .ipDst => c.ipDst.setWidth 64
  | .ipOptlen => c.ipOptlen.setWidth 64
  | .icType => c.icType.setWidth 64
  | .icCode => c.icCode.setWidth 64
  | .icCsum => c.icCsum.setWidth 64
  | .icId => c.icId.setWidth 64
  | .icSeq => c.icSeq.setWidth 64
  | .icPlen => c.icPlen.setWidth 64

/-- The value `REG_RD` returns (R176); reserved indices and absent contexts read 0 (R45). -/
def State.readReg (s : State) : RegRef → Data
  | .global r => s.readGlobal r
  | .context x r =>
    match s.ctxs[x]? with
    | some c => c.readReg r
    | none => 0
  | .reserved => 0

/-- Writes a global register, truncating (R25); `GERR` is write one to clear (R41); `CMD` stores nothing
(R40: `execRegWr` runs the command). -/
def State.writeGlobal (s : State) (v : Data) : GlobalReg → State
  | .cfg => { s with cfg := v.setWidth 2 }
  | .ident => { s with ident := v.setWidth 16 }
  | .macLocal => { s with macLocal := v.setWidth 48 }
  | .macPeer => { s with macPeer := v.setWidth 48 }
  | .timeSec => { s with timeSec := v }
  | .timeSub => { s with timeSub := v.setWidth 32 }
  | .gerr => { s with gerr := clearGerr s.gerr v }
  | .cmd => s

/-- Writes a register of a context, truncating (R25); `STATUS` and `CSUM_RES` are read-only (R43, R44). -/
def Context.writeReg (c : Context) (v : Data) : CtxReg → Context
  | .status => c
  | .csumRes => c
  | .wlen => { c with wlen := v.setWidth 16 }
  | .ethDst => { c with ethDst := v.setWidth 48 }
  | .ethSrc => { c with ethSrc := v.setWidth 48 }
  | .ethType => { c with ethType := v.setWidth 16 }
  | .ipVihl => { c with ipVihl := v.setWidth 8 }
  | .ipTos => { c with ipTos := v.setWidth 8 }
  | .ipTlen => { c with ipTlen := v.setWidth 16 }
  | .ipId => { c with ipId := v.setWidth 16 }
  | .ipFlfr => { c with ipFlfr := v.setWidth 16 }
  | .ipTtl => { c with ipTtl := v.setWidth 8 }
  | .ipProto => { c with ipProto := v.setWidth 8 }
  | .ipCsum => { c with ipCsum := v.setWidth 16 }
  | .ipSrc => { c with ipSrc := v.setWidth 32 }
  | .ipDst => { c with ipDst := v.setWidth 32 }
  | .ipOptlen => { c with ipOptlen := v.setWidth 16 }
  | .icType => { c with icType := v.setWidth 8 }
  | .icCode => { c with icCode := v.setWidth 8 }
  | .icCsum => { c with icCsum := v.setWidth 16 }
  | .icId => { c with icId := v.setWidth 16 }
  | .icSeq => { c with icSeq := v.setWidth 16 }
  | .icPlen => { c with icPlen := v.setWidth 16 }

/-- A register write that is not a command (R177); reserved indices and absent contexts ignore it (R45). -/
def State.writeReg (s : State) (v : Data) : RegRef → State
  | .global r => s.writeGlobal v r
  | .context x r =>
    match s.ctxs[x]? with
    | some c => s.putCtx x (c.writeReg v r)
    | none => s
  | .reserved => s

/-! ## Buffers (R60, R175) -/

/-- The three buffers of a context. -/
inductive BufName where
  | wbuf
  | pay
  | opt
  deriving DecidableEq, Repr

/-- Selector 0 is `WBUF`, 1 `PAY`, 2 `OPT`, 3 names no buffer (R60). -/
def bufSelected (sel : BitVec 2) : Option BufName :=
  if sel = 0 then some .wbuf
  else if sel = 1 then some .pay
  else if sel = 2 then some .opt
  else none

/-- The capacity of a buffer (R33 to R35). -/
def bufCapacity (c : Config) : BufName → Nat
  | .wbuf => c.wbufMax
  | .pay => c.payCap
  | .opt => c.optMax

/-- A buffer of a context. -/
def Context.buffer (c : Context) : BufName → Buffer
  | .wbuf => c.wbuf
  | .pay => c.pay
  | .opt => c.opt

/-- The context with a buffer replaced. -/
def Context.putBuffer (c : Context) (b : Buffer) : BufName → Context
  | .wbuf => { c with wbuf := b }
  | .pay => { c with pay := b }
  | .opt => { c with opt := b }

/-- The context and the buffer that a buffer transaction names, when the context and the buffer exist and
the offset is below the buffer's capacity (R178). -/
def State.bufferAt (s : State) (x : BitVec 4) (sel : BitVec 2) (off : BitVec 16) : Option (Context × BufName) :=
  match s.ctxs[x.toNat]?, bufSelected sel with
  | some c, some b => if off.toNat < bufCapacity s.config b then some (c, b) else none
  | _, _ => none

end Sys2Proof.Machine
end

