-- ==== Sys2Proof/Machine/Checksum.lean ====
section
/-! DEFINITION. The Internet checksum (R165 to R168) and the command `CSUM` (R171). -/

namespace Sys2Proof.Machine

/-- The sum of the big-endian 16-bit words of a byte sequence; the last byte of an odd-length one is the
high byte of a word whose low byte is 0 (R166). Summed in naturals (R169, log 7). -/
def wordSum : List Byte → Nat
  | [] => 0
  | [hi] => hi.toNat * 256
  | hi :: lo :: rest => hi.toNat * 256 + lo.toNat + wordSum rest

/-- "acc = (acc & 0xFFFF) + (acc >> 16)" until no carry remains (R167). Every fold of a number that has a
carry makes it smaller, so `acc` itself is fuel enough. -/
def foldCarries : Nat → Nat → Nat
  | 0, acc => acc
  | fuel + 1, acc => if acc / 65536 = 0 then acc else foldCarries fuel (acc % 65536 + acc / 65536)

/-- `InetCsum(b)` (R165): the complement of the folded sum (R168). -/
def inetCsum (bs : List Byte) : BitVec 16 := ~~~(BitVec.ofNat 16 (foldCarries (wordSum bs) (wordSum bs)))

/-- `CSUM x` on its context (R171). -/
def csumBody (cfg : Config) (c : Context) : Except Raised Context :=
  if cfg.wbufMax < c.wlen.toNat then .error ⟨.range, .csum⟩
  else .ok ({ c with csumRes := inetCsum (c.wbuf.readBytes 0 c.wlen.toNat) }.finish .ok .csum)

/-- `CSUM x` (R171). -/
def execCsum (x : BitVec 4) (s : State) : Host.Outcome State Fault Refusal :=
  .next (s.onContext x (csumBody s.config))

end Sys2Proof.Machine
end

