-- ==== Sys2Proof/Machine/Icmp.lean ====
section
/-! DEFINITION. The ICMP echo codec: `ICMP_MKREQ`, `ICMP_ENC`, `ICMP_DEC`, `ICMP_VFY` (40_icmp_echo.md). -/

namespace Sys2Proof.Machine

/-- `IcmpBytes(C, ck)` (R111). -/
def icmpBytes (c : Context) (ck : BitVec 16) : List Byte :=
  [c.icType] ++ [c.icCode] ++ be16 ck ++ be16 c.icId ++ be16 c.icSeq ++ c.pay.readBytes 0 c.icPlen.toNat

/-- `ICMP_MKREQ x, seq` on its context (R112), with the operands `IDENT`, `TIME_SEC`, `TIME_SUB`. -/
def icmpMkreqBody (ident : BitVec 16) (timeSec : BitVec 64) (timeSub : BitVec 32) (seq : BitVec 16) (c : Context) :
    Except Raised Context :=
  .ok ({ c with
    icType := icmpEchoRequest
    icCode := 0
    icCsum := 0
    icId := ident
    icSeq := seq
    pay := c.pay.writeBytes 0 (be64 timeSec ++ be32 timeSub)
    icPlen := 12 }.finish .ok .icmp)

/-- `IcmpEncode(C)` (R115): the context with `IC_CSUM` computed, and the message. -/
def icmpEncode (cfg : Config) (c : Context) : Except Raised (Context × List Byte) :=
  if cfg.payCap < c.icPlen.toNat then .error ⟨.range, .icmp⟩
  else
    let ck := inetCsum (icmpBytes c 0)
    .ok ({ c with icCsum := ck }, icmpBytes c ck)

/-- The end of every encode command: the bytes into `WBUF` from offset 0, their number into `WLEN`. -/
def emit (c : Context) (bs : List Byte) : Context :=
  { c with wbuf := c.wbuf.writeBytes 0 bs, wlen := BitVec.ofNat 16 bs.length }

/-- `ICMP_ENC x` on its context (R115). -/
def icmpEncBody (cfg : Config) (c : Context) : Except Raised Context :=
  match icmpEncode cfg c with
  | .error r => .error r
  | .ok (c', bs) => .ok ((emit c' bs).finish .ok .icmp)

/-- `IcmpDecode(C, b)` (R116). -/
def icmpDecode (c : Context) (bs : List Byte) : Except Raised Context :=
  if bs.length < icmpMin then .error ⟨.truncated, .icmp⟩
  else .ok { c with
    icType := byteAt bs 0
    icCode := byteAt bs 1
    icCsum := u16At bs 2
    icId := u16At bs 4
    icSeq := u16At bs 6
    pay := c.pay.writeBytes 0 (bs.drop icmpMin)
    icPlen := BitVec.ofNat 16 (bs.length - icmpMin) }

/-- `IcmpCsumOk(b)` (R116): the message's checksum field holds the checksum of the message. -/
def icmpCsumOk (bs : List Byte) : Bool := inetCsum (slice bs 0 2 ++ [0, 0] ++ bs.drop 4) == u16At bs 2

/-- `ICMP_DEC x` on its context (R116, R117). -/
def icmpDecBody (cfg : Config) (strict : Bool) (c : Context) : Except Raised Context :=
  if cfg.wbufMax < c.wlen.toNat then .error ⟨.range, .icmp⟩
  else
    let bs := c.wbuf.readBytes 0 c.wlen.toNat
    match icmpDecode c bs with
    | .error r => .error r
    | .ok c' =>
      if strict && !icmpCsumOk bs then .error ⟨.csumMismatch, .icmp⟩
      else .ok (c'.finish .ok .icmp)

/-- The end of a verify command (R118, R142): `CSUM_RES` is kept whether or not the checksums agree. -/
def verdict (c : Context) (computed stored : BitVec 16) (layer : Layer) : Context :=
  { c with csumRes := computed }.finish (if computed = stored then .ok else .csumMismatch) layer

/-- `ICMP_VFY x` on its context (R118). -/
def icmpVfyBody (cfg : Config) (c : Context) : Except Raised Context :=
  if cfg.payCap < c.icPlen.toNat then .error ⟨.range, .icmp⟩
  else .ok (verdict c (inetCsum (icmpBytes c 0)) c.icCsum .icmp)

/-- `ICMP_MKREQ x, seq` (R112). -/
def execIcmpMkreq (x : BitVec 4) (seq : BitVec 16) (s : State) : Host.Outcome State Fault Refusal :=
  .next (s.onContext x (icmpMkreqBody s.ident s.timeSec s.timeSub seq))

/-- `ICMP_ENC x` (R115). -/
def execIcmpEnc (x : BitVec 4) (s : State) : Host.Outcome State Fault Refusal :=
  .next (s.onContext x (icmpEncBody s.config))

/-- `ICMP_DEC x` (R116). -/
def execIcmpDec (x : BitVec 4) (s : State) : Host.Outcome State Fault Refusal :=
  .next (s.onContext x (icmpDecBody s.config s.strict))

/-- `ICMP_VFY x` (R118). -/
def execIcmpVfy (x : BitVec 4) (s : State) : Host.Outcome State Fault Refusal :=
  .next (s.onContext x (icmpVfyBody s.config))

end Sys2Proof.Machine
end

