-- ==== Sys2Proof/Machine/Ipv4.lean ====
section
/-! DEFINITION. The IPv4 header codec: `IP_MK`, `IP_ENC`, `IP_DEC`, `IP_VFY` (41_ipv4_header.md). -/

namespace Sys2Proof.Machine

/-- `IpHdrBytes(C, ck)` (R131). -/
def ipHdrBytes (c : Context) (ck : BitVec 16) : List Byte :=
  [c.ipVihl] ++ [c.ipTos] ++ be16 c.ipTlen ++ be16 c.ipId ++ be16 c.ipFlfr ++ [c.ipTtl] ++ [c.ipProto] ++ be16 ck
    ++ be32 c.ipSrc ++ be32 c.ipDst ++ c.opt.readBytes 0 c.ipOptlen.toNat

/-- The number of 32-bit option words, `ceil(ol/4)` (R9, R132). -/
def optionWords (ol : Nat) : Nat := (ol + 3) / 4

/-- The version and header-length byte for `w` option words: the nibble saturates (R133). The version is
the high nibble (R29, 93 GK1, log 8). -/
def vihlFor (w : Nat) : BitVec 8 := ipVersion ++ BitVec.ofNat 4 (ihlBase + min w ihlExtraCap)

/-- `IP_MK x` on its context (R132 to R136). -/
def ipMkBody (cfg : Config) (c : Context) : Except Raised Context :=
  let ol := c.ipOptlen.toNat
  if cfg.optMax < ol then .error ⟨.range, .ip⟩
  else if cfg.payCap < c.icPlen.toNat then .error ⟨.range, .icmp⟩
  else
    let w := optionWords ol
    let pl := 4 * w
    let c' := { c with
      opt := c.opt.writeBytes ol (List.replicate (pl - ol) 0)
      ipOptlen := BitVec.ofNat 16 pl
      ipVihl := vihlFor w
      ipTlen := BitVec.ofNat 16 (20 + pl + 8 + c.icPlen.toNat) }
    .ok ({ c' with ipCsum := inetCsum (ipHdrBytes c' 0) }.finish .ok .ip)

/-- `IpEncode(C)` (R137): header fields as stored, then the encoded ICMP message. -/
def ipEncode (cfg : Config) (c : Context) : Except Raised (Context × List Byte) :=
  if cfg.optMax < c.ipOptlen.toNat then .error ⟨.range, .ip⟩
  else
    match icmpEncode cfg c with
    | .error r => .error r
    | .ok (c', m) => .ok (c', ipHdrBytes c' c'.ipCsum ++ m)

/-- `IP_ENC x` on its context (R137, R138). -/
def ipEncBody (cfg : Config) (c : Context) : Except Raised Context :=
  match ipEncode cfg c with
  | .error r => .error r
  | .ok (c', bs) =>
    if cfg.wbufMax < bs.length then .error ⟨.range, .ip⟩
    else .ok ((emit c' bs).finish .ok .ip)

/-- `IpDecode(C, b)` (R139, R140). -/
def ipDecode (c : Context) (bs : List Byte) : Except Raised Context :=
  if bs.length < ipMin then .error ⟨.truncated, .ip⟩
  else icmpDecode { c with
    ipVihl := byteAt bs 0
    ipTos := byteAt bs 1
    ipTlen := u16At bs 2
    ipId := u16At bs 4
    ipFlfr := u16At bs 6
    ipTtl := byteAt bs 8
    ipProto := byteAt bs 9
    ipCsum := u16At bs 10
    ipSrc := BitVec.ofNat 32 (ube (slice bs 12 16))
    ipDst := BitVec.ofNat 32 (ube (slice bs 16 20))
    ipOptlen := 0 } (bs.drop ipMin)

/-- `IpCsumOk(h)` (R139), of the first 20 bytes of a header. -/
def ipCsumOk (h : List Byte) : Bool := inetCsum (slice h 0 10 ++ [0, 0] ++ slice h 12 20) == u16At h 10

/-- The strict checks of the IPv4 header and the ICMP message that start a byte sequence, outer layer
first (R141, R157). -/
def strictChecks (strict : Bool) (bs : List Byte) (c : Context) : Except Raised Context :=
  if strict && !ipCsumOk (slice bs 0 20) then .error ⟨.csumMismatch, .ip⟩
  else if strict && !icmpCsumOk (bs.drop 20) then .error ⟨.csumMismatch, .icmp⟩
  else .ok c

/-- `IP_DEC x` on its context (R139, R141). -/
def ipDecBody (cfg : Config) (strict : Bool) (c : Context) : Except Raised Context :=
  if cfg.wbufMax < c.wlen.toNat then .error ⟨.range, .ip⟩
  else
    let bs := c.wbuf.readBytes 0 c.wlen.toNat
    match ipDecode c bs with
    | .error r => .error r
    | .ok c' => strictChecks strict bs (c'.finish .ok .ip)

/-- `IP_VFY x` on its context (R142). -/
def ipVfyBody (cfg : Config) (c : Context) : Except Raised Context :=
  if cfg.optMax < c.ipOptlen.toNat then .error ⟨.range, .ip⟩
  else .ok (verdict c (inetCsum (ipHdrBytes c 0)) c.ipCsum .ip)

/-- `IP_MK x` (R132). -/
def execIpMk (x : BitVec 4) (s : State) : Host.Outcome State Fault Refusal :=
  .next (s.onContext x (ipMkBody s.config))

/-- `IP_ENC x` (R137). -/
def execIpEnc (x : BitVec 4) (s : State) : Host.Outcome State Fault Refusal :=
  .next (s.onContext x (ipEncBody s.config))

/-- `IP_DEC x` (R139). -/
def execIpDec (x : BitVec 4) (s : State) : Host.Outcome State Fault Refusal :=
  .next (s.onContext x (ipDecBody s.config s.strict))

/-- `IP_VFY x` (R142). -/
def execIpVfy (x : BitVec 4) (s : State) : Host.Outcome State Fault Refusal :=
  .next (s.onContext x (ipVfyBody s.config))

end Sys2Proof.Machine
end

