-- ==== Sys2Proof/Machine/Ethernet.lean ====
section
/-! DEFINITION. The Ethernet frame codec: `ETH_MK`, `ETH_ENC`, `ETH_DEC` (42_ethernet_frame.md). -/

namespace Sys2Proof.Machine

/-- `EthHdrBytes(C)` (R151). The ether type's high byte goes first (R63, 93 GK2: PRESUMED, log 8). -/
def ethHdrBytes (c : Context) : List Byte := be48 c.ethDst ++ be48 c.ethSrc ++ be16 c.ethType

/-- `ETH_MK x` on its context (R152), with the operands `CFG.PEER_EN`, `MAC_PEER`, `MAC_LOCAL`. -/
def ethMkBody (peerEn : Bool) (macPeer macLocal : BitVec 48) (c : Context) : Except Raised Context :=
  .ok ({ c with
    ethDst := if peerEn then macPeer else macBroadcast
    ethSrc := macLocal
    ethType := ethertypeIpv4 }.finish .ok .eth)

/-- `ETH_ENC x` on its context (R154). -/
def ethEncBody (cfg : Config) (c : Context) : Except Raised Context :=
  match ipEncode cfg c with
  | .error r => .error r
  | .ok (c', p) =>
    let bs := ethHdrBytes c' ++ p
    if cfg.wbufMax < bs.length then .error ⟨.range, .eth⟩
    else .ok ((emit c' bs).finish .ok .eth)

/-- The structural parse of a frame (R156): the Ethernet fields, then the IPv4 header and what it holds.
The ether type's high byte comes first (R63, 93 GK2: PRESUMED, log 8). -/
def ethDecode (c : Context) (bs : List Byte) : Except Raised Context :=
  if bs.length < ethMin then .error ⟨.truncated, .eth⟩
  else ipDecode { c with
    ethDst := BitVec.ofNat 48 (ube (slice bs 0 6))
    ethSrc := BitVec.ofNat 48 (ube (slice bs 6 12))
    ethType := u16At bs 12 } (bs.drop ethMin)

/-- `ETH_DEC x` on its context (R156, R157). -/
def ethDecBody (cfg : Config) (strict : Bool) (c : Context) : Except Raised Context :=
  if cfg.wbufMax < c.wlen.toNat then .error ⟨.range, .eth⟩
  else
    let bs := c.wbuf.readBytes 0 c.wlen.toNat
    match ethDecode c bs with
    | .error r => .error r
    | .ok c' => strictChecks strict (bs.drop ethMin) (c'.finish .ok .eth)

/-- `ETH_MK x` (R152). -/
def execEthMk (x : BitVec 4) (s : State) : Host.Outcome State Fault Refusal :=
  .next (s.onContext x (ethMkBody s.peerEn s.macPeer s.macLocal))

/-- `ETH_ENC x` (R154). -/
def execEthEnc (x : BitVec 4) (s : State) : Host.Outcome State Fault Refusal :=
  .next (s.onContext x (ethEncBody s.config))

/-- `ETH_DEC x` (R156). -/
def execEthDec (x : BitVec 4) (s : State) : Host.Outcome State Fault Refusal :=
  .next (s.onContext x (ethDecBody s.config s.strict))

end Sys2Proof.Machine
end

