-- ==== Sys2Proof/Machine/Port.lean ====
section
/-! DEFINITION. The host port: the four transactions (44_host_access.md), the execution of a command word,
how a step takes the next input, and the host's pseudo-operations (R96). -/

namespace Sys2Proof.Machine

/-- The index of `CMD` (R24). -/
def cmdIndex : BitVec 8 := 0x07

/-- Executes a command word (R177): an illegal one sets `GERR.ILL` and nothing else (R93, R189).
The decoder answers no host transaction; those four arms are there for totality. -/
def execCommandWord (w : CmdWord) (s : State) : Host.Outcome State Fault Refusal :=
  match decodeCommand s.nctx w with
  | .error _ => .next s.setIll
  | .ok (.csum x) => execCsum x s
  | .ok (.icmpMkreq x seq) => execIcmpMkreq x seq s
  | .ok (.icmpEnc x) => execIcmpEnc x s
  | .ok (.icmpDec x) => execIcmpDec x s
  | .ok (.icmpVfy x) => execIcmpVfy x s
  | .ok (.ipMk x) => execIpMk x s
  | .ok (.ipEnc x) => execIpEnc x s
  | .ok (.ipDec x) => execIpDec x s
  | .ok (.ipVfy x) => execIpVfy x s
  | .ok (.ethMk x) => execEthMk x s
  | .ok (.ethEnc x) => execEthEnc x s
  | .ok (.ethDec x) => execEthDec x s
  | .ok (.regRd _) => .next s.setIll
  | .ok (.regWr _ _) => .next s.setIll
  | .ok (.bufRd _ _ _) => .next s.setIll
  | .ok (.bufWr _ _ _ _) => .next s.setIll

/-- `REG_RD(idx)` (R176): the value is the reply; no other state changes. -/
def execRegRd (idx : BitVec 8) (s : State) : Host.Outcome State Fault Refusal :=
  .next { s with reply := .word (s.readReg (regRef idx)) }

/-- `REG_WR(idx, v)` (R177). -/
def execRegWr (idx : BitVec 8) (v : Data) (s : State) : Host.Outcome State Fault Refusal :=
  if idx = cmdIndex then execCommandWord (v.setWidth 32) s
  else .next (s.writeReg v (regRef idx))

/-- `BUF_RD(x, sel, off)` (R178, R181). -/
def execBufRd (x : BitVec 4) (sel : BitVec 2) (off : BitVec 16) (s : State) : Host.Outcome State Fault Refusal :=
  match s.bufferAt x sel off with
  | some (c, b) => .next { s with reply := .byte ((c.buffer b).read off.toNat) }
  | none => .next { s.setBus with reply := .byte 0 }

/-- `BUF_WR(x, sel, off, d)` (R179, R181). -/
def execBufWr (x : BitVec 4) (sel : BitVec 2) (off : BitVec 16) (d : Byte) (s : State) :
    Host.Outcome State Fault Refusal :=
  match s.bufferAt x sel off with
  | some (c, b) => .next (s.putCtx x.toNat (c.putBuffer ((c.buffer b).writeBytes off.toNat [d]) b))
  | none => .next s.setBus

/-- The instruction of the opcode table that a transaction is. -/
def Transaction.toInstr : Transaction → Instr
  | .regRd idx => .regRd idx
  | .regWr idx v => .regWr idx v
  | .bufRd x sel off => .bufRd x sel off
  | .bufWr x sel off d => .bufWr x sel off d

/-- The `REG_WR` that gives the block a command word (R95). -/
def cmdWrite (w : CmdWord) : Transaction := .regWr cmdIndex (w.setWidth 64)

/-- The transaction by which the host performs an instruction: a command is a `REG_WR` of its word to
`CMD` (R95); a host transaction is itself. Every instruction has one. -/
def transactionOf (i : Instr) : Option Transaction :=
  match i with
  | .csum x => (encodeCommand (.csum x)).map cmdWrite
  | .icmpMkreq x seq => (encodeCommand (.icmpMkreq x seq)).map cmdWrite
  | .icmpEnc x => (encodeCommand (.icmpEnc x)).map cmdWrite
  | .icmpDec x => (encodeCommand (.icmpDec x)).map cmdWrite
  | .icmpVfy x => (encodeCommand (.icmpVfy x)).map cmdWrite
  | .ipMk x => (encodeCommand (.ipMk x)).map cmdWrite
  | .ipEnc x => (encodeCommand (.ipEnc x)).map cmdWrite
  | .ipDec x => (encodeCommand (.ipDec x)).map cmdWrite
  | .ipVfy x => (encodeCommand (.ipVfy x)).map cmdWrite
  | .ethMk x => (encodeCommand (.ethMk x)).map cmdWrite
  | .ethEnc x => (encodeCommand (.ethEnc x)).map cmdWrite
  | .ethDec x => (encodeCommand (.ethDec x)).map cmdWrite
  | .regRd idx => some (.regRd idx)
  | .regWr idx v => some (.regWr idx v)
  | .bufRd x sel off => some (.bufRd x sel off)
  | .bufWr x sel off d => some (.bufWr x sel off d)

/-- The port takes the oldest input that waits; what the last transaction returned is gone then. -/
def State.takeInput (s : State) : Option (Input × State) :=
  match s.pending with
  | [] => none
  | i :: rest => some (i, { s with pending := rest, reply := .nothing })

/-- `BFILL x.BUF, b0 b1 ..` (R96): one `BUF_WR` a byte, then the length register. DESIGN CHOICE (log 11): R24 has no
index for a length register of a context x ≥ 3, which no block has (R7); the index `0x40·(x+1) + len` is then taken
modulo 256, the width of an index. -/
def bfill (x : BitVec 4) (b : BufName) (bs : List Byte) : List Instr :=
  let sel : BitVec 2 := match b with
    | .wbuf => 0
    | .pay => 1
    | .opt => 2
  let len : Nat := match b with
    | .wbuf => 0x02
    | .pay => 0x35
    | .opt => 0x2A
  (List.range bs.length).map (fun i => Instr.bufWr x sel (BitVec.ofNat 16 i) (byteAt bs i))
    ++ [.regWr (BitVec.ofNat 8 (0x40 * (x.toNat + 1) + len)) (BitVec.ofNat 64 bs.length)]

/-- `PING_TX x, seq` (R96): the send flow. -/
def pingTx (x : BitVec 4) (seq : BitVec 16) : List Instr := [.icmpMkreq x seq, .ipMk x, .ethMk x, .ethEnc x]

/-- `PING_RX x` (R96): the receive flow. -/
def pingRx (x : BitVec 4) : List Instr := [.ethDec x]

end Sys2Proof.Machine
end

