-- ==== Sys2Proof/Machine/Dispatch.lean ====
section
/-! DEFINITION. The meaning of each instruction: one arm per constructor of `Instr`. -/

namespace Sys2Proof.Machine

def exec (i : Instr) (s : State) : Host.Outcome State Fault Refusal :=
  match i with
  -- the checksum unit (43_internet_checksum.md)
  | .csum x => Sys2Proof.Machine.execCsum x s
  -- the ICMP echo codec (40_icmp_echo.md)
  | .icmpMkreq x seq => Sys2Proof.Machine.execIcmpMkreq x seq s
  | .icmpEnc x => Sys2Proof.Machine.execIcmpEnc x s
  | .icmpDec x => Sys2Proof.Machine.execIcmpDec x s
  | .icmpVfy x => Sys2Proof.Machine.execIcmpVfy x s
  -- the IPv4 header codec (41_ipv4_header.md)
  | .ipMk x => Sys2Proof.Machine.execIpMk x s
  | .ipEnc x => Sys2Proof.Machine.execIpEnc x s
  | .ipDec x => Sys2Proof.Machine.execIpDec x s
  | .ipVfy x => Sys2Proof.Machine.execIpVfy x s
  -- the Ethernet frame codec (42_ethernet_frame.md)
  | .ethMk x => Sys2Proof.Machine.execEthMk x s
  | .ethEnc x => Sys2Proof.Machine.execEthEnc x s
  | .ethDec x => Sys2Proof.Machine.execEthDec x s
  -- the host transactions (44_host_access.md)
  | .regRd idx => Sys2Proof.Machine.execRegRd idx s
  | .regWr idx v => Sys2Proof.Machine.execRegWr idx v s
  | .bufRd x sel off => Sys2Proof.Machine.execBufRd x sel off s
  | .bufWr x sel off d => Sys2Proof.Machine.execBufWr x sel off d s

end Sys2Proof.Machine
end

