-- ==== Sys2Proof/Machine/Step.lean ====
section
/-! DEFINITION. One step of the block: the next input of the host (R20, R205). -/

namespace Sys2Proof.Machine

/-- A step is one host transaction (R20) or one reset (R205). With no input waiting the block is idle and
keeps all state (R199). -/
def step (s : State) : Host.Outcome State Fault Refusal :=
  match s.takeInput with
  | none => .next s
  | some (.reset, s') => .next s'.applyReset
  | some (.transaction t, s') => exec t.toInstr s'

/-- The command word `w` (its low `nbits` bits) as the next input: a `REG_WR` of it to `CMD` (R95), ahead
of what waits already. -/
def State.withFetchWord (s : State) (nbits w : Nat) : State :=
  { s with pending := .transaction (.regWr cmdIndex (BitVec.ofNat 64 (w % 2 ^ nbits))) :: s.pending }

end Sys2Proof.Machine
end

