-- ==== Sys2Proof/Safety.lean ====
section
/-! DEFINITION. What counts as a good state, and the vocabulary of the statements: the wire formats byte by byte
(30_encoding.md), the register map as tables (R24), the context an instruction names (R73). The machine
uses none of it. -/

namespace Sys2Proof.Machine

/-! ## Good states and runs -/

/-- A buffer in canonical form with every written byte below the capacity. -/
abbrev Buffer.Wf (cap : Nat) (b : Buffer) : Prop := Memory.wf b.cells ∧ ∀ c ∈ b.cells, c.1 < cap

/-- A context's `STATUS.CODE` is one of the four codes that are ever written (R43), and its buffers are
good for the capacities. -/
abbrev Context.Wf (cfg : Config) (c : Context) : Prop :=
  (statusCode c.status).toNat ≤ 3 ∧ c.wbuf.Wf cfg.wbufMax ∧ c.pay.Wf cfg.payCap ∧ c.opt.Wf cfg.optMax

/-- The parameters meet R7 and every context is good. -/
abbrev State.Inv (s : State) : Prop :=
  s.config.Valid ∧ Config.ValidNctx s.nctx ∧ ∀ c ∈ s.ctxs, c.Wf s.config

/-- The numbers of the unspecified contents of a context's buffers. -/
def Context.fills (c : Context) : List Nat := [c.wbuf.fill, c.pay.fill, c.opt.fill]

/-- No two buffers share their unspecified contents, and the next reset gives out new ones (log 4). -/
abbrev State.FreshFills (s : State) : Prop :=
  (s.ctxs.flatMap Context.fills).Nodup ∧ ∀ n ∈ s.ctxs.flatMap Context.fills, n < s.nextFill

/-- A safe run: the block takes `k` inputs (or idles) from `s` without stopping. -/
def RunsFor (k : Nat) (s : State) : Prop := ∃ s', Host.Core.run Sys2Proof.core k s = .next s'

/-! ## Which context an instruction names -/

/-- The context number of a command. -/
def commandContext : Instr → Option (BitVec 4)
  | .csum x => some x
  | .icmpMkreq x _ => some x
  | .icmpEnc x => some x
  | .icmpDec x => some x
  | .icmpVfy x => some x
  | .ipMk x => some x
  | .ipEnc x => some x
  | .ipDec x => some x
  | .ipVfy x => some x
  | .ethMk x => some x
  | .ethEnc x => some x
  | .ethDec x => some x
  | .regRd _ => none
  | .regWr _ _ => none
  | .bufRd _ _ _ => none
  | .bufWr _ _ _ _ => none

/-- The context that the registers at an index belong to (R24), if any. -/
def indexContext (idx : BitVec 8) : Option Nat := if idx.toNat < 0x40 then none else some (idx.toNat / 0x40 - 1)

/-- The context an instruction names on a block of `nctx` contexts (R73): a command's, a buffer
transaction's, that of a context register; a write of a legal command word to `CMD` names the command's. -/
def namedContext (nctx : Nat) : Instr → Option Nat
  | .regRd idx => indexContext idx
  | .regWr idx v =>
    if idx = 0x07 then
      match decodeCommand nctx (v.setWidth 32) with
      | .ok i => (commandContext i).map BitVec.toNat
      | .error _ => none
    else indexContext idx
  | .bufRd x _ _ => some x.toNat
  | .bufWr x _ _ _ => some x.toNat
  | i => (commandContext i).map BitVec.toNat

/-! ## The wire formats, byte by byte -/

/-- R81: the byte at offset `i` of the Ethernet header; the order of the ether type's two bytes is R63's (93 GK2,
log 8). -/
def ethWireByte (c : Context) (i : Nat) : Byte :=
  if i < 6 then c.ethDst.extractLsb' (40 - 8 * i) 8
  else if i < 12 then c.ethSrc.extractLsb' (40 - 8 * (i - 6)) 8
  else if i = 12 then c.ethType.extractLsb' 8 8
  else c.ethType.extractLsb' 0 8

/-- R82: the byte at offset `i` of the ICMP message, with `ck` in the checksum field. -/
def icmpWireByte (c : Context) (ck : BitVec 16) (i : Nat) : Byte :=
  if i = 0 then c.icType
  else if i = 1 then c.icCode
  else if i = 2 then ck.extractLsb' 8 8
  else if i = 3 then ck.extractLsb' 0 8
  else if i = 4 then c.icId.extractLsb' 8 8
  else if i = 5 then c.icId.extractLsb' 0 8
  else if i = 6 then c.icSeq.extractLsb' 8 8
  else if i = 7 then c.icSeq.extractLsb' 0 8
  else c.pay.read (i - 8)

/-- R84: the byte at offset `i` of the IPv4 header, options included, with `ck` in the checksum field. -/
def ipWireByte (c : Context) (ck : BitVec 16) (i : Nat) : Byte :=
  if i = 0 then c.ipVihl
  else if i = 1 then c.ipTos
  else if i = 2 then c.ipTlen.extractLsb' 8 8
  else if i = 3 then c.ipTlen.extractLsb' 0 8
  else if i = 4 then c.ipId.extractLsb' 8 8
  else if i = 5 then c.ipId.extractLsb' 0 8
  else if i = 6 then c.ipFlfr.extractLsb' 8 8
  else if i = 7 then c.ipFlfr.extractLsb' 0 8
  else if i = 8 then c.ipTtl
  else if i = 9 then c.ipProto
  else if i = 10 then ck.extractLsb' 8 8
  else if i = 11 then ck.extractLsb' 0 8
  else if i < 16 then c.ipSrc.extractLsb' (24 - 8 * (i - 12)) 8
  else if i < 20 then c.ipDst.extractLsb' (24 - 8 * (i - 16)) 8
  else c.opt.read (i - 20)

/-- R84: the byte at offset `i` of header, options and ICMP message. -/
def datagramWireByte (c : Context) (ipCk icCk : BitVec 16) (i : Nat) : Byte :=
  if i < 20 + c.ipOptlen.toNat then ipWireByte c ipCk i
  else icmpWireByte c icCk (i - (20 + c.ipOptlen.toNat))

/-- R81: the byte at offset `i` of the whole frame. -/
def frameWireByte (c : Context) (ipCk icCk : BitVec 16) (i : Nat) : Byte :=
  if i < 14 then ethWireByte c i else datagramWireByte c ipCk icCk (i - 14)

/-- `IcmpLen(C)` (R87). -/
def icmpLen (c : Context) : Nat := 8 + c.icPlen.toNat

/-- `IpLen(C)` (R87). -/
def ipLen (c : Context) : Nat := 20 + c.ipOptlen.toNat + icmpLen c

/-- `EthLen(C)` (R87). -/
def ethLen (c : Context) : Nat := 14 + ipLen c

/-- The checksum of the ICMP record: over the whole message, its checksum field zero (R115, R173). -/
def icmpChecksum (c : Context) : BitVec 16 := inetCsum ((List.range (icmpLen c)).map (icmpWireByte c 0))

/-- The checksum of the IPv4 record: over header and options, its checksum field zero (R135, R173). -/
def ipChecksum (c : Context) : BitVec 16 :=
  inetCsum ((List.range (20 + c.ipOptlen.toNat)).map (ipWireByte c 0))

/-! ## What a decode makes of bytes, `b i` being the byte at offset `i` of the wire buffer -/

/-- R82: the ICMP record of `c'` is the message at offsets `base` to `len − 1`, the payload laid over that of
`c`. -/
def IcmpParsed (b : Nat → Byte) (base len : Nat) (c c' : Context) : Prop :=
  c'.icType = b base ∧ c'.icCode = b (base + 1) ∧ c'.icCsum = b (base + 2) ++ b (base + 3) ∧
  c'.icId = b (base + 4) ++ b (base + 5) ∧ c'.icSeq = b (base + 6) ++ b (base + 7) ∧
  c'.icPlen.toNat = len - (base + 8) ∧
  ∀ i, c'.pay.read i = if i < len - (base + 8) then b (base + 8 + i) else c.pay.read i

/-- R84, R140: the IPv4 registers of `c'` are the 20 bytes at `base`; there are no options. -/
def IpParsed (b : Nat → Byte) (base : Nat) (c' : Context) : Prop :=
  c'.ipVihl = b base ∧ c'.ipTos = b (base + 1) ∧ c'.ipTlen = b (base + 2) ++ b (base + 3) ∧
  c'.ipId = b (base + 4) ++ b (base + 5) ∧ c'.ipFlfr = b (base + 6) ++ b (base + 7) ∧
  c'.ipTtl = b (base + 8) ∧ c'.ipProto = b (base + 9) ∧ c'.ipCsum = b (base + 10) ++ b (base + 11) ∧
  c'.ipSrc = b (base + 12) ++ b (base + 13) ++ b (base + 14) ++ b (base + 15) ∧
  c'.ipDst = b (base + 16) ++ b (base + 17) ++ b (base + 18) ++ b (base + 19) ∧ c'.ipOptlen = 0

/-- R81: the Ethernet registers of `c'` are the first 14 bytes; the order of the ether type's two bytes is R63's (93
GK2, log 8). -/
def EthParsed (b : Nat → Byte) (c' : Context) : Prop :=
  c'.ethDst = b 0 ++ b 1 ++ b 2 ++ b 3 ++ b 4 ++ b 5 ∧
  c'.ethSrc = b 6 ++ b 7 ++ b 8 ++ b 9 ++ b 10 ++ b 11 ∧ c'.ethType = b 12 ++ b 13

/-- The message at offsets `base` to `len − 1` carries its own checksum (R117). -/
def IcmpWireOk (b : Nat → Byte) (base len : Nat) : Prop :=
  inetCsum ((List.range (len - base)).map fun i => if i = 2 ∨ i = 3 then 0 else b (base + i)) =
    b (base + 2) ++ b (base + 3)

/-- The 20-byte header at `base` carries its own checksum (R141). -/
def IpWireOk (b : Nat → Byte) (base : Nat) : Prop :=
  inetCsum ((List.range 20).map fun i => if i = 10 ∨ i = 11 then 0 else b (base + i)) =
    b (base + 10) ++ b (base + 11)

/-! ## The register map of R24 as tables -/

/-- The index of the register at offset `off` of context `x`. -/
def contextIndex (x off : Nat) : BitVec 8 := BitVec.ofNat 8 (0x40 * (x + 1) + off)

/-- Index and value of each global register (`CMD` reads 0). -/
def globalView (s : State) : List (BitVec 8 × Data) :=
  [(0x00, s.cfg.setWidth 64), (0x01, s.ident.setWidth 64), (0x02, s.macLocal.setWidth 64),
    (0x03, s.macPeer.setWidth 64), (0x04, s.timeSec), (0x05, s.timeSub.setWidth 64),
    (0x06, s.gerr.setWidth 64), (0x07, 0)]

/-- Offset and value of each register of a context. -/
def contextView (c : Context) : List (Nat × Data) :=
  [(0x00, c.status.setWidth 64), (0x01, c.csumRes.setWidth 64), (0x02, c.wlen.setWidth 64)] ++
  [(0x10, c.ethDst.setWidth 64), (0x11, c.ethSrc.setWidth 64), (0x12, c.ethType.setWidth 64)] ++
  [(0x20, c.ipVihl.setWidth 64), (0x21, c.ipTos.setWidth 64), (0x22, c.ipTlen.setWidth 64),
    (0x23, c.ipId.setWidth 64), (0x24, c.ipFlfr.setWidth 64), (0x25, c.ipTtl.setWidth 64),
    (0x26, c.ipProto.setWidth 64), (0x27, c.ipCsum.setWidth 64), (0x28, c.ipSrc.setWidth 64),
    (0x29, c.ipDst.setWidth 64), (0x2A, c.ipOptlen.setWidth 64)] ++
  [(0x30, c.icType.setWidth 64), (0x31, c.icCode.setWidth 64), (0x32, c.icCsum.setWidth 64),
    (0x33, c.icId.setWidth 64), (0x34, c.icSeq.setWidth 64), (0x35, c.icPlen.setWidth 64)]

/-- Offset and result of a write of `v` to each RW register of a context. -/
def contextWrites (c : Context) (v : Data) : List (Nat × Context) :=
  [(0x02, { c with wlen := v.setWidth 16 })] ++
  [(0x10, { c with ethDst := v.setWidth 48 }), (0x11, { c with ethSrc := v.setWidth 48 }),
    (0x12, { c with ethType := v.setWidth 16 })] ++
  [(0x20, { c with ipVihl := v.setWidth 8 }), (0x21, { c with ipTos := v.setWidth 8 }),
    (0x22, { c with ipTlen := v.setWidth 16 }), (0x23, { c with ipId := v.setWidth 16 }),
    (0x24, { c with ipFlfr := v.setWidth 16 }), (0x25, { c with ipTtl := v.setWidth 8 }),
    (0x26, { c with ipProto := v.setWidth 8 }), (0x27, { c with ipCsum := v.setWidth 16 }),
    (0x28, { c with ipSrc := v.setWidth 32 }), (0x29, { c with ipDst := v.setWidth 32 }),
    (0x2A, { c with ipOptlen := v.setWidth 16 })] ++
  [(0x30, { c with icType := v.setWidth 8 }), (0x31, { c with icCode := v.setWidth 8 }),
    (0x32, { c with icCsum := v.setWidth 16 }), (0x33, { c with icId := v.setWidth 16 }),
    (0x34, { c with icSeq := v.setWidth 16 }), (0x35, { c with icPlen := v.setWidth 16 })]

/-- Index and width of each RW global register that keeps what is written. -/
def globalWidths : List (BitVec 8 × Nat) := [(0x00, 2), (0x01, 16), (0x02, 48), (0x03, 48), (0x04, 64), (0x05, 32)]

/-- Offset and width of each RW register of a context. -/
def contextWidths : List (Nat × Nat) :=
  [(0x02, 16), (0x10, 48), (0x11, 48), (0x12, 16)] ++
  [(0x20, 8), (0x21, 8), (0x22, 16), (0x23, 16), (0x24, 16), (0x25, 8), (0x26, 8), (0x27, 16), (0x28, 32),
    (0x29, 32), (0x2A, 16)] ++
  [(0x30, 8), (0x31, 8), (0x32, 16), (0x33, 16), (0x34, 16), (0x35, 16)]

/-- A reserved index (R45): in no table of R24, or in the range of a context that does not exist. -/
def ReservedIndex (nctx : Nat) (idx : BitVec 8) : Prop :=
  (0x08 ≤ idx.toNat ∧ idx.toNat ≤ 0x3F) ∨
  (0x40 ≤ idx.toNat ∧ (nctx ≤ idx.toNat / 0x40 - 1 ∨
    idx.toNat % 0x40 ∉ [0x00, 0x01, 0x02, 0x10, 0x11, 0x12, 0x20, 0x21, 0x22, 0x23, 0x24, 0x25, 0x26, 0x27,
      0x28, 0x29, 0x2A, 0x30, 0x31, 0x32, 0x33, 0x34, 0x35]))

/-- A buffer transaction is in range (R178): its context and buffer exist and its offset is below the
buffer's capacity. -/
def InRange (s : State) (x : BitVec 4) (sel : BitVec 2) (off : BitVec 16) : Prop :=
  x.toNat < s.nctx ∧
  ((sel = 0 ∧ off.toNat < s.config.wbufMax) ∨ (sel = 1 ∧ off.toNat < s.config.wbufMax - 8) ∨
    (sel = 2 ∧ off.toNat < s.config.optMax))

/-! ## The opcode table -/

/-- A row of the opcode map of R92. -/
structure OpcodeRow where
  /-- The column `match`. -/
  pattern : CmdWord
  /-- The column `mask`. -/
  mask : CmdWord
  /-- The command, from the fields CTX and IMM16. -/
  instr : BitVec 4 → BitVec 16 → Instr

/-- The twelve rows of R92. -/
def opcodeMap : List OpcodeRow :=
  [⟨0x00000000, 0xFFFFF0FF, fun x _ => .csum x⟩,
    ⟨0x00000010, 0x0000F0FF, fun x seq => .icmpMkreq x seq⟩,
    ⟨0x00000011, 0xFFFFF0FF, fun x _ => .icmpEnc x⟩,
    ⟨0x00000012, 0xFFFFF0FF, fun x _ => .icmpDec x⟩] ++
  [⟨0x00000013, 0xFFFFF0FF, fun x _ => .icmpVfy x⟩,
    ⟨0x00000020, 0xFFFFF0FF, fun x _ => .ipMk x⟩,
    ⟨0x00000021, 0xFFFFF0FF, fun x _ => .ipEnc x⟩,
    ⟨0x00000022, 0xFFFFF0FF, fun x _ => .ipDec x⟩] ++
  [⟨0x00000023, 0xFFFFF0FF, fun x _ => .ipVfy x⟩,
    ⟨0x00000030, 0xFFFFF0FF, fun x _ => .ethMk x⟩,
    ⟨0x00000031, 0xFFFFF0FF, fun x _ => .ethEnc x⟩,
    ⟨0x00000032, 0xFFFFF0FF, fun x _ => .ethDec x⟩]

/-- The status words a legal command can leave (R43, R122, R145, R160, R171). -/
def possibleStatus : Instr → List (BitVec 6)
  | .csum _ => [0x00, 0x03]
  | .icmpMkreq _ _ => [0x10]
  | .icmpEnc _ => [0x10, 0x13]
  | .icmpDec _ => [0x10, 0x13, 0x11, 0x12]
  | .icmpVfy _ => [0x10, 0x12, 0x13]
  | .ipMk _ => [0x20, 0x23, 0x13]
  | .ipEnc _ => [0x20, 0x23, 0x13]
  | .ipDec _ => [0x20, 0x23, 0x21, 0x11, 0x22, 0x12]
  | .ipVfy _ => [0x20, 0x22, 0x23]
  | .ethMk _ => [0x30]
  | .ethEnc _ => [0x30, 0x23, 0x13, 0x33]
  | .ethDec _ => [0x30, 0x33, 0x31, 0x21, 0x11, 0x22, 0x12]
  | .regRd _ => []
  | .regWr _ _ => []
  | .bufRd _ _ _ => []
  | .bufWr _ _ _ _ => []

/-! ## The checksum unit with its 32-bit accumulator -/

/-- The loop of R165 on a 32-bit accumulator. -/
def sum32 (acc : BitVec 32) : List Byte → BitVec 32
  | [] => acc
  | [hi] => acc + (hi.setWidth 32 * 256#32)
  | hi :: lo :: rest => sum32 (acc + (hi.setWidth 32 * 256#32 + lo.setWidth 32)) rest

/-- The two folding steps that R167 says are enough. -/
def fold32 (acc : BitVec 32) : BitVec 32 :=
  let once := (acc &&& 0xFFFF#32) + (acc >>> 16)
  (once &&& 0xFFFF#32) + (once >>> 16)

end Sys2Proof.Machine
end

