-- ==== Sys2Proof/Certificates/Slice0/Obligations.lean ====
section
/-! DEFINITION. The statements for the provers. Each docstring names the rules of spec/ it rests on; in every
statement `c` is the context the instruction names, as it stands before it. -/

open Sys2Proof Sys2Proof.Machine

/-! ## The command word -/

/-- R92's examples and one written-out word per unit, each field in its place (R90):
IMM16, ZERO, CTX, UNIT, FN. -/
def Obligations.DecodesWrittenOutWords : Prop :=
  decodeCommand 2 0x00000011 = .ok (.icmpEnc 0) ∧
  decodeCommand 2 0x00000132 = .ok (.ethDec 1) ∧
  decodeCommand 2 0x00070010 = .ok (.icmpMkreq 0 7) ∧
  decodeCommand 2 0xFFFF0110 = .ok (.icmpMkreq 1 0xFFFF) ∧
  decodeCommand 2 0b00000000000000000000000100000000 = .ok (.csum 1) ∧
  decodeCommand 2 0b00000000000000000000000100100011 = .ok (.ipVfy 1)

/-- R92: a word selects a row when `(w & mask) = match` and its CTX is below NCTX; the word of a command on
context x is `match | (x << 8)`, and for `ICMP_MKREQ` also `| (seq << 16)`; the four examples. -/
def Obligations.WordSelectsItsOpcodeRow : Prop :=
  (∀ row ∈ opcodeMap, ∀ (nctx : Nat) (w : CmdWord),
    (w &&& row.mask = row.pattern ∧ (w.extractLsb' 8 4).toNat < nctx) ↔
      decodeCommand nctx w = .ok (row.instr (w.extractLsb' 8 4) (w.extractLsb' 16 16))) ∧
  (∀ row ∈ opcodeMap, ∀ (x : BitVec 4) (imm : BitVec 16),
    encodeCommand (row.instr x imm) = some (row.pattern ||| (x.setWidth 32 <<< 8) |||
      if row.pattern = 0x00000010 then imm.setWidth 32 <<< 16 else 0)) ∧
  encodeCommand (.icmpEnc 0) = some 0x00000011 ∧ encodeCommand (.ethDec 1) = some 0x00000132 ∧
  encodeCommand (.icmpMkreq 0 7) = some 0x00070010 ∧ encodeCommand (.icmpMkreq 1 0xFFFF) = some 0xFFFF0110

/-- Every command that exists on the block decodes from its own word, whatever NCTX, context and
immediate (R90, R92). -/
def Obligations.DecodeAfterEncodeIsTheCommand : Prop :=
  ∀ (nctx : Nat) (i : Instr), i.isCommand = true → i.wf nctx = true →
    ∃ w, encodeCommand i = some w ∧ decodeCommand nctx w = .ok i

/-- A legal word is the word of the one command it decodes to: no bit of it is dropped (R93, R94). -/
def Obligations.LegalWordIsItsCommandsWord : Prop :=
  ∀ (nctx : Nat) (w : CmdWord) (i : Instr), decodeCommand nctx w = .ok i →
    i.isCommand = true ∧ i.wf nctx = true ∧ encodeCommand i = some w

/-- R93: which words are illegal, and that an illegal word executes nothing: it sets `GERR.ILL` and changes
no other state. -/
def Obligations.IllegalWordSetsIllAndNothingElse : Prop :=
  (∀ (nctx : Nat) (w : CmdWord), (∃ e, decodeCommand nctx w = .error e) ↔
    (w.extractLsb' 0 8 ∉ ([0x00, 0x10, 0x11, 0x12, 0x13, 0x20, 0x21, 0x22, 0x23, 0x30, 0x31, 0x32] : List (BitVec 8)) ∨
      w.extractLsb' 12 4 ≠ 0 ∨ nctx ≤ (w.extractLsb' 8 4).toNat ∨
      (w.extractLsb' 16 16 ≠ 0 ∧ w.extractLsb' 0 8 ≠ 0x10))) ∧
  (∀ (nctx : Nat) (w : CmdWord) (i : Instr), decodeCommand nctx w = .ok i → i.isCommand = true) ∧
  (∀ (s : State) (v : Data) (e : Illegal), decodeCommand s.nctx (v.setWidth 32) = .error e →
    exec (.regWr 0x07 v) s = .next { s with gerr := s.gerr ||| 1#2 })

/-- R40: a write of `CMD` executes the command whose word is the low 32 bits of the data and stores
nothing; a read of `CMD` returns 0. -/
def Obligations.WritingCmdExecutesTheCommand : Prop :=
  (∀ (s : State) (v : Data) (i : Instr), decodeCommand s.nctx (v.setWidth 32) = .ok i →
    exec (.regWr 0x07 v) s = exec i s) ∧
  (∀ (s : State) (v : Data) (e : Illegal), decodeCommand s.nctx (v.setWidth 32) = .error e →
    exec (.regWr 0x07 v) s = .next { s with gerr := s.gerr ||| 1#2 }) ∧
  ∀ s : State, exec (.regRd 0x07) s = .next { s with reply := .word 0 }

/-- The transaction of an instruction has the instruction's meaning (R13, R95): a command is exactly the `REG_WR`
of its word, also where it names a context that does not exist: its word is then illegal (R93), and that the bare
instruction does the same is the model's reading (log 6). -/
def Obligations.TransactionOfAnInstructionMeansIt : Prop :=
  ∀ (s : State) (i : Instr), ∃ t, transactionOf i = some t ∧ exec t.toInstr s = exec i s

/-! ## The step, reset, and the invariants -/

/-- A step performs the oldest input that waits (R20, R72): a transaction is `exec` of its instruction, and
where it writes a legal command word to `CMD`, `exec` of the command, with the input taken and the last
reply gone; with no input waiting the block is idle and keeps all state (R199). -/
def Obligations.StepExecutesTheNextInput : Prop :=
  (∀ (s : State) (t : Transaction) (rest : List Input), s.pending = .transaction t :: rest →
    step s = exec t.toInstr { s with pending := rest, reply := .nothing }) ∧
  (∀ (s : State) (v : Data) (rest : List Input) (i : Instr),
    s.pending = .transaction (.regWr 0x07 v) :: rest → decodeCommand s.nctx (v.setWidth 32) = .ok i →
    i.wf s.nctx = true ∧ step s = exec i { s with pending := rest, reply := .nothing }) ∧
  (∀ s : State, s.pending = [] → step s = .next s)

/-- R206 by R205: the reset event leaves every register 0 (every index reads 0), no context lost, every
buffer byte unspecified: nothing written, the contents numbered anew. That the inputs to come and the
parameters stay, and the numbering, are the model's choice (log 4, log 5). -/
def Obligations.ResetEventClearsEveryRegister : Prop :=
  ∀ (s : State) (rest : List Input), s.pending = .reset :: rest →
    ∃ t, step s = .next t ∧
      (∀ idx : BitVec 8, exec (.regRd idx) t = .next { t with reply := .word 0 }) ∧
      t.nctx = s.nctx ∧ t.config = s.config ∧ t.pending = rest ∧ t.reply = .nothing ∧
      (∀ c ∈ t.ctxs, c.wbuf.cells = [] ∧ c.pay.cells = [] ∧ c.opt.cells = []) ∧
      (t.ctxs.flatMap Context.fills).Nodup ∧
      ∀ n ∈ t.ctxs.flatMap Context.fills, s.nextFill ≤ n ∧ n < t.nextFill

/-- R49 of `State.reset`: every register of R24 holds 0; the parameters are the defaults of R7, no input
waits (log 1, log 2). -/
def Obligations.ResetStateHoldsZeroInEveryRegister : Prop :=
  (∀ idx : BitVec 8, exec (.regRd idx) State.reset = .next { State.reset with reply := .word 0 }) ∧
  State.reset.nctx = 2 ∧ State.reset.config.wbufMax = 2048 ∧ State.reset.config.optMax = 40 ∧
  State.reset.config.payCap = 2040 ∧ State.reset.pending = []

/-- R196: nothing ever stops the block: a run of any length over any inputs from any state goes through. -/
def Obligations.NoInputSequenceStopsTheBlock : Prop := ∀ (k : Nat) (s : State), RunsFor k s

/-- Every legal command, in every state, writes `STATUS` of its context with a code and layer its rules name
(R43, R196): no state ignores it. -/
def Obligations.EveryLegalCommandWritesItsStatus : Prop :=
  ∀ (s : State) (i : Instr) (x : BitVec 4), commandContext i = some x → i.wf s.nctx = true →
    ∃ c', exec i s = .next (s.putCtx x.toNat c') ∧ c'.status ∈ possibleStatus i

/-- Every step keeps the invariant: the parameters legal, every `STATUS.CODE` one of the four ever written
(R43), every buffer in canonical form and within its capacity (R33 to R35). -/
def Obligations.StepKeepsTheInvariant : Prop :=
  ∀ s s' : State, s.Inv → step s = .next s' → s'.Inv

/-- The invariant holds right after reset. -/
def Obligations.ResetStateMeetsTheInvariant : Prop := State.reset.Inv ∧ State.reset.FreshFills

/-- No two buffers ever share their unspecified contents (the model's choice, log 4), so that nothing ties one
unspecified byte to another (R49). -/
def Obligations.StepKeepsUnspecifiedContentsApart : Prop :=
  ∀ s s' : State, s.FreshFills → step s = .next s' → s'.FreshFills

/-- The parameters of R7 are not state: no step changes them (R48). -/
def Obligations.StepKeepsTheParameters : Prop :=
  ∀ s s' : State, step s = .next s' → s'.config = s.config ∧ s'.nctx = s.nctx

/-! ## Host transactions -/

/-- R176: what `REG_RD` returns, index by index; it changes nothing (the reply is the returned value). -/
def Obligations.RegRdReturnsTheRegister : Prop :=
  (∀ s : State, ∀ p ∈ globalView s, exec (.regRd p.1) s = .next { s with reply := .word p.2 }) ∧
  (∀ (s : State) (x : Nat) (c : Context), x < 3 → s.ctxs[x]? = some c →
    ∀ p ∈ contextView c, exec (.regRd (contextIndex x p.1)) s = .next { s with reply := .word p.2 }) ∧
  (∀ (s : State) (idx : BitVec 8), ReservedIndex s.nctx idx →
    exec (.regRd idx) s = .next { s with reply := .word 0 })

/-- R177: what `REG_WR` of a register that is not `CMD` does, index by index: RW registers take the
truncated value and nothing else changes; `GERR` is write one to clear; `STATUS` and `CSUM_RES` ignore it. -/
def Obligations.RegWrWritesTheRegister : Prop :=
  (∀ (s : State) (v : Data),
    exec (.regWr 0x00 v) s = .next { s with cfg := v.setWidth 2 } ∧
    exec (.regWr 0x01 v) s = .next { s with ident := v.setWidth 16 } ∧
    exec (.regWr 0x02 v) s = .next { s with macLocal := v.setWidth 48 } ∧
    exec (.regWr 0x03 v) s = .next { s with macPeer := v.setWidth 48 } ∧
    exec (.regWr 0x04 v) s = .next { s with timeSec := v } ∧
    exec (.regWr 0x05 v) s = .next { s with timeSub := v.setWidth 32 } ∧
    exec (.regWr 0x06 v) s = .next { s with gerr := s.gerr &&& ~~~(v.setWidth 2) }) ∧
  (∀ (s : State) (x : Nat) (c : Context) (v : Data), x < 3 → s.ctxs[x]? = some c →
    (∀ p ∈ contextWrites c v, exec (.regWr (contextIndex x p.1) v) s = .next (s.putCtx x p.2)) ∧
    exec (.regWr (contextIndex x 0x00) v) s = .next s ∧ exec (.regWr (contextIndex x 0x01) v) s = .next s)

/-- R45: a reserved index reads as 0 and ignores writes; neither access changes any state. -/
def Obligations.ReservedIndexReadsZeroIgnoresWrites : Prop :=
  ∀ (s : State) (idx : BitVec 8), ReservedIndex s.nctx idx →
    exec (.regRd idx) s = .next { s with reply := .word 0 } ∧ ∀ v, exec (.regWr idx v) s = .next s

/-- R25: a RW register of width W keeps every value of its width: after a write of v it reads
v mod 2^W. -/
def Obligations.RegisterReadsBackTruncatedValue : Prop :=
  (∀ (s : State) (v : Data), ∀ p ∈ globalWidths, ∃ t, exec (.regWr p.1 v) s = .next t ∧
    exec (.regRd p.1) t = .next { t with reply := .word (BitVec.ofNat 64 (v.toNat % 2 ^ p.2)) }) ∧
  (∀ (s : State) (x : Nat) (v : Data), x < 3 → x < s.nctx → ∀ p ∈ contextWidths,
    ∃ t, exec (.regWr (contextIndex x p.1) v) s = .next t ∧
      exec (.regRd (contextIndex x p.1)) t = .next { t with reply := .word (BitVec.ofNat 64 (v.toNat % 2 ^ p.2)) })

/-- R41: `GERR` bits are set by an illegal command word (bit 0) and by an out-of-range buffer transaction
(bit 1), stay set until a 1 is written to them, are read without side effect, and steer no command. -/
def Obligations.GerrIsStickyAndSteersNothing : Prop :=
  (∀ (s : State) (v : Data) (e : Illegal), decodeCommand s.nctx (v.setWidth 32) = .error e →
    exec (.regWr 0x07 v) s = .next { s with gerr := s.gerr ||| 1#2 }) ∧
  (∀ (s : State) (x : BitVec 4) (sel : BitVec 2) (off : BitVec 16) (d : Byte), ¬ InRange s x sel off →
    exec (.bufRd x sel off) s = .next { s with gerr := s.gerr ||| 2#2, reply := .byte 0 } ∧
    exec (.bufWr x sel off d) s = .next { s with gerr := s.gerr ||| 2#2 }) ∧
  (∀ (s : State) (v : Data), exec (.regWr 0x06 v) s = .next { s with gerr := s.gerr &&& ~~~(v.setWidth 2) }) ∧
  (∀ s : State, exec (.regRd 0x06) s = .next { s with reply := .word (s.gerr.setWidth 64) }) ∧
  (∀ (s t : State) (i : Instr), (∀ v, i ≠ .regWr 0x06 v) → exec i s = .next t → s.gerr &&& t.gerr = s.gerr) ∧
  (∀ (s t : State) (i : Instr) (g : BitVec 2), i.isCommand = true → i.wf s.nctx = true → exec i s = .next t →
    t.gerr = s.gerr ∧ exec i { s with gerr := g } = .next { t with gerr := g })

/-- R178: `BUF_RD` returns the byte at the offset when context, buffer and offset exist, whatever the length
registers say, with no side effect; otherwise it returns 0 and sets `GERR.BUS`. -/
def Obligations.BufRdReturnsTheByte : Prop :=
  (∀ (s : State) (x : BitVec 4) (sel : BitVec 2) (off : BitVec 16) (c : Context), s.ctxs[x.toNat]? = some c →
    (sel = 0 → off.toNat < s.config.wbufMax →
      exec (.bufRd x sel off) s = .next { s with reply := .byte (c.wbuf.read off.toNat) }) ∧
    (sel = 1 → off.toNat < s.config.wbufMax - 8 →
      exec (.bufRd x sel off) s = .next { s with reply := .byte (c.pay.read off.toNat) }) ∧
    (sel = 2 → off.toNat < s.config.optMax →
      exec (.bufRd x sel off) s = .next { s with reply := .byte (c.opt.read off.toNat) })) ∧
  (∀ (s : State) (x : BitVec 4) (sel : BitVec 2) (off : BitVec 16), ¬ InRange s x sel off →
    exec (.bufRd x sel off) s = .next { s with gerr := s.gerr ||| 2#2, reply := .byte 0 })

/-- R179: `BUF_WR` in range changes that one byte and nothing else; otherwise it writes nothing and sets
`GERR.BUS`. -/
def Obligations.BufWrWritesOneByte : Prop :=
  (∀ (s : State) (x : BitVec 4) (sel : BitVec 2) (off : BitVec 16) (d : Byte) (c : Context),
    s.ctxs[x.toNat]? = some c → InRange s x sel off →
    ∃ c', exec (.bufWr x sel off d) s = .next (s.putCtx x.toNat c') ∧
      c' = { c with wbuf := c'.wbuf, pay := c'.pay, opt := c'.opt } ∧
      (∀ j, c'.wbuf.read j = if sel = 0 ∧ j = off.toNat then d else c.wbuf.read j) ∧
      (∀ j, c'.pay.read j = if sel = 1 ∧ j = off.toNat then d else c.pay.read j) ∧
      (∀ j, c'.opt.read j = if sel = 2 ∧ j = off.toNat then d else c.opt.read j)) ∧
  (∀ (s : State) (x : BitVec 4) (sel : BitVec 2) (off : BitVec 16) (d : Byte), ¬ InRange s x sel off →
    exec (.bufWr x sel off d) s = .next { s with gerr := s.gerr ||| 2#2 })

/-- R60, R69: a byte written is the byte read until it is written again: in range, `BUF_WR` then `BUF_RD` of any
place in range returns the written byte at the place written and elsewhere what `BUF_RD` returned before. -/
def Obligations.BufRdAfterBufWr : Prop :=
  ∀ (s : State) (x y : BitVec 4) (sel sel' : BitVec 2) (off off' : BitVec 16) (d b : Byte),
    InRange s x sel off → InRange s y sel' off' →
    exec (.bufRd y sel' off') s = .next { s with reply := .byte b } →
    ∃ t, exec (.bufWr x sel off d) s = .next t ∧
      exec (.bufRd y sel' off') t = .next { t with
        reply := .byte (if x = y ∧ sel = sel' ∧ off = off' then d else b) }

/-! ## The checksum unit -/

/-- R171: `CSUM`: its word; it computes the checksum of `WBUF[0 .. WLEN)`, or fails with `RANGE`; nothing else
changes; an empty `WBUF` gives 0xFFFF; the worked example. -/
def Obligations.CsumComputesTheChecksum : Prop :=
  (∀ (s : State) (x : BitVec 4) (c : Context), s.ctxs[x.toNat]? = some c →
    encodeCommand (.csum x) = some (0x00000000 ||| (x.setWidth 32 <<< 8)) ∧
    (c.wlen.toNat ≤ s.config.wbufMax → exec (.csum x) s = .next (s.putCtx x.toNat { c with
      csumRes := inetCsum ((List.range c.wlen.toNat).map c.wbuf.read), status := 0x00 })) ∧
    (s.config.wbufMax < c.wlen.toNat → exec (.csum x) s = .next (s.putCtx x.toNat { c with status := 0x03 }))) ∧
  inetCsum [] = 0xFFFF ∧ inetCsum [0x00, 0x01, 0xF2, 0x03, 0xF4, 0xF5, 0xF6, 0xF7] = 0x220D

/-- R166: word k is the pair of bytes 2k and 2k+1, a missing last byte counting as 0; one zero byte after an
odd-length sequence, or an even number of zero bytes after any sequence, does not change the result. -/
def Obligations.ChecksumPairsBytesFromTheStart : Prop :=
  (∀ b : List Byte, wordSum b =
    ((List.range ((b.length + 1) / 2)).map fun k => (b.getD (2 * k) 0).toNat * 256 + (b.getD (2 * k + 1) 0).toNat).sum) ∧
  (∀ b : List Byte, b.length % 2 = 1 → inetCsum (b ++ [0]) = inetCsum b) ∧
  (∀ (b : List Byte) (n : Nat), inetCsum (b ++ List.replicate (2 * n) 0) = inetCsum b)

/-- R169: for an input of at most 131074 bytes the 32-bit accumulator of R165, folded the two times R167 says
are enough, gives the same result as the model's sum in naturals. -/
def Obligations.ThirtyTwoBitAccumulatorAgrees : Prop :=
  ∀ b : List Byte, b.length ≤ 131074 →
    wordSum b < 2 ^ 32 ∧ (sum32 0 b).toNat = wordSum b ∧ inetCsum b = ~~~((fold32 (sum32 0 b)).setWidth 16)

/-- R172: the closed form of the checksum, when it is 0xFFFF and when 0x0000, and its invariance under
permutation of the words and insertion of a zero word. -/
def Obligations.ChecksumClosedForm : Prop :=
  (∀ b : List Byte, inetCsum b =
    BitVec.ofNat 16 (0xFFFF - if wordSum b = 0 then 0 else (wordSum b - 1) % 65535 + 1)) ∧
  (∀ b : List Byte, inetCsum b = 0xFFFF ↔ ∀ v ∈ b, v = 0) ∧
  (∀ b : List Byte, inetCsum b = 0x0000 ↔ 0 < wordSum b ∧ wordSum b % 65535 = 0) ∧
  (∀ ws ws' : List (Byte × Byte), ws.Perm ws' →
    inetCsum (ws.flatMap fun w => [w.1, w.2]) = inetCsum (ws'.flatMap fun w => [w.1, w.2])) ∧
  (∀ a b : List Byte, a.length % 2 = 0 → inetCsum (a ++ [0, 0] ++ b) = inetCsum (a ++ b))

/-- R170: the verification identity: with the checksum of the region put into its (even-offset, zeroed) field,
the checksum of the region is 0x0000. -/
def Obligations.VerificationIdentity : Prop :=
  ∀ (pre post : List Byte) (ck : BitVec 16), pre.length % 2 = 0 → ck = inetCsum (pre ++ [0, 0] ++ post) →
    inetCsum (pre ++ [ck.extractLsb' 8 8, ck.extractLsb' 0 8] ++ post) = 0x0000

/-! ## The ICMP echo codec -/

/-- R112: `ICMP_MKREQ`: what it sets, that it cannot fail, what it leaves alone; the worked example. -/
def Obligations.IcmpMkreqBuildsTheRequest : Prop :=
  (∀ (s : State) (x : BitVec 4) (seq : BitVec 16) (c : Context), s.ctxs[x.toNat]? = some c →
    encodeCommand (.icmpMkreq x seq) = some (0x00000010 ||| (x.setWidth 32 <<< 8) ||| (seq.setWidth 32 <<< 16)) ∧
    ∃ c', exec (.icmpMkreq x seq) s = .next (s.putCtx x.toNat c') ∧
      c' = { c with icType := 8, icCode := 0, icCsum := 0, icId := s.ident, icSeq := seq, icPlen := 12,
                    status := 0x10, pay := c'.pay } ∧
      ∀ i, c'.pay.read i =
        if i < 8 then s.timeSec.extractLsb' (56 - 8 * i) 8
        else if i < 12 then s.timeSub.extractLsb' (24 - 8 * (i - 8)) 8
        else c.pay.read i) ∧
  (∀ (s : State) (c : Context), s.ctxs[0]? = some c → s.ident = 0x1234 → s.timeSec = 0x0000000065000000 →
    s.timeSub = 0x075BCD15 →
    ∃ c', exec (.regWr 0x07 0x00070010) s = .next (s.putCtx 0 c') ∧ c'.icType = 8 ∧ c'.icCode = 0 ∧
      c'.icCsum = 0 ∧ c'.icId = 0x1234 ∧ c'.icSeq = 7 ∧ c'.icPlen = 12 ∧
      (List.range 12).map c'.pay.read = [0x00, 0x00, 0x00, 0x00, 0x65, 0x00, 0x00, 0x00, 0x07, 0x5B, 0xCD, 0x15])

/-- R115 by R82: `ICMP_ENC` lays the message down byte by byte with its checksum and keeps every other byte of
`WBUF`; of the record it writes `IC_CSUM` alone. -/
def Obligations.IcmpEncSerialisesTheMessage : Prop :=
  ∀ (s : State) (x : BitVec 4) (c : Context), s.config.Valid → s.ctxs[x.toNat]? = some c →
    c.icPlen.toNat ≤ s.config.payCap →
    ∃ c', exec (.icmpEnc x) s = .next (s.putCtx x.toNat c') ∧
      c' = { c with icCsum := icmpChecksum c, wlen := c'.wlen, wbuf := c'.wbuf, status := 0x10 } ∧
      c'.wlen.toNat = icmpLen c ∧ icmpLen c ≤ s.config.wbufMax ∧
      ∀ i, c'.wbuf.read i = if i < icmpLen c then icmpWireByte c (icmpChecksum c) i else c.wbuf.read i

/-- R116, R117 by R82: `ICMP_DEC` of a long enough buffer whose checksum, in strict mode, is right: every field
from its offset, the rest of the bytes the payload; no other register and no other buffer changes. -/
def Obligations.IcmpDecParsesTheMessage : Prop :=
  ∀ (s : State) (x : BitVec 4) (c : Context), s.ctxs[x.toNat]? = some c → c.wlen.toNat ≤ s.config.wbufMax →
    8 ≤ c.wlen.toNat → (s.cfg.getLsbD 0 = true → IcmpWireOk c.wbuf.read 0 c.wlen.toNat) →
    ∃ c', exec (.icmpDec x) s = .next (s.putCtx x.toNat c') ∧ IcmpParsed c.wbuf.read 0 c.wlen.toNat c c' ∧
      c' = { c with icType := c'.icType, icCode := c'.icCode, icCsum := c'.icCsum, icId := c'.icId,
                    icSeq := c'.icSeq, icPlen := c'.icPlen, pay := c'.pay, status := 0x10 }

/-- R118: `ICMP_VFY` recomputes the record's checksum into `CSUM_RES` and compares it with `IC_CSUM`. -/
def Obligations.IcmpVfyComparesTheChecksum : Prop :=
  ∀ (s : State) (x : BitVec 4) (c : Context), s.ctxs[x.toNat]? = some c → c.icPlen.toNat ≤ s.config.payCap →
    exec (.icmpVfy x) s = .next (s.putCtx x.toNat { c with
      csumRes := icmpChecksum c, status := if icmpChecksum c = c.icCsum then 0x10 else 0x12 })

/-- R122: the conditions of the ICMP family: which command reports which, when, that a raised one changes `STATUS`
alone (R186), and that each command reports `OK` where none of its conditions holds. -/
def Obligations.IcmpFamilyConditions : Prop :=
  ∀ (s : State) (x : BitVec 4) (c : Context), s.ctxs[x.toNat]? = some c →
    (s.config.payCap < c.icPlen.toNat →
      exec (.icmpEnc x) s = .next (s.putCtx x.toNat { c with status := 0x13 }) ∧
      exec (.icmpVfy x) s = .next (s.putCtx x.toNat { c with status := 0x13 })) ∧
    (s.config.wbufMax < c.wlen.toNat →
      exec (.icmpDec x) s = .next (s.putCtx x.toNat { c with status := 0x13 })) ∧
    (c.wlen.toNat ≤ s.config.wbufMax → c.wlen.toNat < 8 →
      exec (.icmpDec x) s = .next (s.putCtx x.toNat { c with status := 0x11 })) ∧
    (c.wlen.toNat ≤ s.config.wbufMax → 8 ≤ c.wlen.toNat → s.cfg.getLsbD 0 = true →
      ¬ IcmpWireOk c.wbuf.read 0 c.wlen.toNat →
      exec (.icmpDec x) s = .next (s.putCtx x.toNat { c with status := 0x12 })) ∧
    (c.icPlen.toNat ≤ s.config.payCap → icmpChecksum c ≠ c.icCsum →
      exec (.icmpVfy x) s = .next (s.putCtx x.toNat { c with csumRes := icmpChecksum c, status := 0x12 })) ∧
    (∀ seq, ∃ c', exec (.icmpMkreq x seq) s = .next (s.putCtx x.toNat c') ∧ c'.status = 0x10) ∧
    (c.icPlen.toNat ≤ s.config.payCap →
      ∃ c', exec (.icmpEnc x) s = .next (s.putCtx x.toNat c') ∧ c'.status = 0x10) ∧
    (c.wlen.toNat ≤ s.config.wbufMax → 8 ≤ c.wlen.toNat →
      (s.cfg.getLsbD 0 = false ∨ IcmpWireOk c.wbuf.read 0 c.wlen.toNat) →
      ∃ c', exec (.icmpDec x) s = .next (s.putCtx x.toNat c') ∧ c'.status = 0x10) ∧
    (c.icPlen.toNat ≤ s.config.payCap → icmpChecksum c = c.icCsum →
      ∃ c', exec (.icmpVfy x) s = .next (s.putCtx x.toNat c') ∧ c'.status = 0x10)

/-- R119: the ICMP round trip: encode then decode gives the message back with its checksum computed, in either
mode; and decode then encode of a correctly checksummed message gives the bytes back. -/
def Obligations.IcmpRoundTrip : Prop :=
  (∀ (s : State) (x : BitVec 4) (c : Context), s.config.Valid → s.ctxs[x.toNat]? = some c →
    c.icPlen.toNat ≤ s.config.payCap →
    ∃ s1 c1 s2 c2, exec (.icmpEnc x) s = .next s1 ∧ s1.ctxs[x.toNat]? = some c1 ∧ c1.status = 0x10 ∧
      exec (.icmpDec x) s1 = .next s2 ∧ s2.ctxs[x.toNat]? = some c2 ∧ c2.status = 0x10 ∧
      c2.icType = c.icType ∧ c2.icCode = c.icCode ∧ c2.icId = c.icId ∧ c2.icSeq = c.icSeq ∧
      c2.icPlen = c.icPlen ∧ (∀ i < c.icPlen.toNat, c2.pay.read i = c.pay.read i) ∧
      c2.icCsum = icmpChecksum c) ∧
  (∀ (s : State) (x : BitVec 4) (c : Context), s.config.Valid → s.ctxs[x.toNat]? = some c →
    8 ≤ c.wlen.toNat → c.wlen.toNat ≤ s.config.wbufMax → IcmpWireOk c.wbuf.read 0 c.wlen.toNat →
    ∃ s1 s2 c2, exec (.icmpDec x) s = .next s1 ∧ exec (.icmpEnc x) s1 = .next s2 ∧
      s2.ctxs[x.toNat]? = some c2 ∧ c2.wlen = c.wlen ∧ ∀ i < c.wlen.toNat, c2.wbuf.read i = c.wbuf.read i)

/-- R120: after a successful `ICMP_ENC`, `CSUM` gives 0x0000; and a second `ICMP_ENC` changes nothing. -/
def Obligations.IcmpEncChecksumIdentity : Prop :=
  ∀ (s : State) (x : BitVec 4) (c : Context), s.config.Valid → s.ctxs[x.toNat]? = some c →
    c.icPlen.toNat ≤ s.config.payCap →
    ∃ s1 c1 s2 c2, exec (.icmpEnc x) s = .next s1 ∧ s1.ctxs[x.toNat]? = some c1 ∧
      inetCsum ((List.range c1.wlen.toNat).map c1.wbuf.read) = 0x0000 ∧
      exec (.csum x) s1 = .next s2 ∧ s2.ctxs[x.toNat]? = some c2 ∧ c2.csumRes = 0x0000 ∧
      exec (.icmpEnc x) s1 = .next s1

/-- R121: `ICMP_VFY` and the identity test agree on every record but one kind: computed checksum 0x0000, stored
0xFFFF, which passes the identity and fails `ICMP_VFY`. -/
def Obligations.VerifyIsNotTheIdentityTest : Prop :=
  ∀ (s : State) (x : BitVec 4) (c : Context), s.ctxs[x.toNat]? = some c → c.icPlen.toNat ≤ s.config.payCap →
    ∃ c', exec (.icmpVfy x) s = .next (s.putCtx x.toNat c') ∧
      (c'.status = 0x10 ↔ icmpChecksum c = c.icCsum) ∧ (c'.status = 0x12 ↔ icmpChecksum c ≠ c.icCsum) ∧
      (inetCsum ((List.range (icmpLen c)).map (icmpWireByte c c.icCsum)) = 0x0000 ↔
        c'.status = 0x10 ∨ (icmpChecksum c = 0x0000 ∧ c.icCsum = 0xFFFF))

/-! ## The IPv4 header codec -/

/-- R132 to R136: `IP_MK`: pads the options with zeros to a multiple of 4, sets the header-length byte, the total
length and the header checksum, and nothing else. -/
def Obligations.IpMkCompletesTheHeader : Prop :=
  ∀ (s : State) (x : BitVec 4) (c : Context), s.config.Valid → s.ctxs[x.toNat]? = some c →
    c.ipOptlen.toNat ≤ s.config.optMax → c.icPlen.toNat ≤ s.config.payCap →
    ∃ c', exec (.ipMk x) s = .next (s.putCtx x.toNat c') ∧
      c' = { c with opt := c'.opt, ipOptlen := c'.ipOptlen, ipVihl := c'.ipVihl, ipTlen := c'.ipTlen,
                    ipCsum := c'.ipCsum, status := 0x20 } ∧
      c'.ipOptlen.toNat = 4 * ((c.ipOptlen.toNat + 3) / 4) ∧ c'.ipOptlen.toNat ≤ s.config.optMax ∧
      (∀ i, c'.opt.read i =
        if c.ipOptlen.toNat ≤ i ∧ i < 4 * ((c.ipOptlen.toNat + 3) / 4) then 0 else c.opt.read i) ∧
      c'.ipVihl.toNat = 0x40 + (5 + min ((c.ipOptlen.toNat + 3) / 4) 4) ∧
      c'.ipTlen.toNat = 20 + c'.ipOptlen.toNat + 8 + c.icPlen.toNat ∧ c'.ipCsum = ipChecksum c'

/-- R133: the header-length byte for every option length: 0x45 to 0x49, saturated at 0x49 from 13 bytes on while
the options are still counted in full and the command reports `OK`. -/
def Obligations.HeaderLengthNibbleSaturates : Prop :=
  ∀ (s : State) (x : BitVec 4) (c : Context), s.config.Valid → s.ctxs[x.toNat]? = some c →
    c.ipOptlen.toNat ≤ s.config.optMax → c.icPlen.toNat ≤ s.config.payCap →
    ∃ c', exec (.ipMk x) s = .next (s.putCtx x.toNat c') ∧ c'.status = 0x20 ∧
      (c.ipOptlen.toNat = 0 → c'.ipVihl = 0x45 ∧ c'.ipOptlen = 0) ∧
      (1 ≤ c.ipOptlen.toNat → c.ipOptlen.toNat ≤ 4 → c'.ipVihl = 0x46 ∧ c'.ipOptlen = 4) ∧
      (5 ≤ c.ipOptlen.toNat → c.ipOptlen.toNat ≤ 8 → c'.ipVihl = 0x47 ∧ c'.ipOptlen = 8) ∧
      (9 ≤ c.ipOptlen.toNat → c.ipOptlen.toNat ≤ 12 → c'.ipVihl = 0x48 ∧ c'.ipOptlen = 12) ∧
      (13 ≤ c.ipOptlen.toNat → c.ipOptlen.toNat ≤ 16 → c'.ipVihl = 0x49 ∧ c'.ipOptlen = 16) ∧
      (∀ k, 5 ≤ k → 4 * k - 3 ≤ c.ipOptlen.toNat → c.ipOptlen.toNat ≤ 4 * k →
        c'.ipVihl = 0x49 ∧ c'.ipOptlen.toNat = 4 * k ∧ c'.ipTlen.toNat = 20 + 4 * k + 8 + c.icPlen.toNat)

/-- R137, R138 by R84: `IP_ENC` lays header (as stored), options and the encoded message down byte by byte; of the
records it writes `IC_CSUM` alone. -/
def Obligations.IpEncSerialisesTheDatagram : Prop :=
  ∀ (s : State) (x : BitVec 4) (c : Context), s.config.Valid → s.ctxs[x.toNat]? = some c →
    c.ipOptlen.toNat ≤ s.config.optMax → c.icPlen.toNat ≤ s.config.payCap → ipLen c ≤ s.config.wbufMax →
    ∃ c', exec (.ipEnc x) s = .next (s.putCtx x.toNat c') ∧
      c' = { c with icCsum := icmpChecksum c, wlen := c'.wlen, wbuf := c'.wbuf, status := 0x20 } ∧
      c'.wlen.toNat = ipLen c ∧
      ∀ i, c'.wbuf.read i =
        if i < ipLen c then datagramWireByte c c.ipCsum (icmpChecksum c) i else c.wbuf.read i

/-- R139 to R141 by R84: `IP_DEC` of a long enough buffer whose two checksums, in strict mode, are right: header from
its fixed offsets, no options, the rest the ICMP message; nothing else changes. -/
def Obligations.IpDecParsesTheDatagram : Prop :=
  ∀ (s : State) (x : BitVec 4) (c : Context), s.ctxs[x.toNat]? = some c → c.wlen.toNat ≤ s.config.wbufMax →
    28 ≤ c.wlen.toNat →
    (s.cfg.getLsbD 0 = true → IpWireOk c.wbuf.read 0 ∧ IcmpWireOk c.wbuf.read 20 c.wlen.toNat) →
    ∃ c', exec (.ipDec x) s = .next (s.putCtx x.toNat c') ∧ IpParsed c.wbuf.read 0 c' ∧
      IcmpParsed c.wbuf.read 20 c.wlen.toNat c c' ∧ c'.status = 0x20 ∧ c'.csumRes = c.csumRes ∧
      c'.wlen = c.wlen ∧ c'.wbuf = c.wbuf ∧ c'.opt = c.opt ∧ c'.ethDst = c.ethDst ∧ c'.ethSrc = c.ethSrc ∧
      c'.ethType = c.ethType

/-- R142: `IP_VFY` recomputes the header checksum of the record into `CSUM_RES` and compares it with
`IP_CSUM`. -/
def Obligations.IpVfyComparesTheChecksum : Prop :=
  ∀ (s : State) (x : BitVec 4) (c : Context), s.ctxs[x.toNat]? = some c → c.ipOptlen.toNat ≤ s.config.optMax →
    exec (.ipVfy x) s = .next (s.putCtx x.toNat { c with
      csumRes := ipChecksum c, status := if ipChecksum c = c.ipCsum then 0x20 else 0x22 })

/-- R145: the conditions of the IPv4 family, in their order (R193), a raised one changing `STATUS` alone; each command
reports `OK` where none of its conditions holds. -/
def Obligations.IpFamilyConditions : Prop :=
  ∀ (s : State) (x : BitVec 4) (c : Context), s.ctxs[x.toNat]? = some c →
    (s.config.optMax < c.ipOptlen.toNat →
      exec (.ipMk x) s = .next (s.putCtx x.toNat { c with status := 0x23 }) ∧
      exec (.ipEnc x) s = .next (s.putCtx x.toNat { c with status := 0x23 }) ∧
      exec (.ipVfy x) s = .next (s.putCtx x.toNat { c with status := 0x23 })) ∧
    (c.ipOptlen.toNat ≤ s.config.optMax → s.config.payCap < c.icPlen.toNat →
      exec (.ipMk x) s = .next (s.putCtx x.toNat { c with status := 0x13 }) ∧
      exec (.ipEnc x) s = .next (s.putCtx x.toNat { c with status := 0x13 })) ∧
    (c.ipOptlen.toNat ≤ s.config.optMax → c.icPlen.toNat ≤ s.config.payCap →
      s.config.wbufMax < 28 + c.ipOptlen.toNat + c.icPlen.toNat →
      exec (.ipEnc x) s = .next (s.putCtx x.toNat { c with status := 0x23 })) ∧
    (s.config.wbufMax < c.wlen.toNat →
      exec (.ipDec x) s = .next (s.putCtx x.toNat { c with status := 0x23 })) ∧
    (c.wlen.toNat ≤ s.config.wbufMax → c.wlen.toNat < 20 →
      exec (.ipDec x) s = .next (s.putCtx x.toNat { c with status := 0x21 })) ∧
    (c.wlen.toNat ≤ s.config.wbufMax → 20 ≤ c.wlen.toNat → c.wlen.toNat < 28 →
      exec (.ipDec x) s = .next (s.putCtx x.toNat { c with status := 0x11 })) ∧
    (c.wlen.toNat ≤ s.config.wbufMax → 28 ≤ c.wlen.toNat → s.cfg.getLsbD 0 = true → ¬ IpWireOk c.wbuf.read 0 →
      exec (.ipDec x) s = .next (s.putCtx x.toNat { c with status := 0x22 })) ∧
    (c.wlen.toNat ≤ s.config.wbufMax → 28 ≤ c.wlen.toNat → s.cfg.getLsbD 0 = true → IpWireOk c.wbuf.read 0 →
      ¬ IcmpWireOk c.wbuf.read 20 c.wlen.toNat →
      exec (.ipDec x) s = .next (s.putCtx x.toNat { c with status := 0x12 })) ∧
    (c.ipOptlen.toNat ≤ s.config.optMax → ipChecksum c ≠ c.ipCsum →
      exec (.ipVfy x) s = .next (s.putCtx x.toNat { c with csumRes := ipChecksum c, status := 0x22 })) ∧
    (c.ipOptlen.toNat ≤ s.config.optMax → c.icPlen.toNat ≤ s.config.payCap →
      ∃ c', exec (.ipMk x) s = .next (s.putCtx x.toNat c') ∧ c'.status = 0x20) ∧
    (c.ipOptlen.toNat ≤ s.config.optMax → c.icPlen.toNat ≤ s.config.payCap →
      28 + c.ipOptlen.toNat + c.icPlen.toNat ≤ s.config.wbufMax →
      ∃ c', exec (.ipEnc x) s = .next (s.putCtx x.toNat c') ∧ c'.status = 0x20) ∧
    (c.wlen.toNat ≤ s.config.wbufMax → 28 ≤ c.wlen.toNat →
      (s.cfg.getLsbD 0 = false ∨ (IpWireOk c.wbuf.read 0 ∧ IcmpWireOk c.wbuf.read 20 c.wlen.toNat)) →
      ∃ c', exec (.ipDec x) s = .next (s.putCtx x.toNat c') ∧ c'.status = 0x20) ∧
    (c.ipOptlen.toNat ≤ s.config.optMax → ipChecksum c = c.ipCsum →
      ∃ c', exec (.ipVfy x) s = .next (s.putCtx x.toNat c') ∧ c'.status = 0x20)

/-- R143: the IPv4 round trip: without options encode then decode gives both records back, the ICMP checksum computed;
in strict mode provided the stored header checksum is right, else (CSUM_MISMATCH, L_IP); with option bytes the record
does not come back (lenient): options and message are read as the message. -/
def Obligations.IpRoundTripWithoutOptions : Prop :=
  (∀ (s : State) (x : BitVec 4) (c : Context), s.config.Valid → s.ctxs[x.toNat]? = some c → c.ipOptlen = 0 →
    c.icPlen.toNat ≤ s.config.wbufMax - 28 →
    ∃ s1 c1 s2 c2, exec (.ipEnc x) s = .next s1 ∧ s1.ctxs[x.toNat]? = some c1 ∧ c1.status = 0x20 ∧
      exec (.ipDec x) s1 = .next s2 ∧ s2.ctxs[x.toNat]? = some c2 ∧
      ((s.cfg.getLsbD 0 = false ∨ ipChecksum c = c.ipCsum) →
        c2 = { c with icCsum := icmpChecksum c, wlen := c2.wlen, wbuf := c2.wbuf, pay := c2.pay, status := 0x20 } ∧
        ∀ i < c.icPlen.toNat, c2.pay.read i = c.pay.read i) ∧
      (s.cfg.getLsbD 0 = true → ipChecksum c ≠ c.ipCsum → c2.status = 0x22)) ∧
  (∀ (s : State) (x : BitVec 4) (c : Context), s.config.Valid → s.ctxs[x.toNat]? = some c →
    s.cfg.getLsbD 0 = false → 0 < c.ipOptlen.toNat → c.ipOptlen.toNat ≤ s.config.optMax →
    ipLen c ≤ s.config.wbufMax →
    ∃ s1 s2 c2, exec (.ipEnc x) s = .next s1 ∧ exec (.ipDec x) s1 = .next s2 ∧ s2.ctxs[x.toNat]? = some c2 ∧
      c2.status = 0x20 ∧ c2.ipOptlen = 0 ∧ c2.icPlen.toNat = c.ipOptlen.toNat + c.icPlen.toNat ∧
      IcmpParsed (datagramWireByte c c.ipCsum (icmpChecksum c)) 20 (ipLen c) c c2)

/-- R144: after a successful `IP_MK` the checksum of the header, its checksum field included, is 0x0000; `IP_MK` twice
gives the same state as once, and so does `IP_ENC`. -/
def Obligations.IpMkChecksumIdentity : Prop :=
  (∀ (s : State) (x : BitVec 4) (c : Context), s.config.Valid → s.ctxs[x.toNat]? = some c →
    c.ipOptlen.toNat ≤ s.config.optMax → c.icPlen.toNat ≤ s.config.payCap →
    ∃ s1 c1, exec (.ipMk x) s = .next s1 ∧ s1.ctxs[x.toNat]? = some c1 ∧
      inetCsum ((List.range (20 + c1.ipOptlen.toNat)).map (ipWireByte c1 c1.ipCsum)) = 0x0000 ∧
      exec (.ipMk x) s1 = .next s1) ∧
  (∀ (s : State) (x : BitVec 4) (c : Context), s.config.Valid → s.ctxs[x.toNat]? = some c →
    c.ipOptlen.toNat ≤ s.config.optMax → c.icPlen.toNat ≤ s.config.payCap → ipLen c ≤ s.config.wbufMax →
    ∃ s1, exec (.ipEnc x) s = .next s1 ∧ exec (.ipEnc x) s1 = .next s1)

/-! ## The Ethernet frame codec -/

/-- R152, R153: `ETH_MK` sets the three link-layer registers from the global registers and nothing else; it cannot
fail; the worked examples. -/
def Obligations.EthMkFillsTheLinkLayerFields : Prop :=
  (∀ (s : State) (x : BitVec 4) (c : Context), s.ctxs[x.toNat]? = some c →
    encodeCommand (.ethMk x) = some (0x00000030 ||| (x.setWidth 32 <<< 8)) ∧
    exec (.ethMk x) s = .next (s.putCtx x.toNat { c with
      ethDst := if s.cfg.getLsbD 1 = true then s.macPeer else 0xFFFFFFFFFFFF
      ethSrc := s.macLocal
      ethType := 0x0800
      status := 0x30 })) ∧
  (∀ (s : State) (x : BitVec 4) (c : Context), s.ctxs[x.toNat]? = some c → s.macLocal = 0x020000000001 →
    (s.cfg = 0 → exec (.ethMk x) s = .next (s.putCtx x.toNat { c with
      ethDst := 0xFFFFFFFFFFFF, ethSrc := 0x020000000001, ethType := 0x0800, status := 0x30 })) ∧
    (s.cfg = 2 → s.macPeer = 0x0200000000FE → exec (.ethMk x) s = .next (s.putCtx x.toNat { c with
      ethDst := 0x0200000000FE, ethSrc := 0x020000000001, ethType := 0x0800, status := 0x30 })))

/-- R154 by R81, R84, R82: `ETH_ENC` lays the whole frame down byte by byte; of the records it writes `IC_CSUM`
alone. That the ether type's high byte is sent first, at offset 12, is supplied from general knowledge (R63, GK2,
D27; PRESUMED, log 8). -/
def Obligations.EthEncSerialisesTheFrame : Prop :=
  ∀ (s : State) (x : BitVec 4) (c : Context), s.config.Valid → s.ctxs[x.toNat]? = some c →
    c.ipOptlen.toNat ≤ s.config.optMax → c.icPlen.toNat ≤ s.config.payCap → ethLen c ≤ s.config.wbufMax →
    ∃ c', exec (.ethEnc x) s = .next (s.putCtx x.toNat c') ∧
      c' = { c with icCsum := icmpChecksum c, wlen := c'.wlen, wbuf := c'.wbuf, status := 0x30 } ∧
      c'.wlen.toNat = ethLen c ∧
      ∀ i, c'.wbuf.read i = if i < ethLen c then frameWireByte c c.ipCsum (icmpChecksum c) i else c.wbuf.read i

/-- R156, R157 by R81, R84, R82: `ETH_DEC` of a long enough buffer whose two checksums, in strict mode, are right: all
three records from their offsets; nothing else changes. That byte 12 is the ether type's high byte is supplied from
general knowledge (R63, GK2, D27; PRESUMED, log 8). -/
def Obligations.EthDecParsesTheFrame : Prop :=
  ∀ (s : State) (x : BitVec 4) (c : Context), s.ctxs[x.toNat]? = some c → c.wlen.toNat ≤ s.config.wbufMax →
    42 ≤ c.wlen.toNat →
    (s.cfg.getLsbD 0 = true → IpWireOk c.wbuf.read 14 ∧ IcmpWireOk c.wbuf.read 34 c.wlen.toNat) →
    ∃ c', exec (.ethDec x) s = .next (s.putCtx x.toNat c') ∧ EthParsed c.wbuf.read c' ∧
      IpParsed c.wbuf.read 14 c' ∧ IcmpParsed c.wbuf.read 34 c.wlen.toNat c c' ∧ c'.status = 0x30 ∧
      c'.csumRes = c.csumRes ∧ c'.wlen = c.wlen ∧ c'.wbuf = c.wbuf ∧ c'.opt = c.opt

/-- R160: the conditions of the Ethernet family, in their order (R193), each changing `STATUS` alone; `ETH_MK` has
none; the others report `OK` where none holds. -/
def Obligations.EthFamilyConditions : Prop :=
  ∀ (s : State) (x : BitVec 4) (c : Context), s.ctxs[x.toNat]? = some c →
    (∃ c', exec (.ethMk x) s = .next (s.putCtx x.toNat c') ∧ c'.status = 0x30) ∧
    (s.config.optMax < c.ipOptlen.toNat →
      exec (.ethEnc x) s = .next (s.putCtx x.toNat { c with status := 0x23 })) ∧
    (c.ipOptlen.toNat ≤ s.config.optMax → s.config.payCap < c.icPlen.toNat →
      exec (.ethEnc x) s = .next (s.putCtx x.toNat { c with status := 0x13 })) ∧
    (c.ipOptlen.toNat ≤ s.config.optMax → c.icPlen.toNat ≤ s.config.payCap →
      s.config.wbufMax < 42 + c.ipOptlen.toNat + c.icPlen.toNat →
      exec (.ethEnc x) s = .next (s.putCtx x.toNat { c with status := 0x33 })) ∧
    (s.config.wbufMax < c.wlen.toNat →
      exec (.ethDec x) s = .next (s.putCtx x.toNat { c with status := 0x33 })) ∧
    (c.wlen.toNat ≤ s.config.wbufMax → c.wlen.toNat < 14 →
      exec (.ethDec x) s = .next (s.putCtx x.toNat { c with status := 0x31 })) ∧
    (c.wlen.toNat ≤ s.config.wbufMax → 14 ≤ c.wlen.toNat → c.wlen.toNat < 34 →
      exec (.ethDec x) s = .next (s.putCtx x.toNat { c with status := 0x21 })) ∧
    (c.wlen.toNat ≤ s.config.wbufMax → 34 ≤ c.wlen.toNat → c.wlen.toNat < 42 →
      exec (.ethDec x) s = .next (s.putCtx x.toNat { c with status := 0x11 })) ∧
    (c.wlen.toNat ≤ s.config.wbufMax → 42 ≤ c.wlen.toNat → s.cfg.getLsbD 0 = true → ¬ IpWireOk c.wbuf.read 14 →
      exec (.ethDec x) s = .next (s.putCtx x.toNat { c with status := 0x22 })) ∧
    (c.wlen.toNat ≤ s.config.wbufMax → 42 ≤ c.wlen.toNat → s.cfg.getLsbD 0 = true → IpWireOk c.wbuf.read 14 →
      ¬ IcmpWireOk c.wbuf.read 34 c.wlen.toNat →
      exec (.ethDec x) s = .next (s.putCtx x.toNat { c with status := 0x12 })) ∧
    (c.ipOptlen.toNat ≤ s.config.optMax → c.icPlen.toNat ≤ s.config.payCap →
      42 + c.ipOptlen.toNat + c.icPlen.toNat ≤ s.config.wbufMax →
      ∃ c', exec (.ethEnc x) s = .next (s.putCtx x.toNat c') ∧ c'.status = 0x30) ∧
    (c.wlen.toNat ≤ s.config.wbufMax → 42 ≤ c.wlen.toNat →
      (s.cfg.getLsbD 0 = false ∨ (IpWireOk c.wbuf.read 14 ∧ IcmpWireOk c.wbuf.read 34 c.wlen.toNat)) →
      ∃ c', exec (.ethDec x) s = .next (s.putCtx x.toNat c') ∧ c'.status = 0x30)

/-- R158: decoding a 14-byte all-zero buffer as a frame fails with (TRUNCATED, L_IP) and changes no other
register. -/
def Obligations.FourteenZeroBytesAreTruncated : Prop :=
  ∀ (s : State) (x : BitVec 4) (c : Context), s.config.Valid → s.ctxs[x.toNat]? = some c → c.wlen = 14 →
    (∀ i < 14, c.wbuf.read i = 0) →
    exec (.ethDec x) s = .next (s.putCtx x.toNat { c with status := 0x21 })

/-- R159: the frame round trip: without options encode then decode gives all three records back, the ICMP checksum
computed, in strict mode provided the stored header checksum is right; with options the Ethernet registers still
come back (lenient); and decode then encode of a frame whose ICMP checksum is right gives the bytes back whatever
its header holds (lenient). -/
def Obligations.FrameRoundTrip : Prop :=
  (∀ (s : State) (x : BitVec 4) (c : Context), s.config.Valid → s.ctxs[x.toNat]? = some c → c.ipOptlen = 0 →
    c.icPlen.toNat ≤ s.config.wbufMax - 42 → (s.cfg.getLsbD 0 = false ∨ ipChecksum c = c.ipCsum) →
    ∃ s1 c1 s2 c2, exec (.ethEnc x) s = .next s1 ∧ s1.ctxs[x.toNat]? = some c1 ∧ c1.status = 0x30 ∧
      exec (.ethDec x) s1 = .next s2 ∧ s2.ctxs[x.toNat]? = some c2 ∧
      c2 = { c with icCsum := icmpChecksum c, wlen := c2.wlen, wbuf := c2.wbuf, pay := c2.pay, status := 0x30 } ∧
      ∀ i < c.icPlen.toNat, c2.pay.read i = c.pay.read i) ∧
  (∀ (s : State) (x : BitVec 4) (c : Context), s.config.Valid → s.ctxs[x.toNat]? = some c →
    s.cfg.getLsbD 0 = false → 0 < c.ipOptlen.toNat → c.ipOptlen.toNat ≤ s.config.optMax →
    ethLen c ≤ s.config.wbufMax →
    ∃ s1 s2 c2, exec (.ethEnc x) s = .next s1 ∧ exec (.ethDec x) s1 = .next s2 ∧ s2.ctxs[x.toNat]? = some c2 ∧
      c2.status = 0x30 ∧ c2.ethDst = c.ethDst ∧ c2.ethSrc = c.ethSrc ∧ c2.ethType = c.ethType ∧
      c2.ipOptlen = 0 ∧ c2.icPlen.toNat = c.ipOptlen.toNat + c.icPlen.toNat) ∧
  (∀ (s : State) (x : BitVec 4) (c : Context), s.config.Valid → s.ctxs[x.toNat]? = some c →
    s.cfg.getLsbD 0 = false → 42 ≤ c.wlen.toNat → c.wlen.toNat ≤ s.config.wbufMax →
    IcmpWireOk c.wbuf.read 34 c.wlen.toNat →
    ∃ s1 s2 c2, exec (.ethDec x) s = .next s1 ∧ exec (.ethEnc x) s1 = .next s2 ∧ s2.ctxs[x.toNat]? = some c2 ∧
      c2.wlen = c.wlen ∧ ∀ i < c.wlen.toNat, c2.wbuf.read i = c.wbuf.read i)

/-- R155: after `ETH_ENC` the ICMP part of the frame sums to 0x0000 always, the header part does so when `IP_CSUM` is
the record's checksum, and a second `ETH_ENC` changes nothing. -/
def Obligations.FrameChecksumIdentities : Prop :=
  ∀ (s : State) (x : BitVec 4) (c : Context), s.config.Valid → s.ctxs[x.toNat]? = some c →
    c.ipOptlen.toNat ≤ s.config.optMax → c.icPlen.toNat ≤ s.config.payCap → ethLen c ≤ s.config.wbufMax →
    ∃ s1 c1, exec (.ethEnc x) s = .next s1 ∧ s1.ctxs[x.toNat]? = some c1 ∧
      inetCsum ((List.range (icmpLen c)).map fun i => c1.wbuf.read (34 + c.ipOptlen.toNat + i)) = 0x0000 ∧
      (c.ipCsum = ipChecksum c →
        inetCsum ((List.range (20 + c.ipOptlen.toNat)).map fun i => c1.wbuf.read (14 + i)) = 0x0000) ∧
      exec (.ethEnc x) s1 = .next s1

/-- The send flow (R3, R96: `ICMP_MKREQ`, `IP_MK`, `ETH_MK`, `ETH_ENC`) of a record without options makes a frame that
the receive flow (`ETH_DEC`) accepts in strict mode and in lenient mode, giving the request back. -/
def Obligations.SentProbeIsReceivedIntact : Prop :=
  ∀ (s : State) (x : BitVec 4) (seq : BitVec 16) (c : Context), s.config.Valid → 54 ≤ s.config.wbufMax →
    s.ctxs[x.toNat]? = some c → c.ipOptlen = 0 →
    ∃ s1 s2 s3 s4 s5 c5, exec (.icmpMkreq x seq) s = .next s1 ∧ exec (.ipMk x) s1 = .next s2 ∧
      exec (.ethMk x) s2 = .next s3 ∧ exec (.ethEnc x) s3 = .next s4 ∧ exec (.ethDec x) s4 = .next s5 ∧
      s5.ctxs[x.toNat]? = some c5 ∧ c5.status = 0x30 ∧ c5.wlen = 54 ∧ c5.ethSrc = s.macLocal ∧
      c5.ethType = 0x0800 ∧ c5.ipVihl = 0x45 ∧ c5.ipTlen = 40 ∧ c5.ipTtl = c.ipTtl ∧ c5.ipSrc = c.ipSrc ∧
      c5.ipDst = c.ipDst ∧ c5.icType = 8 ∧ c5.icCode = 0 ∧ c5.icId = s.ident ∧ c5.icSeq = seq ∧ c5.icPlen = 12 ∧
      (∀ i < 8, c5.pay.read i = s.timeSec.extractLsb' (56 - 8 * i) 8) ∧
      (∀ i < 4, c5.pay.read (8 + i) = s.timeSub.extractLsb' (24 - 8 * i) 8)

/-! ## Whole-machine rules -/

/-- R187: the truncation table: which decode of `L` = `WLEN` bytes reports which layer. -/
def Obligations.TruncationTable : Prop :=
  ∀ (s : State) (x : BitVec 4) (c : Context), s.ctxs[x.toNat]? = some c → c.wlen.toNat ≤ s.config.wbufMax →
    ∃ c1 c2 c3, exec (.icmpDec x) s = .next (s.putCtx x.toNat c1) ∧
      exec (.ipDec x) s = .next (s.putCtx x.toNat c2) ∧ exec (.ethDec x) s = .next (s.putCtx x.toNat c3) ∧
      (c1.status = 0x11 ↔ c.wlen.toNat < 8) ∧
      (c2.status = 0x21 ↔ c.wlen.toNat < 20) ∧
      (c2.status = 0x11 ↔ 20 ≤ c.wlen.toNat ∧ c.wlen.toNat < 28) ∧
      (c3.status = 0x31 ↔ c.wlen.toNat < 14) ∧
      (c3.status = 0x21 ↔ 14 ≤ c.wlen.toNat ∧ c.wlen.toNat < 34) ∧
      (c3.status = 0x11 ↔ 34 ≤ c.wlen.toNat ∧ c.wlen.toNat < 42) ∧
      (∀ i t c', i.isCommand = true → (∀ y, i ≠ .icmpDec y ∧ i ≠ .ipDec y ∧ i ≠ .ethDec y) →
        commandContext i = some x → exec i s = .next t → t.ctxs[x.toNat]? = some c' →
        statusCode c'.status ≠ 1)

/-- R186: a raised condition: whenever a command that is not a verify leaves a code other than `OK`, the context is as
it was but for `STATUS`, and so is the rest of the state; a verify then has written `CSUM_RES` too, if anything. -/
def Obligations.RaisedConditionChangesStatusAlone : Prop :=
  ∀ (s t : State) (i : Instr) (x : BitVec 4) (c c' : Context), commandContext i = some x →
    s.ctxs[x.toNat]? = some c → exec i s = .next t → t.ctxs[x.toNat]? = some c' → statusCode c'.status ≠ 0 →
    t = s.putCtx x.toNat c' ∧ c' = { c with status := c'.status, csumRes := c'.csumRes } ∧
    ((∀ y, i ≠ .icmpVfy y ∧ i ≠ .ipVfy y) → c'.csumRes = c.csumRes) ∧
    (statusCode c'.status ≠ 2 → c'.csumRes = c.csumRes)

/-- R21, R36 to R39: commands read the global registers and never write them: a legal command changes its own context
and nothing else of the state. -/
def Obligations.CommandsWriteTheirContextAlone : Prop :=
  ∀ (s t : State) (i : Instr) (x : BitVec 4), commandContext i = some x → i.wf s.nctx = true → exec i s = .next t →
    t = { s with ctxs := t.ctxs } ∧ t.nctx = s.nctx ∧ ∀ y, y ≠ x.toNat → t.ctxs[y]? = s.ctxs[y]?

/-- R73: an instruction leaves a context it does not name unchanged, and what it does does not depend on it: with
that context replaced by any other it does the same to the rest. -/
def Obligations.ContextsAreIsolated : Prop :=
  ∀ (s t : State) (i : Instr) (y : Nat) (d : Context), namedContext s.nctx i ≠ some y → y < s.nctx →
    exec i s = .next t → t.ctxs[y]? = s.ctxs[y]? ∧ exec i (s.putCtx y d) = .next (t.putCtx y d)

/-- R73, R72: legal commands on two different contexts give the same state in either order. -/
def Obligations.CommandsOnTwoContextsCommute : Prop :=
  ∀ (s : State) (i j : Instr) (x y : BitVec 4), commandContext i = some x → commandContext j = some y → x ≠ y →
    i.wf s.nctx = true → j.wf s.nctx = true →
    ∃ s1 s2 t, exec i s = .next s1 ∧ exec j s1 = .next t ∧ exec j s = .next s2 ∧ exec i s2 = .next t

/-- R61: no command reads a `WBUF` byte at or above `WLEN`, a `PAY` byte at or above `IC_PLEN` or an `OPT` byte at or
above `IP_OPTLEN`: with those bytes replaced by any others it leaves the same registers, and a byte that was the same
before is the same after. Nothing hangs on an unspecified byte (R49) that a length register does not cover. -/
def Obligations.BytesBeyondTheLengthsAreNeverRead : Prop :=
  ∀ (s : State) (i : Instr) (x : BitVec 4) (c d : Context), commandContext i = some x → s.ctxs[x.toNat]? = some c →
    d = { c with wbuf := d.wbuf, pay := d.pay, opt := d.opt } →
    (∀ j < c.wlen.toNat, d.wbuf.read j = c.wbuf.read j) → (∀ j < c.icPlen.toNat, d.pay.read j = c.pay.read j) →
    (∀ j < c.ipOptlen.toNat, d.opt.read j = c.opt.read j) →
    ∃ c' d', exec i s = .next (s.putCtx x.toNat c') ∧
      exec i (s.putCtx x.toNat d) = .next (s.putCtx x.toNat d') ∧
      d' = { c' with wbuf := d'.wbuf, pay := d'.pay, opt := d'.opt } ∧
      ∀ (b : BufName) (j : Nat), (d.buffer b).read j = (c.buffer b).read j → (d'.buffer b).read j = (c'.buffer b).read j

/-- R208: commands on a context in its reset state are defined, whatever its unspecified bytes. -/
def Obligations.CommandsOnTheResetState : Prop :=
  ∀ (s : State) (x : BitVec 4) (fill : Nat), s.config.Valid → s.ctxs[x.toNat]? = some (Context.reset fill) →
    exec (.csum x) s = .next (s.putCtx x.toNat { Context.reset fill with csumRes := 0xFFFF }) ∧
    (∃ c', exec (.icmpEnc x) s = .next (s.putCtx x.toNat c') ∧ c'.wlen = 8 ∧ c'.icCsum = 0xFFFF ∧
      (List.range 8).map c'.wbuf.read = [0x00, 0x00, 0xFF, 0xFF, 0x00, 0x00, 0x00, 0x00]) ∧
    exec (.icmpDec x) s = .next (s.putCtx x.toNat { Context.reset fill with status := 0x11 }) ∧
    exec (.ipDec x) s = .next (s.putCtx x.toNat { Context.reset fill with status := 0x21 }) ∧
    exec (.ethDec x) s = .next (s.putCtx x.toNat { Context.reset fill with status := 0x31 }) ∧
    exec (.icmpVfy x) s = .next (s.putCtx x.toNat { Context.reset fill with csumRes := 0xFFFF, status := 0x12 }) ∧
    (∃ c', exec (.ipMk x) s = .next (s.putCtx x.toNat c') ∧ c'.ipVihl = 0x45 ∧ c'.ipTlen = 28 ∧ c'.ipCsum = 0xBAE3)
end

