-- ==== Sys2Proof/Laws/Checksum.lean ====
section
/-! SUPPORT. What the word sum and the folding of carries do. -/

namespace Sys2Proof.Machine

@[simp] theorem wordSum_nil : wordSum [] = 0 := rfl
@[simp] theorem wordSum_single (hi : Byte) : wordSum [hi] = hi.toNat * 256 := rfl
@[simp] theorem wordSum_pair (hi lo : Byte) (rest : List Byte) :
    wordSum (hi :: lo :: rest) = hi.toNat * 256 + lo.toNat + wordSum rest := rfl

/-- Induction two bytes at a time, as the checksum walks. -/
theorem pairs_induction {P : List Byte → Prop} (nil : P []) (single : ∀ b, P [b])
    (pair : ∀ hi lo rest, P rest → P (hi :: lo :: rest)) : ∀ b, P b
  | [] => nil
  | [b] => single b
  | hi :: lo :: rest => pair hi lo rest (pairs_induction nil single pair rest)

/-- The words of a sequence that starts at an even offset are summed apart (R166). -/
theorem wordSum_append {a : List Byte} (h : a.length % 2 = 0) (b : List Byte) :
    wordSum (a ++ b) = wordSum a + wordSum b := by
  induction a using pairs_induction with
  | nil => simp
  | single c => simp at h
  | pair hi lo rest ih =>
    have : rest.length % 2 = 0 := by simp only [List.length_cons] at h; omega
    simp only [List.cons_append, wordSum_pair, ih this]
    omega

/-- The closed form of the folded sum (R172): what the repeated folding of R167 leaves. -/
theorem foldCarries_eq (fuel acc : Nat) (h : acc ≤ fuel) :
    foldCarries fuel acc = if acc = 0 then 0 else (acc - 1) % 65535 + 1 := by
  induction fuel generalizing acc with
  | zero => obtain rfl : acc = 0 := by omega
            rfl
  | succ fuel ih =>
    rw [foldCarries]
    by_cases hq : acc / 65536 = 0
    · rw [if_pos hq]; split <;> omega
    · rw [if_neg hq, ih _ (by omega), if_neg (by omega), if_neg (by omega)]
      omega

/-- The folded sum of a sequence fits 16 bits, and is 0 only for a sum of 0. -/
theorem foldCarries_le (fuel acc : Nat) (h : acc ≤ fuel) : foldCarries fuel acc ≤ 65535 := by
  rw [foldCarries_eq _ _ h]; split <;> omega

/-- The checksum depends on the sum of the words alone. -/
theorem inetCsum_congr {a b : List Byte} (h : wordSum a = wordSum b) : inetCsum a = inetCsum b := by
  simp only [inetCsum, h]

/-- The checksum as a number: 0xFFFF minus the folded sum (R168). -/
theorem inetCsum_toNat (b : List Byte) :
    (inetCsum b).toNat = 65535 - if wordSum b = 0 then 0 else (wordSum b - 1) % 65535 + 1 := by
  have h := foldCarries_le (wordSum b) (wordSum b) (Nat.le_refl _)
  rw [inetCsum, BitVec.toNat_not, BitVec.toNat_ofNat, ← foldCarries_eq (wordSum b) (wordSum b) (Nat.le_refl _)]
  omega

end Sys2Proof.Machine
end

