-- ==== Sys2Proof/Laws/State.lean ====
section
/-! SUPPORT. What each update of a state, a context or a buffer does to each field, by rfl. -/

namespace Sys2Proof.Machine

/-! ## `State.putCtx`, `State.setIll`, `State.setBus` -/

@[simp] theorem putCtx_cfg (s : State) (x : Nat) (c : Context) : (s.putCtx x c).cfg = s.cfg := rfl
@[simp] theorem putCtx_ident (s : State) (x : Nat) (c : Context) : (s.putCtx x c).ident = s.ident := rfl
@[simp] theorem putCtx_macLocal (s : State) (x : Nat) (c : Context) : (s.putCtx x c).macLocal = s.macLocal := rfl
@[simp] theorem putCtx_macPeer (s : State) (x : Nat) (c : Context) : (s.putCtx x c).macPeer = s.macPeer := rfl
@[simp] theorem putCtx_timeSec (s : State) (x : Nat) (c : Context) : (s.putCtx x c).timeSec = s.timeSec := rfl
@[simp] theorem putCtx_timeSub (s : State) (x : Nat) (c : Context) : (s.putCtx x c).timeSub = s.timeSub := rfl
@[simp] theorem putCtx_gerr (s : State) (x : Nat) (c : Context) : (s.putCtx x c).gerr = s.gerr := rfl
@[simp] theorem putCtx_ctxs (s : State) (x : Nat) (c : Context) : (s.putCtx x c).ctxs = s.ctxs.set x c := rfl
@[simp] theorem putCtx_config (s : State) (x : Nat) (c : Context) : (s.putCtx x c).config = s.config := rfl
@[simp] theorem putCtx_reply (s : State) (x : Nat) (c : Context) : (s.putCtx x c).reply = s.reply := rfl
@[simp] theorem putCtx_pending (s : State) (x : Nat) (c : Context) : (s.putCtx x c).pending = s.pending := rfl
@[simp] theorem putCtx_nextFill (s : State) (x : Nat) (c : Context) : (s.putCtx x c).nextFill = s.nextFill := rfl
@[simp] theorem setIll_cfg (s : State) : s.setIll.cfg = s.cfg := rfl
@[simp] theorem setIll_ident (s : State) : s.setIll.ident = s.ident := rfl
@[simp] theorem setIll_macLocal (s : State) : s.setIll.macLocal = s.macLocal := rfl
@[simp] theorem setIll_macPeer (s : State) : s.setIll.macPeer = s.macPeer := rfl
@[simp] theorem setIll_timeSec (s : State) : s.setIll.timeSec = s.timeSec := rfl
@[simp] theorem setIll_timeSub (s : State) : s.setIll.timeSub = s.timeSub := rfl
@[simp] theorem setIll_gerr (s : State) : s.setIll.gerr = s.gerr ||| 1#2 := rfl
@[simp] theorem setIll_ctxs (s : State) : s.setIll.ctxs = s.ctxs := rfl
@[simp] theorem setIll_config (s : State) : s.setIll.config = s.config := rfl
@[simp] theorem setIll_reply (s : State) : s.setIll.reply = s.reply := rfl
@[simp] theorem setIll_pending (s : State) : s.setIll.pending = s.pending := rfl
@[simp] theorem setIll_nextFill (s : State) : s.setIll.nextFill = s.nextFill := rfl
@[simp] theorem setBus_cfg (s : State) : s.setBus.cfg = s.cfg := rfl
@[simp] theorem setBus_ident (s : State) : s.setBus.ident = s.ident := rfl
@[simp] theorem setBus_macLocal (s : State) : s.setBus.macLocal = s.macLocal := rfl
@[simp] theorem setBus_macPeer (s : State) : s.setBus.macPeer = s.macPeer := rfl
@[simp] theorem setBus_timeSec (s : State) : s.setBus.timeSec = s.timeSec := rfl
@[simp] theorem setBus_timeSub (s : State) : s.setBus.timeSub = s.timeSub := rfl
@[simp] theorem setBus_gerr (s : State) : s.setBus.gerr = s.gerr ||| 2#2 := rfl
@[simp] theorem setBus_ctxs (s : State) : s.setBus.ctxs = s.ctxs := rfl
@[simp] theorem setBus_config (s : State) : s.setBus.config = s.config := rfl
@[simp] theorem setBus_reply (s : State) : s.setBus.reply = s.reply := rfl
@[simp] theorem setBus_pending (s : State) : s.setBus.pending = s.pending := rfl
@[simp] theorem setBus_nextFill (s : State) : s.setBus.nextFill = s.nextFill := rfl

/-! ## `Context.finish`, `Context.raise` -/

@[simp] theorem finish_status (c : Context) (code : Code) (layer : Layer) : (c.finish code layer).status = statusWord code layer := rfl
@[simp] theorem finish_csumRes (c : Context) (code : Code) (layer : Layer) : (c.finish code layer).csumRes = c.csumRes := rfl
@[simp] theorem finish_wlen (c : Context) (code : Code) (layer : Layer) : (c.finish code layer).wlen = c.wlen := rfl
@[simp] theorem finish_ethDst (c : Context) (code : Code) (layer : Layer) : (c.finish code layer).ethDst = c.ethDst := rfl
@[simp] theorem finish_ethSrc (c : Context) (code : Code) (layer : Layer) : (c.finish code layer).ethSrc = c.ethSrc := rfl
@[simp] theorem finish_ethType (c : Context) (code : Code) (layer : Layer) : (c.finish code layer).ethType = c.ethType := rfl
@[simp] theorem finish_ipVihl (c : Context) (code : Code) (layer : Layer) : (c.finish code layer).ipVihl = c.ipVihl := rfl
@[simp] theorem finish_ipTos (c : Context) (code : Code) (layer : Layer) : (c.finish code layer).ipTos = c.ipTos := rfl
@[simp] theorem finish_ipTlen (c : Context) (code : Code) (layer : Layer) : (c.finish code layer).ipTlen = c.ipTlen := rfl
@[simp] theorem finish_ipId (c : Context) (code : Code) (layer : Layer) : (c.finish code layer).ipId = c.ipId := rfl
@[simp] theorem finish_ipFlfr (c : Context) (code : Code) (layer : Layer) : (c.finish code layer).ipFlfr = c.ipFlfr := rfl
@[simp] theorem finish_ipTtl (c : Context) (code : Code) (layer : Layer) : (c.finish code layer).ipTtl = c.ipTtl := rfl
@[simp] theorem finish_ipProto (c : Context) (code : Code) (layer : Layer) : (c.finish code layer).ipProto = c.ipProto := rfl
@[simp] theorem finish_ipCsum (c : Context) (code : Code) (layer : Layer) : (c.finish code layer).ipCsum = c.ipCsum := rfl
@[simp] theorem finish_ipSrc (c : Context) (code : Code) (layer : Layer) : (c.finish code layer).ipSrc = c.ipSrc := rfl
@[simp] theorem finish_ipDst (c : Context) (code : Code) (layer : Layer) : (c.finish code layer).ipDst = c.ipDst := rfl
@[simp] theorem finish_ipOptlen (c : Context) (code : Code) (layer : Layer) : (c.finish code layer).ipOptlen = c.ipOptlen := rfl
@[simp] theorem finish_icType (c : Context) (code : Code) (layer : Layer) : (c.finish code layer).icType = c.icType := rfl
@[simp] theorem finish_icCode (c : Context) (code : Code) (layer : Layer) : (c.finish code layer).icCode = c.icCode := rfl
@[simp] theorem finish_icCsum (c : Context) (code : Code) (layer : Layer) : (c.finish code layer).icCsum = c.icCsum := rfl
@[simp] theorem finish_icId (c : Context) (code : Code) (layer : Layer) : (c.finish code layer).icId = c.icId := rfl
@[simp] theorem finish_icSeq (c : Context) (code : Code) (layer : Layer) : (c.finish code layer).icSeq = c.icSeq := rfl
@[simp] theorem finish_icPlen (c : Context) (code : Code) (layer : Layer) : (c.finish code layer).icPlen = c.icPlen := rfl
@[simp] theorem finish_wbuf (c : Context) (code : Code) (layer : Layer) : (c.finish code layer).wbuf = c.wbuf := rfl
@[simp] theorem finish_pay (c : Context) (code : Code) (layer : Layer) : (c.finish code layer).pay = c.pay := rfl
@[simp] theorem finish_opt (c : Context) (code : Code) (layer : Layer) : (c.finish code layer).opt = c.opt := rfl

@[simp] theorem raise_eq (c : Context) (r : Raised) : c.raise r = c.finish r.code r.layer := rfl

/-! ## `emit`, `verdict` -/

@[simp] theorem emit_status (c : Context) (bs : List Byte) : (emit c bs).status = c.status := rfl
@[simp] theorem emit_csumRes (c : Context) (bs : List Byte) : (emit c bs).csumRes = c.csumRes := rfl
@[simp] theorem emit_wlen (c : Context) (bs : List Byte) : (emit c bs).wlen = BitVec.ofNat 16 bs.length := rfl
@[simp] theorem emit_ethDst (c : Context) (bs : List Byte) : (emit c bs).ethDst = c.ethDst := rfl
@[simp] theorem emit_ethSrc (c : Context) (bs : List Byte) : (emit c bs).ethSrc = c.ethSrc := rfl
@[simp] theorem emit_ethType (c : Context) (bs : List Byte) : (emit c bs).ethType = c.ethType := rfl
@[simp] theorem emit_ipVihl (c : Context) (bs : List Byte) : (emit c bs).ipVihl = c.ipVihl := rfl
@[simp] theorem emit_ipTos (c : Context) (bs : List Byte) : (emit c bs).ipTos = c.ipTos := rfl
@[simp] theorem emit_ipTlen (c : Context) (bs : List Byte) : (emit c bs).ipTlen = c.ipTlen := rfl
@[simp] theorem emit_ipId (c : Context) (bs : List Byte) : (emit c bs).ipId = c.ipId := rfl
@[simp] theorem emit_ipFlfr (c : Context) (bs : List Byte) : (emit c bs).ipFlfr = c.ipFlfr := rfl
@[simp] theorem emit_ipTtl (c : Context) (bs : List Byte) : (emit c bs).ipTtl = c.ipTtl := rfl
@[simp] theorem emit_ipProto (c : Context) (bs : List Byte) : (emit c bs).ipProto = c.ipProto := rfl
@[simp] theorem emit_ipCsum (c : Context) (bs : List Byte) : (emit c bs).ipCsum = c.ipCsum := rfl
@[simp] theorem emit_ipSrc (c : Context) (bs : List Byte) : (emit c bs).ipSrc = c.ipSrc := rfl
@[simp] theorem emit_ipDst (c : Context) (bs : List Byte) : (emit c bs).ipDst = c.ipDst := rfl
@[simp] theorem emit_ipOptlen (c : Context) (bs : List Byte) : (emit c bs).ipOptlen = c.ipOptlen := rfl
@[simp] theorem emit_icType (c : Context) (bs : List Byte) : (emit c bs).icType = c.icType := rfl
@[simp] theorem emit_icCode (c : Context) (bs : List Byte) : (emit c bs).icCode = c.icCode := rfl
@[simp] theorem emit_icCsum (c : Context) (bs : List Byte) : (emit c bs).icCsum = c.icCsum := rfl
@[simp] theorem emit_icId (c : Context) (bs : List Byte) : (emit c bs).icId = c.icId := rfl
@[simp] theorem emit_icSeq (c : Context) (bs : List Byte) : (emit c bs).icSeq = c.icSeq := rfl
@[simp] theorem emit_icPlen (c : Context) (bs : List Byte) : (emit c bs).icPlen = c.icPlen := rfl
@[simp] theorem emit_wbuf (c : Context) (bs : List Byte) : (emit c bs).wbuf = c.wbuf.writeBytes 0 bs := rfl
@[simp] theorem emit_pay (c : Context) (bs : List Byte) : (emit c bs).pay = c.pay := rfl
@[simp] theorem emit_opt (c : Context) (bs : List Byte) : (emit c bs).opt = c.opt := rfl
@[simp] theorem verdict_status (c : Context) (a b : BitVec 16) (l : Layer) : (verdict c a b l).status = statusWord (if a = b then .ok else .csumMismatch) l := rfl
@[simp] theorem verdict_csumRes (c : Context) (a b : BitVec 16) (l : Layer) : (verdict c a b l).csumRes = a := rfl
@[simp] theorem verdict_wlen (c : Context) (a b : BitVec 16) (l : Layer) : (verdict c a b l).wlen = c.wlen := rfl
@[simp] theorem verdict_ethDst (c : Context) (a b : BitVec 16) (l : Layer) : (verdict c a b l).ethDst = c.ethDst := rfl
@[simp] theorem verdict_ethSrc (c : Context) (a b : BitVec 16) (l : Layer) : (verdict c a b l).ethSrc = c.ethSrc := rfl
@[simp] theorem verdict_ethType (c : Context) (a b : BitVec 16) (l : Layer) : (verdict c a b l).ethType = c.ethType := rfl
@[simp] theorem verdict_ipVihl (c : Context) (a b : BitVec 16) (l : Layer) : (verdict c a b l).ipVihl = c.ipVihl := rfl
@[simp] theorem verdict_ipTos (c : Context) (a b : BitVec 16) (l : Layer) : (verdict c a b l).ipTos = c.ipTos := rfl
@[simp] theorem verdict_ipTlen (c : Context) (a b : BitVec 16) (l : Layer) : (verdict c a b l).ipTlen = c.ipTlen := rfl
@[simp] theorem verdict_ipId (c : Context) (a b : BitVec 16) (l : Layer) : (verdict c a b l).ipId = c.ipId := rfl
@[simp] theorem verdict_ipFlfr (c : Context) (a b : BitVec 16) (l : Layer) : (verdict c a b l).ipFlfr = c.ipFlfr := rfl
@[simp] theorem verdict_ipTtl (c : Context) (a b : BitVec 16) (l : Layer) : (verdict c a b l).ipTtl = c.ipTtl := rfl
@[simp] theorem verdict_ipProto (c : Context) (a b : BitVec 16) (l : Layer) : (verdict c a b l).ipProto = c.ipProto := rfl
@[simp] theorem verdict_ipCsum (c : Context) (a b : BitVec 16) (l : Layer) : (verdict c a b l).ipCsum = c.ipCsum := rfl
@[simp] theorem verdict_ipSrc (c : Context) (a b : BitVec 16) (l : Layer) : (verdict c a b l).ipSrc = c.ipSrc := rfl
@[simp] theorem verdict_ipDst (c : Context) (a b : BitVec 16) (l : Layer) : (verdict c a b l).ipDst = c.ipDst := rfl
@[simp] theorem verdict_ipOptlen (c : Context) (a b : BitVec 16) (l : Layer) : (verdict c a b l).ipOptlen = c.ipOptlen := rfl
@[simp] theorem verdict_icType (c : Context) (a b : BitVec 16) (l : Layer) : (verdict c a b l).icType = c.icType := rfl
@[simp] theorem verdict_icCode (c : Context) (a b : BitVec 16) (l : Layer) : (verdict c a b l).icCode = c.icCode := rfl
@[simp] theorem verdict_icCsum (c : Context) (a b : BitVec 16) (l : Layer) : (verdict c a b l).icCsum = c.icCsum := rfl
@[simp] theorem verdict_icId (c : Context) (a b : BitVec 16) (l : Layer) : (verdict c a b l).icId = c.icId := rfl
@[simp] theorem verdict_icSeq (c : Context) (a b : BitVec 16) (l : Layer) : (verdict c a b l).icSeq = c.icSeq := rfl
@[simp] theorem verdict_icPlen (c : Context) (a b : BitVec 16) (l : Layer) : (verdict c a b l).icPlen = c.icPlen := rfl
@[simp] theorem verdict_wbuf (c : Context) (a b : BitVec 16) (l : Layer) : (verdict c a b l).wbuf = c.wbuf := rfl
@[simp] theorem verdict_pay (c : Context) (a b : BitVec 16) (l : Layer) : (verdict c a b l).pay = c.pay := rfl
@[simp] theorem verdict_opt (c : Context) (a b : BitVec 16) (l : Layer) : (verdict c a b l).opt = c.opt := rfl

/-! ## `Buffer.writeBytes`, `Buffer.unwritten` -/

@[simp] theorem writeBytes_fill (b : Buffer) (a : Nat) (bs : List Byte) : (b.writeBytes a bs).fill = b.fill := rfl
@[simp] theorem writeBytes_cells (b : Buffer) (a : Nat) (bs : List Byte) :
    (b.writeBytes a bs).cells = Memory.put b.cells a bs := rfl
@[simp] theorem unwritten_fill (n : Nat) : (Buffer.unwritten n).fill = n := rfl
@[simp] theorem unwritten_cells (n : Nat) : (Buffer.unwritten n).cells = [] := rfl

/-! ## The contexts of a state -/

@[simp] theorem putCtx_nctx (s : State) (x : Nat) (c : Context) : (s.putCtx x c).nctx = s.nctx := by
  simp [State.nctx]

theorem lt_nctx_of_getElem? {s : State} {x : Nat} {c : Context} (h : s.ctxs[x]? = some c) : x < s.nctx :=
  (List.getElem?_eq_some_iff.mp h).1

/-- The context just put is the one read back. -/
theorem putCtx_get_same {s : State} {x : Nat} (h : x < s.nctx) (c : Context) : (s.putCtx x c).ctxs[x]? = some c := by
  rw [putCtx_ctxs, List.getElem?_set_self (by simpa [State.nctx] using h)]

/-- Another context is left alone. -/
theorem putCtx_get_other (s : State) {x y : Nat} (c : Context) (h : x ≠ y) :
    (s.putCtx x c).ctxs[y]? = s.ctxs[y]? := by
  simp [h]

theorem putCtx_putCtx (s : State) (x : Nat) (c c' : Context) : (s.putCtx x c).putCtx x c' = s.putCtx x c' := by
  simp [State.putCtx]

/-- Putting back what stands there changes nothing. -/
theorem putCtx_self {s : State} {x : Nat} {c : Context} (h : s.ctxs[x]? = some c) : s.putCtx x c = s := by
  obtain ⟨hx, rfl⟩ := List.getElem?_eq_some_iff.mp h
  simp [State.putCtx]

theorem putCtx_comm (s : State) {x y : Nat} (c d : Context) (h : x ≠ y) :
    (s.putCtx x c).putCtx y d = (s.putCtx y d).putCtx x c := by
  simp only [State.putCtx]
  rw [List.set_comm _ _ h]

end Sys2Proof.Machine
end

