-- ==== Sys2Proof/Laws/Memory.lean ====
section
/-! SUPPORT. What the operations on buffer bytes do: one lemma for a read after a write, one for the canonical
form, one for the bounds; callers cite them and unfold nothing. -/

namespace Sys2Proof.Machine

/-! ## Laying cells down -/

@[simp] theorem cellsFrom_length (a : Nat) (bs : List Byte) : (Memory.cellsFrom a bs).length = bs.length := by
  induction bs generalizing a with
  | nil => rfl
  | cons b bs ih => simp [Memory.cellsFrom, ih]

theorem get?_append (m n : Memory) (i : Nat) :
    Memory.get? (m ++ n) i = (Memory.get? m i).or (Memory.get? n i) := by
  induction m with
  | nil => rfl
  | cons c m ih =>
    obtain ⟨k, v⟩ := c
    by_cases h : k = i <;> simp [Memory.get?, h, ih]

theorem get?_filter (m : Memory) (p : Nat → Bool) (i : Nat) :
    Memory.get? (m.filter fun c => p c.1) i = if p i then Memory.get? m i else none := by
  induction m with
  | nil => simp [Memory.get?]
  | cons c m ih =>
    obtain ⟨k, v⟩ := c
    by_cases hk : k = i
    · subst hk
      by_cases hp : p k <;> simp [Memory.get?, hp, ih]
    · by_cases hp : p k <;> simp [Memory.get?, hp, ih, hk]

theorem get?_cellsFrom (a : Nat) (bs : List Byte) (i : Nat) :
    Memory.get? (Memory.cellsFrom a bs) i = if a ≤ i then bs[i - a]? else none := by
  induction bs generalizing a with
  | nil => simp [Memory.cellsFrom, Memory.get?]
  | cons b bs ih =>
    simp only [Memory.cellsFrom, Memory.get?, ih]
    by_cases h : a = i
    · subst h; simp
    · by_cases h2 : a ≤ i
      · have h3 : i - a = (i - (a + 1)) + 1 := by omega
        rw [if_neg h, if_pos h2, if_pos (by omega), h3, List.getElem?_cons_succ]
      · rw [if_neg h, if_neg h2, if_neg (by omega)]

/-- READ AFTER WRITE: the bytes laid down are read back where they lie; every other offset is as before. -/
theorem get?_put (m : Memory) (a : Nat) (bs : List Byte) (i : Nat) :
    Memory.get? (Memory.put m a bs) i =
      if a ≤ i ∧ i < a + bs.length then bs[i - a]? else Memory.get? m i := by
  cases bs with
  | nil => rw [if_neg (by simp)]; rfl
  | cons b bs =>
    have hlo := get?_filter m (fun k => decide (k < a)) i
    have hhi := get?_filter m (fun k => decide (a + (bs.length + 1) ≤ k)) i
    simp only [Memory.put, get?_append, get?_cellsFrom, hlo, hhi, decide_eq_true_eq, List.length_cons]
    by_cases h1 : i < a
    · rw [if_pos h1, if_neg (by omega), if_neg (by omega), if_neg (by omega)]
      cases Memory.get? m i <;> rfl
    · by_cases h2 : i < a + (bs.length + 1)
      · rw [if_neg h1, if_pos (by omega), if_neg (by omega), if_pos (by omega)]
        cases (b :: bs)[i - a]? <;> rfl
      · have hn : (b :: bs)[i - a]? = none := by
          rw [List.getElem?_eq_none]; simp only [List.length_cons]; omega
        rw [if_neg h1, if_pos (by omega), if_pos (by omega), if_neg (by omega), hn]
        rfl

theorem mem_cellsFrom {a : Nat} {bs : List Byte} {c : Host.Cell} (h : c ∈ Memory.cellsFrom a bs) :
    a ≤ c.1 ∧ c.1 < a + bs.length := by
  induction bs generalizing a with
  | nil => simp [Memory.cellsFrom] at h
  | cons b bs ih =>
    rcases List.mem_cons.mp h with rfl | h
    · simp
    · have := ih h
      simp only [List.length_cons]
      omega

theorem cellsFrom_wf (a : Nat) (bs : List Byte) : Memory.wf (Memory.cellsFrom a bs) := by
  induction bs generalizing a with
  | nil => simp [Memory.cellsFrom, Memory.wf]
  | cons b bs ih =>
    simp only [Memory.wf, Memory.cellsFrom, List.map_cons, List.pairwise_cons, List.mem_map]
    refine ⟨?_, ih (a + 1)⟩
    rintro k ⟨c, hc, rfl⟩
    have := mem_cellsFrom hc
    omega

theorem nil_wf : Memory.wf [] := List.Pairwise.nil

/-- Every write keeps the canonical form. -/
theorem put_wf {m : Memory} (h : Memory.wf m) (a : Nat) (bs : List Byte) : Memory.wf (Memory.put m a bs) := by
  cases bs with
  | nil => exact h
  | cons b bs =>
    have hw := List.pairwise_map.mp h
    have hc := List.pairwise_map.mp (cellsFrom_wf a (b :: bs))
    refine List.pairwise_map.mpr ?_
    simp only [Memory.put]
    refine List.pairwise_append.mpr ⟨List.pairwise_append.mpr ⟨hw.filter _, hc, ?_⟩, hw.filter _, ?_⟩
    · intro c hc' d hd
      have h1 : c.1 < a := by simpa using (List.mem_filter.mp hc').2
      have h2 := mem_cellsFrom hd
      omega
    · intro c hc' d hd
      have h2 : a + (bs.length + 1) ≤ d.1 := by simpa using (List.mem_filter.mp hd).2
      rcases List.mem_append.mp hc' with h1 | h1
      · have : c.1 < a := by simpa using (List.mem_filter.mp h1).2
        omega
      · have h3 := mem_cellsFrom h1
        simp only [List.length_cons] at h3
        omega

/-- A write within the capacity leaves every listed offset below it. -/
theorem put_bound {m : Memory} {cap : Nat} (h : ∀ c ∈ m, c.1 < cap) {a : Nat} {bs : List Byte}
    (hb : a + bs.length ≤ cap) : ∀ c ∈ Memory.put m a bs, c.1 < cap := by
  cases bs with
  | nil => exact h
  | cons b bs =>
    intro c hc
    simp only [Memory.put, List.mem_append] at hc
    rcases hc with (hc | hc) | hc
    · exact h c (List.mem_filter.mp hc).1
    · have := mem_cellsFrom hc
      omega
    · exact h c (List.mem_filter.mp hc).1

/-- The second of two writes of the same bytes to the same place changes nothing. -/
theorem put_put_same (m : Memory) (a : Nat) (bs : List Byte) :
    Memory.put (Memory.put m a bs) a bs = Memory.put m a bs := by
  cases bs with
  | nil => rfl
  | cons b bs =>
    have hcells : ∀ c ∈ Memory.cellsFrom a (b :: bs), a ≤ c.1 ∧ c.1 < a + (bs.length + 1) := fun c hc => by
      simpa using mem_cellsFrom hc
    simp only [Memory.put, List.filter_append, List.filter_filter]
    have e1 : (Memory.cellsFrom a (b :: bs)).filter (fun c => decide (c.1 < a)) = [] := by
      rw [List.filter_eq_nil_iff]; intro c hc; have := hcells c hc; simp; omega
    have e2 : (Memory.cellsFrom a (b :: bs)).filter (fun c => decide (a + (bs.length + 1) ≤ c.1)) = [] := by
      rw [List.filter_eq_nil_iff]; intro c hc; have := hcells c hc; simp; omega
    have e3 : m.filter (fun c => decide (c.1 < a) && decide (a + (bs.length + 1) ≤ c.1)) = [] := by
      rw [List.filter_eq_nil_iff]; intro c _; simp; omega
    have e4 : m.filter (fun c => decide (a + (bs.length + 1) ≤ c.1) && decide (c.1 < a)) = [] := by
      rw [List.filter_eq_nil_iff]; intro c _; simp; omega
    simp only [e1, e2, e3, e4, List.append_nil, List.nil_append, Bool.and_self]

/-! ## Buffers -/

/-- READ AFTER WRITE, through the buffer's read of one byte. -/
theorem read_writeBytes (b : Buffer) (a : Nat) (bs : List Byte) (i : Nat) :
    (b.writeBytes a bs).read i = if a ≤ i ∧ i < a + bs.length then byteAt bs (i - a) else b.read i := by
  simp only [Buffer.read, writeBytes_cells, writeBytes_fill, get?_put]
  by_cases h : a ≤ i ∧ i < a + bs.length
  · have hl : i - a < bs.length := by omega
    simp [h, byteAt, hl]
  · simp [h]

/-- A byte of an unwritten buffer is the unspecified reset content (R49). -/
@[simp] theorem read_unwritten (fill i : Nat) : (Buffer.unwritten fill).read i = Config.resetByte fill i := rfl

@[simp] theorem readBytes_length (b : Buffer) (a n : Nat) : (b.readBytes a n).length = n := by
  simp [Buffer.readBytes]

@[simp] theorem readBytes_zero (b : Buffer) (a : Nat) : b.readBytes a 0 = [] := rfl

theorem readBytes_getElem? (b : Buffer) (a n i : Nat) :
    (b.readBytes a n)[i]? = if i < n then some (b.read (a + i)) else none := by
  by_cases h : i < n <;> simp [Buffer.readBytes, h]

theorem byteAt_readBytes (b : Buffer) (a n i : Nat) (h : i < n) : byteAt (b.readBytes a n) i = b.read (a + i) := by
  simp only [byteAt, List.getD_eq_getElem?_getD, readBytes_getElem?, h, if_true, Option.getD_some]

/-- Two buffers whose bytes agree over a range give the same byte sequence. -/
theorem readBytes_congr {b b' : Buffer} {a n : Nat} (h : ∀ i < n, b.read (a + i) = b'.read (a + i)) :
    b.readBytes a n = b'.readBytes a n := by
  simp only [Buffer.readBytes]
  exact List.map_congr_left fun i hi => h i (List.mem_range.mp hi)

/-- Reading back exactly what was written. -/
theorem readBytes_writeBytes (b : Buffer) (a : Nat) (bs : List Byte) :
    (b.writeBytes a bs).readBytes a bs.length = bs := by
  apply List.ext_getElem
  · simp
  · intro i h1 h2
    simp [Buffer.readBytes, read_writeBytes, byteAt, h2]

theorem writeBytes_writeBytes_same (b : Buffer) (a : Nat) (bs : List Byte) :
    (b.writeBytes a bs).writeBytes a bs = b.writeBytes a bs := by
  simp [Buffer.writeBytes, put_put_same]

/-- `MemWrite`, the one operation that changes a buffer, keeps the canonical form and the bound. -/
theorem writeBytes_wf {b : Buffer} {cap : Nat} (h : Memory.wf b.cells ∧ ∀ c ∈ b.cells, c.1 < cap) {a : Nat}
    {bs : List Byte} (hb : a + bs.length ≤ cap) :
    Memory.wf (b.writeBytes a bs).cells ∧ ∀ c ∈ (b.writeBytes a bs).cells, c.1 < cap :=
  ⟨put_wf h.1 a bs, put_bound h.2 hb⟩

/-- The buffers right after reset are in canonical form. -/
theorem reset_memory_wf : ∀ c ∈ State.reset.ctxs,
    Memory.wf c.wbuf.cells ∧ Memory.wf c.pay.cells ∧ Memory.wf c.opt.cells := by decide

end Sys2Proof.Machine
end

