-- ==== Sys2Proof/Laws/Ops.lean ====
section
/-! SUPPORT. What the shared operations of the commands do: running a command on a context, the byte helpers, the
lengths of the serialisations. -/

namespace Sys2Proof.Machine

/-! ## Running a command on a context -/

theorem onContext_of_get {s : State} {x : BitVec 4} {c : Context} (h : s.ctxs[x.toNat]? = some c)
    (body : Context → Except Raised Context) : s.onContext x body = s.putCtx x.toNat (c.settle (body c)) := by
  simp [State.onContext, h]

theorem onContext_of_absent {s : State} {x : BitVec 4} (h : s.nctx ≤ x.toNat)
    (body : Context → Except Raised Context) : s.onContext x body = s.setIll := by
  simp [State.onContext, List.getElem?_eq_none (show s.ctxs.length ≤ x.toNat from h)]

/-- ALL THAT `onContext` CAN DO: set `GERR.ILL` for a context that does not exist, or replace that one context. -/
theorem onContext_cases (s : State) (x : BitVec 4) (body : Context → Except Raised Context) :
    (s.nctx ≤ x.toNat ∧ s.onContext x body = s.setIll) ∨
    ∃ c, s.ctxs[x.toNat]? = some c ∧ s.onContext x body = s.putCtx x.toNat (c.settle (body c)) := by
  cases h : s.ctxs[x.toNat]? with
  | none => exact .inl ⟨by simpa [State.nctx] using h, by simp [State.onContext, h]⟩
  | some c => exact .inr ⟨c, rfl, onContext_of_get h body⟩

@[simp] theorem settle_ok (c c' : Context) : c.settle (.ok c') = c' := rfl
@[simp] theorem settle_error (c : Context) (r : Raised) : c.settle (.error r) = c.raise r := rfl

/-- The context a command runs on exists, or does not. -/
theorem get_of_lt {s : State} {x : Nat} (h : x < s.nctx) : ∃ c, s.ctxs[x]? = some c :=
  ⟨_, List.getElem?_eq_getElem h⟩

/-- Two writes of one context are equal only for equal contexts. -/
theorem putCtx_inj {s : State} {x : Nat} {c d : Context} (h : x < s.nctx) (e : s.putCtx x c = s.putCtx x d) : c = d :=
  Option.some.inj (by rw [← putCtx_get_same h c, e, putCtx_get_same h d])

/-! ## The body of each command -/

/-- What each command does to its context (a host transaction, which is no command, nothing). -/
def commandBody (s : State) : Instr → Context → Except Raised Context
  | .csum _ => csumBody s.config
  | .icmpMkreq _ seq => icmpMkreqBody s.ident s.timeSec s.timeSub seq
  | .icmpEnc _ => icmpEncBody s.config
  | .icmpDec _ => icmpDecBody s.config s.strict
  | .icmpVfy _ => icmpVfyBody s.config
  | .ipMk _ => ipMkBody s.config
  | .ipEnc _ => ipEncBody s.config
  | .ipDec _ => ipDecBody s.config s.strict
  | .ipVfy _ => ipVfyBody s.config
  | .ethMk _ => ethMkBody s.peerEn s.macPeer s.macLocal
  | .ethEnc _ => ethEncBody s.config
  | .ethDec _ => ethDecBody s.config s.strict
  | .regRd _ => .ok
  | .regWr _ _ => .ok
  | .bufRd _ _ _ => .ok
  | .bufWr _ _ _ _ => .ok

/-- A command runs its body on its context. -/
theorem exec_command {i : Instr} {x : BitVec 4} (h : commandContext i = some x) (s : State) :
    exec i s = .next (s.onContext x (commandBody s i)) := by
  cases i <;> cases h <;> rfl

/-- A command on a context that exists replaces that context by what its body makes of it. -/
theorem exec_command_of_get {i : Instr} {x : BitVec 4} (h : commandContext i = some x) {s : State} {c : Context}
    (hc : s.ctxs[x.toNat]? = some c) : exec i s = .next (s.putCtx x.toNat (c.settle (commandBody s i c))) := by
  rw [exec_command h, onContext_of_get hc]

/-- An instruction that names a context is well-formed exactly when that context exists. -/
theorem wf_of_commandContext {i : Instr} {x : BitVec 4} (h : commandContext i = some x) (n : Nat) :
    i.wf n = true ↔ x.toNat < n := by
  cases i <;> cases h <;> simp [Instr.wf]

/-! ## Byte helpers -/

@[simp] theorem be16_length (v : BitVec 16) : (be16 v).length = 2 := rfl
@[simp] theorem be32_length (v : BitVec 32) : (be32 v).length = 4 := rfl
@[simp] theorem be48_length (v : BitVec 48) : (be48 v).length = 6 := rfl
@[simp] theorem be64_length (v : BitVec 64) : (be64 v).length = 8 := rfl

/-- A 16-bit number is its two bytes, the high one first. -/
theorem append_bytes16 (v : BitVec 16) : v.extractLsb' 8 8 ++ v.extractLsb' 0 8 = v := by
  ext i hi
  simp only [BitVec.getElem_append, BitVec.getElem_extractLsb']
  split
  · simp [BitVec.getLsbD_eq_getElem hi]
  · rename_i h
    rw [show 8 + (i - 8) = i by omega, BitVec.getLsbD_eq_getElem hi]

/-- Appending a byte, in numbers. -/
theorem toNat_append_byte {n : Nat} (x : BitVec n) (b : Byte) : (x ++ b).toNat = x.toNat * 256 + b.toNat := by
  rw [BitVec.toNat_append, ← Nat.shiftLeft_add_eq_or_of_lt b.isLt, Nat.shiftLeft_eq]

/-- A 32-bit number from its four bytes (R10). -/
theorem ube_four (a b c d : Byte) : BitVec.ofNat 32 (ube [a, b, c, d]) = a ++ b ++ c ++ d := by
  apply BitVec.eq_of_toNat_eq
  have := a.isLt; have := b.isLt; have := c.isLt; have := d.isLt
  simp only [toNat_append_byte, BitVec.toNat_ofNat, ube, List.foldl_cons, List.foldl_nil]
  omega

/-- A 48-bit number from its six bytes (R10). -/
theorem ube_six (a b c d e f : Byte) : BitVec.ofNat 48 (ube [a, b, c, d, e, f]) = a ++ b ++ c ++ d ++ e ++ f := by
  apply BitVec.eq_of_toNat_eq
  have := a.isLt; have := b.isLt; have := c.isLt; have := d.isLt; have := e.isLt; have := f.isLt
  simp only [toNat_append_byte, BitVec.toNat_ofNat, ube, List.foldl_cons, List.foldl_nil]
  omega

/-! Parts of a byte sequence that was read from a buffer are byte sequences read from it. -/

theorem drop_readBytes (b : Buffer) (a n k : Nat) : (b.readBytes a n).drop k = b.readBytes (a + k) (n - k) := by
  apply List.ext_getElem
  · simp
  · intro i h1 h2
    simp [Buffer.readBytes, Nat.add_assoc]

theorem take_readBytes (b : Buffer) (a n k : Nat) : (b.readBytes a n).take k = b.readBytes a (min k n) := by
  apply List.ext_getElem
  · simp
  · intro i h1 h2
    simp [Buffer.readBytes]

theorem slice_readBytes (b : Buffer) (a : Nat) {n i j : Nat} (h : j ≤ n) :
    slice (b.readBytes a n) i j = b.readBytes (a + i) (j - i) := by
  rw [slice, drop_readBytes, take_readBytes, Nat.min_eq_left (by omega)]

theorem u16At_readBytes (b : Buffer) (a : Nat) {n i : Nat} (h : i + 1 < n) :
    u16At (b.readBytes a n) i = b.read (a + i) ++ b.read (a + i + 1) := by
  rw [u16At, byteAt_readBytes _ _ _ _ (by omega), byteAt_readBytes _ _ _ _ h]; rfl

@[simp] theorem icmpBytes_length (c : Context) (ck : BitVec 16) : (icmpBytes c ck).length = icmpLen c := by
  simp [icmpBytes, icmpLen]; omega

@[simp] theorem ipHdrBytes_length (c : Context) (ck : BitVec 16) :
    (ipHdrBytes c ck).length = 20 + c.ipOptlen.toNat := by
  simp [ipHdrBytes]; omega

@[simp] theorem ethHdrBytes_length (c : Context) : (ethHdrBytes c).length = 14 := rfl

/-! ## A serialisation is the wire format, byte by byte -/

theorem range_map_split {α : Type} (a n : Nat) (f : Nat → α) :
    (List.range (a + n)).map f = (List.range a).map f ++ (List.range n).map fun i => f (a + i) := by
  rw [List.range_add, List.map_append, List.map_map]; rfl

theorem readBytes_eq_map (b : Buffer) (n : Nat) : b.readBytes 0 n = (List.range n).map b.read := by
  simp [Buffer.readBytes]

/-- `IcmpBytes(C, ck)` (R111) is the message of R82. -/
theorem icmpBytes_eq_wire (c : Context) (ck : BitVec 16) :
    icmpBytes c ck = (List.range (icmpLen c)).map (icmpWireByte c ck) := by
  rw [icmpLen, range_map_split, icmpBytes, readBytes_eq_map]
  congr 1
  refine List.map_congr_left fun i _ => ?_
  simp [icmpWireByte, show 8 + i ≠ 1 by omega, show 8 + i ≠ 2 by omega,
    show 8 + i ≠ 3 by omega, show 8 + i ≠ 4 by omega, show 8 + i ≠ 5 by omega, show 8 + i ≠ 6 by omega,
    show 8 + i ≠ 7 by omega]

/-- `IpHdrBytes(C, ck)` (R131) is the header of R84. -/
theorem ipHdrBytes_eq_wire (c : Context) (ck : BitVec 16) :
    ipHdrBytes c ck = (List.range (20 + c.ipOptlen.toNat)).map (ipWireByte c ck) := by
  rw [range_map_split, ipHdrBytes, readBytes_eq_map]
  congr 1
  refine List.map_congr_left fun i _ => ?_
  have h (k : Nat) (hk : k < 20) : 20 + i ≠ k := by omega
  simp [ipWireByte, h, show ¬ 20 + i < 16 by omega]

/-- `EthHdrBytes(C)` (R151) is the header of R81. -/
theorem ethHdrBytes_eq_wire (c : Context) : ethHdrBytes c = (List.range 14).map (ethWireByte c) := rfl

/-- The computed ICMP checksum (R115) is that of the wire format. -/
theorem inetCsum_icmpBytes (c : Context) : inetCsum (icmpBytes c 0) = icmpChecksum c := by
  rw [icmpBytes_eq_wire]; rfl

/-- The computed header checksum (R135) is that of the wire format. -/
theorem inetCsum_ipHdrBytes (c : Context) : inetCsum (ipHdrBytes c 0) = ipChecksum c := by
  rw [ipHdrBytes_eq_wire]; rfl

end Sys2Proof.Machine
end

