-- ==== Sys2Proof/Laws/Codec.lean ====
section
/-! SUPPORT. One lemma per shared operation of the codecs, saying all it can do: the encode procedures, the parse
procedures, the checksum predicates, and the write of an encoded sequence into `WBUF`. -/

namespace Sys2Proof.Machine

/-! ## Encoding -/

/-- `IcmpEncode` (R115): it raises `RANGE` exactly when the payload length exceeds `PAY_CAP`; else the record
changes in `IC_CSUM` alone and the bytes are the wire format. -/
theorem icmpEncode_eq (cfg : Config) (c : Context) : icmpEncode cfg c =
    if cfg.payCap < c.icPlen.toNat then .error ⟨.range, .icmp⟩
    else .ok ({ c with icCsum := icmpChecksum c },
      (List.range (icmpLen c)).map (icmpWireByte c (icmpChecksum c))) := by
  simp only [icmpEncode, icmpBytes_eq_wire]
  rfl

/-- Header, options and message as the datagram of R84. -/
theorem datagram_eq_wire (c : Context) (ipCk icCk : BitVec 16) :
    (List.range (20 + c.ipOptlen.toNat)).map (ipWireByte c ipCk) ++ (List.range (icmpLen c)).map (icmpWireByte c icCk) =
      (List.range (ipLen c)).map (datagramWireByte c ipCk icCk) := by
  rw [ipLen, range_map_split (20 + c.ipOptlen.toNat)]
  congr 1
  · refine List.map_congr_left fun i hi => ?_
    rw [datagramWireByte, if_pos (List.mem_range.mp hi)]
  · refine List.map_congr_left fun i _ => ?_
    rw [datagramWireByte, if_neg (by omega), Nat.add_sub_cancel_left]

/-- `IpEncode` (R137): the option length is tested first, then the payload length; else `IC_CSUM` alone changes and
the bytes are the wire format with the header as stored. -/
theorem ipEncode_eq (cfg : Config) (c : Context) : ipEncode cfg c =
    if cfg.optMax < c.ipOptlen.toNat then .error ⟨.range, .ip⟩
    else if cfg.payCap < c.icPlen.toNat then .error ⟨.range, .icmp⟩
    else .ok ({ c with icCsum := icmpChecksum c },
      (List.range (ipLen c)).map (datagramWireByte c c.ipCsum (icmpChecksum c))) := by
  rw [ipEncode, icmpEncode_eq, ← datagram_eq_wire]
  by_cases h : cfg.optMax < c.ipOptlen.toNat
  · rw [if_pos h, if_pos h]
  · rw [if_neg h, if_neg h]
    by_cases h2 : cfg.payCap < c.icPlen.toNat
    · rw [if_pos h2, if_pos h2]
    · rw [if_neg h2, if_neg h2]
      simp only [ipHdrBytes_eq_wire]
      rfl

/-- The Ethernet header before a datagram makes the frame of R81. -/
theorem frame_eq_wire (c : Context) (ipCk icCk : BitVec 16) :
    ethHdrBytes c ++ (List.range (ipLen c)).map (datagramWireByte c ipCk icCk) =
      (List.range (ethLen c)).map (frameWireByte c ipCk icCk) := by
  rw [ethHdrBytes_eq_wire, ethLen, range_map_split]
  congr 1
  refine List.map_congr_left fun i _ => ?_
  rw [frameWireByte, if_neg (by omega), Nat.add_sub_cancel_left]

/-- What stands in `WBUF` after an encoded sequence was written there: its bytes, then what stood there before. -/
theorem emit_read (c : Context) (n : Nat) (f : Nat → Byte) (i : Nat) :
    (emit c ((List.range n).map f)).wbuf.read i = if i < n then f i else c.wbuf.read i := by
  simp only [emit, read_writeBytes, List.length_map, List.length_range, Nat.zero_le, true_and, Nat.zero_add, Nat.sub_zero]
  split
  · rename_i h
    simp [byteAt, h]
  · rfl

/-! ## Parsing bytes that were read from a buffer -/

/-- `IcmpCsumOk` (R116) of the `n` bytes at offset `a`. -/
theorem icmpCsumOk_iff (b : Buffer) (a : Nat) {n : Nat} (h : 8 ≤ n) :
    icmpCsumOk (b.readBytes a n) = true ↔ IcmpWireOk b.read a (a + n) := by
  rw [icmpCsumOk, IcmpWireOk, beq_iff_eq, u16At_readBytes _ _ (by omega), slice_readBytes _ _ (by omega),
    drop_readBytes]
  suffices e : b.readBytes (a + 0) (2 - 0) ++ [0, 0] ++ b.readBytes (a + 4) (n - 4) =
      (List.range (a + n - a)).map fun i => if i = 2 ∨ i = 3 then 0 else b.read (a + i) by rw [e]
  rw [show a + n - a = 4 + (n - 4) by omega, range_map_split, show (2 - 0) = 2 from rfl]
  congr 1
  refine List.map_congr_left fun i _ => ?_
  rw [if_neg (by omega), Nat.add_assoc]

/-- `IpCsumOk` (R139) of the 20 bytes at offset `a`. -/
theorem ipCsumOk_iff (b : Buffer) (a : Nat) : ipCsumOk (b.readBytes a 20) = true ↔ IpWireOk b.read a := by
  rw [ipCsumOk, IpWireOk, beq_iff_eq, u16At_readBytes _ _ (by omega), slice_readBytes _ _ (by omega),
    slice_readBytes _ _ (by omega)]
  rfl

/-- A 4-byte field of bytes read from a buffer. -/
theorem address_readBytes (b : Buffer) (a : Nat) {n i : Nat} (h : i + 4 ≤ n) :
    BitVec.ofNat 32 (ube (slice (b.readBytes a n) i (i + 4))) =
      b.read (a + i) ++ b.read (a + i + 1) ++ b.read (a + i + 2) ++ b.read (a + i + 3) := by
  rw [slice_readBytes _ _ h, Nat.add_sub_cancel_left]
  exact ube_four _ _ _ _

/-- A 6-byte field of bytes read from a buffer. -/
theorem mac_readBytes (b : Buffer) (a : Nat) {n i : Nat} (h : i + 6 ≤ n) :
    BitVec.ofNat 48 (ube (slice (b.readBytes a n) i (i + 6))) =
      b.read (a + i) ++ b.read (a + i + 1) ++ b.read (a + i + 2) ++ b.read (a + i + 3) ++ b.read (a + i + 4)
        ++ b.read (a + i + 5) := by
  rw [slice_readBytes _ _ h, Nat.add_sub_cancel_left]
  exact ube_six _ _ _ _ _ _

/-- `IcmpDecode` (R116) of the `n` bytes at offset `a`: too short, or the ICMP record of them and nothing else. -/
theorem icmpDecode_cases (c : Context) (b : Buffer) (a n : Nat) (hn : n ≤ 65535) :
    (n < 8 ∧ icmpDecode c (b.readBytes a n) = .error ⟨.truncated, .icmp⟩) ∨
    (8 ≤ n ∧ ∃ c', icmpDecode c (b.readBytes a n) = .ok c' ∧ IcmpParsed b.read a (a + n) c c' ∧
      c' = { c with icType := c'.icType, icCode := c'.icCode, icCsum := c'.icCsum, icId := c'.icId,
                    icSeq := c'.icSeq, icPlen := c'.icPlen, pay := c'.pay }) := by
  by_cases h : n < 8
  · exact .inl ⟨h, by rw [icmpDecode, if_pos (by simpa [icmpMin] using h)]⟩
  · refine .inr ⟨by omega, _, by rw [icmpDecode, if_neg (by simpa [icmpMin] using h)], ?_, rfl⟩
    refine ⟨byteAt_readBytes _ _ _ _ (by omega), byteAt_readBytes _ _ _ _ (by omega),
      u16At_readBytes _ _ (by omega), u16At_readBytes _ _ (by omega), u16At_readBytes _ _ (by omega), ?_, ?_⟩
    · simp [icmpMin]; omega
    · intro i
      simp only [read_writeBytes, drop_readBytes, readBytes_length, icmpMin]
      by_cases hi : i < n - 8
      · rw [if_pos (by omega), if_pos (by omega), byteAt_readBytes _ _ _ _ (by omega)]; rfl
      · rw [if_neg (by omega), if_neg (by omega)]

/-- `IpDecode` (R139) of the `n` bytes at offset `a`: too short for either layer, or the two records of them and
nothing else. -/
theorem ipDecode_cases (c : Context) (b : Buffer) (a n : Nat) (hn : n ≤ 65535) :
    (n < 20 ∧ ipDecode c (b.readBytes a n) = .error ⟨.truncated, .ip⟩) ∨
    (20 ≤ n ∧ n < 28 ∧ ipDecode c (b.readBytes a n) = .error ⟨.truncated, .icmp⟩) ∨
    (28 ≤ n ∧ ∃ c', ipDecode c (b.readBytes a n) = .ok c' ∧ IpParsed b.read a c' ∧
      IcmpParsed b.read (a + 20) (a + n) c c' ∧
      c' = { c' with status := c.status, csumRes := c.csumRes, wlen := c.wlen, ethDst := c.ethDst,
                     ethSrc := c.ethSrc, ethType := c.ethType, wbuf := c.wbuf, opt := c.opt }) := by
  by_cases h : n < 20
  · exact .inl ⟨h, by rw [ipDecode, if_pos (by simpa [ipMin] using h)]⟩
  · right
    rw [ipDecode, if_neg (by simpa [ipMin] using h), drop_readBytes]
    rcases icmpDecode_cases { c with
        ipVihl := byteAt (b.readBytes a n) 0
        ipTos := byteAt (b.readBytes a n) 1
        ipTlen := u16At (b.readBytes a n) 2
        ipId := u16At (b.readBytes a n) 4
        ipFlfr := u16At (b.readBytes a n) 6
        ipTtl := byteAt (b.readBytes a n) 8
        ipProto := byteAt (b.readBytes a n) 9
        ipCsum := u16At (b.readBytes a n) 10
        ipSrc := BitVec.ofNat 32 (ube (slice (b.readBytes a n) 12 16))
        ipDst := BitVec.ofNat 32 (ube (slice (b.readBytes a n) 16 20))
        ipOptlen := 0 } b (a + ipMin) (n - ipMin) (by omega) with ⟨h8, e⟩ | ⟨h8, c', e, hp, hf⟩
    · simp only [ipMin] at h8
      exact .inl ⟨by omega, by omega, e⟩
    · simp only [ipMin] at h8 hp
      refine .inr ⟨by omega, c', e, ?_, ?_, ?_⟩
      · rw [hf]
        refine ⟨byteAt_readBytes _ _ _ _ (by omega), byteAt_readBytes _ _ _ _ (by omega),
          u16At_readBytes _ _ (by omega), u16At_readBytes _ _ (by omega), u16At_readBytes _ _ (by omega),
          byteAt_readBytes _ _ _ _ (by omega), byteAt_readBytes _ _ _ _ (by omega),
          u16At_readBytes _ _ (by omega), address_readBytes _ _ (by omega), address_readBytes _ _ (by omega), rfl⟩
      · rw [show a + 20 + (n - 20) = a + n by omega] at hp
        exact hp
      · rw [hf]

/-- The parse of a frame (R156) of `n` bytes from offset 0: too short for one of the layers, or the three records of
them and nothing else. -/
theorem ethDecode_cases (c : Context) (b : Buffer) (n : Nat) (hn : n ≤ 65535) :
    (n < 14 ∧ ethDecode c (b.readBytes 0 n) = .error ⟨.truncated, .eth⟩) ∨
    (14 ≤ n ∧ n < 34 ∧ ethDecode c (b.readBytes 0 n) = .error ⟨.truncated, .ip⟩) ∨
    (34 ≤ n ∧ n < 42 ∧ ethDecode c (b.readBytes 0 n) = .error ⟨.truncated, .icmp⟩) ∨
    (42 ≤ n ∧ ∃ c', ethDecode c (b.readBytes 0 n) = .ok c' ∧ EthParsed b.read c' ∧ IpParsed b.read 14 c' ∧
      IcmpParsed b.read 34 n c c' ∧
      c' = { c' with status := c.status, csumRes := c.csumRes, wlen := c.wlen, wbuf := c.wbuf, opt := c.opt }) := by
  by_cases h : n < 14
  · exact .inl ⟨h, by rw [ethDecode, if_pos (by simpa [ethMin] using h)]⟩
  · right
    rw [ethDecode, if_neg (by simpa [ethMin] using h), drop_readBytes]
    rcases ipDecode_cases { c with
        ethDst := BitVec.ofNat 48 (ube (slice (b.readBytes 0 n) 0 6))
        ethSrc := BitVec.ofNat 48 (ube (slice (b.readBytes 0 n) 6 12))
        ethType := u16At (b.readBytes 0 n) 12 } b (0 + ethMin) (n - ethMin) (by omega) with
      ⟨h1, e⟩ | ⟨h1, h2, e⟩ | ⟨h1, c', e, hi, hm, hf⟩
    · simp only [ethMin] at h1
      exact .inl ⟨by omega, by omega, e⟩
    · simp only [ethMin] at h1 h2
      exact .inr (.inl ⟨by omega, by omega, e⟩)
    · simp only [ethMin] at h1 hi hm
      refine .inr (.inr ⟨by omega, c', e, ?_, hi, ?_, ?_⟩)
      · rw [hf]
        exact ⟨mac_readBytes b 0 (i := 0) (by omega), mac_readBytes b 0 (i := 6) (by omega),
          u16At_readBytes b 0 (i := 12) (by omega)⟩
      · rw [show 0 + 14 + (n - 14) = n by omega] at hm
        exact hm
      · rw [hf]

/-- The strict checks (R141, R157) of header and message at offsets `a` and `a + 20`: passed, or the outer layer's
mismatch, or the inner one's. -/
theorem strictChecks_cases (strict : Bool) (b : Buffer) (a : Nat) {n : Nat} (h : 28 ≤ n) (c : Context) :
    ((strict = true → IpWireOk b.read a ∧ IcmpWireOk b.read (a + 20) (a + n)) ∧
      strictChecks strict (b.readBytes a n) c = .ok c) ∨
    (strict = true ∧ ¬ IpWireOk b.read a ∧
      strictChecks strict (b.readBytes a n) c = .error ⟨.csumMismatch, .ip⟩) ∨
    (strict = true ∧ IpWireOk b.read a ∧ ¬ IcmpWireOk b.read (a + 20) (a + n) ∧
      strictChecks strict (b.readBytes a n) c = .error ⟨.csumMismatch, .icmp⟩) := by
  have h1 := ipCsumOk_iff b a
  have h2 := icmpCsumOk_iff b (a + 20) (show 8 ≤ n - 20 by omega)
  rw [show a + 20 + (n - 20) = a + n by omega] at h2
  rw [strictChecks, slice_readBytes _ _ (by omega), drop_readBytes]
  cases strict with
  | false => exact .inl ⟨fun h => Bool.noConfusion h, rfl⟩
  | true =>
    cases e1 : ipCsumOk (b.readBytes a 20) with
    | false => exact .inr (.inl ⟨rfl, fun h => Bool.noConfusion (e1.symm.trans (h1.mpr h)), rfl⟩)
    | true =>
      cases e2 : icmpCsumOk (b.readBytes (a + 20) (n - 20)) with
      | false => exact .inr (.inr ⟨rfl, h1.mp e1, fun h => Bool.noConfusion (e2.symm.trans (h2.mpr h)), rfl⟩)
      | true => exact .inl ⟨fun _ => ⟨h1.mp e1, h2.mp e2⟩, rfl⟩

end Sys2Proof.Machine
end

