-- ==== Sys2Proof/Laws/Decode.lean ====
section
/-! SUPPORT. The fields of a command word: what they are in a word built from fields, and that they make the word up. -/

namespace Sys2Proof

/-- The fields of an opcode byte. -/
theorem opcode_fields : ∀ p : BitVec 8, (p.setWidth 32 : CmdWord).extractLsb' 0 8 = p ∧
    (p.setWidth 32 : CmdWord).extractLsb' 8 4 = 0 ∧ (p.setWidth 32 : CmdWord).extractLsb' 12 4 = 0 ∧
    (p.setWidth 32 : CmdWord).extractLsb' 16 16 = 0 := by decide

/-- The fields of a context number in its place. -/
theorem ctx_fields : ∀ x : BitVec 4, (x.setWidth 32 <<< 8 : CmdWord).extractLsb' 0 8 = 0 ∧
    (x.setWidth 32 <<< 8 : CmdWord).extractLsb' 8 4 = x ∧ (x.setWidth 32 <<< 8 : CmdWord).extractLsb' 12 4 = 0 ∧
    (x.setWidth 32 <<< 8 : CmdWord).extractLsb' 16 16 = 0 := by decide

/-- The fields of an immediate in its place. -/
theorem imm_fields (m : BitVec 16) : (m.setWidth 32 <<< 16 : CmdWord).extractLsb' 0 8 = 0 ∧
    (m.setWidth 32 <<< 16 : CmdWord).extractLsb' 8 4 = 0 ∧ (m.setWidth 32 <<< 16 : CmdWord).extractLsb' 12 4 = 0 ∧
    (m.setWidth 32 <<< 16 : CmdWord).extractLsb' 16 16 = m := by
  refine ⟨?_, ?_, ?_, ?_⟩ <;> ext i hi <;> simp
  · omega
  · omega
  · omega
  · rw [BitVec.getLsbD_eq_getElem hi, decide_eq_true (by omega : 16 + i < 32), decide_eq_true (by omega : i < 32)]
    rfl

/-- Decoding a word built from an opcode, a context that exists and an immediate. -/
theorem decodeCommand_word {n : Nat} (p : BitVec 8) {x : BitVec 4} (m : BitVec 16) (hx : x.toNat < n) :
    decodeCommand n (p.setWidth 32 ||| (x.setWidth 32 <<< 8) ||| (m.setWidth 32 <<< 16)) = decodeOpcode p x m := by
  obtain ⟨h1, h2, h3, h4⟩ := imm_fields m
  obtain ⟨g1, g2, g3, g4⟩ := ctx_fields x
  obtain ⟨q1, q2, q3, q4⟩ := opcode_fields p
  simp only [decodeCommand, CmdWord.zero, CmdWord.ctx, CmdWord.opcode, CmdWord.imm, BitVec.extractLsb'_or, h1, h2, h3,
    h4, g1, g2, g3, g4, q1, q2, q3, q4]
  simp [Nat.not_le.mpr hx]

/-- Decoding the word of a command without an immediate. -/
theorem decodeCommand_commandWord {n : Nat} (p : BitVec 8) {x : BitVec 4} (hx : x.toNat < n) :
    decodeCommand n (commandWord (p.setWidth 32) x) = decodeOpcode p x 0 := by
  have h := decodeCommand_word p 0 hx
  have h0 : ((0 : BitVec 16).setWidth 32 <<< 16 : CmdWord) = 0#32 := rfl
  rwa [h0, BitVec.or_zero] at h

/-- A word whose ZERO field is 0 is made up of its three other fields. -/
theorem word_of_fields {w : CmdWord} (h : CmdWord.zero w = 0) :
    w = (CmdWord.opcode w).setWidth 32 ||| ((CmdWord.ctx w).setWidth 32 <<< 8)
      ||| ((CmdWord.imm w).setWidth 32 <<< 16) := by
  have h' : ∀ j < 4, w.getLsbD (12 + j) = false := by
    intro j hj
    have := congrArg (fun v => v.getLsbD j) h
    simpa [CmdWord.zero, hj] using this
  refine BitVec.eq_of_getLsbD_eq fun i hi => ?_
  simp only [CmdWord.opcode, CmdWord.ctx, CmdWord.imm, BitVec.getLsbD_or, BitVec.getLsbD_setWidth,
    BitVec.getLsbD_shiftLeft, BitVec.getLsbD_extractLsb', hi, decide_true, Bool.true_and]
  by_cases h1 : i < 8
  · simp [h1, show i < 16 by omega]
  by_cases h2 : i < 12
  · simp [h1, show i < 16 by omega, show i - 8 < 4 by omega, show 8 + (i - 8) = i by omega,
      show i - 8 < 32 by omega]
  by_cases h3 : i < 16
  · have h4 := h' (i - 12) (by omega)
    rw [show 12 + (i - 12) = i by omega] at h4
    simp [h1, h3, h4, show ¬ i - 8 < 4 by omega]
  · simp [h1, h3, show ¬ i - 8 < 4 by omega, show i - 16 < 16 by omega, show 16 + (i - 16) = i by omega,
      show i - 16 < 32 by omega]

theorem ite_eq_cases {α : Type} {p : Prop} [Decidable p] {a b r : α} (h : (if p then a else b) = r) :
    (p ∧ a = r) ∨ (¬p ∧ b = r) := by
  by_cases hp : p
  · exact .inl ⟨hp, by rwa [if_pos hp] at h⟩
  · exact .inr ⟨hp, by rwa [if_neg hp] at h⟩

theorem withoutImm_ok {m : BitVec 16} {i j : Instr} (h : withoutImm m j = .ok i) : m = 0 ∧ i = j := by
  rcases ite_eq_cases h with ⟨hm, h⟩ | ⟨_, h⟩
  · exact ⟨hm, (Except.ok.inj h).symm⟩
  · cases h

/-- ALL THAT THE OPCODE MAP CAN ANSWER: one of the twelve commands, each for its own opcode and, but for
`ICMP_MKREQ`, an immediate of 0. -/
theorem decodeOpcode_ok {p : BitVec 8} {x : BitVec 4} {m : BitVec 16} {i : Instr} (h : decodeOpcode p x m = .ok i) :
    (p = 0x10 ∧ i = .icmpMkreq x m) ∨ (m = 0 ∧
      ((p = 0x00 ∧ i = .csum x) ∨ (p = 0x11 ∧ i = .icmpEnc x) ∨ (p = 0x12 ∧ i = .icmpDec x) ∨
        (p = 0x13 ∧ i = .icmpVfy x) ∨ (p = 0x20 ∧ i = .ipMk x) ∨ (p = 0x21 ∧ i = .ipEnc x) ∨
        (p = 0x22 ∧ i = .ipDec x) ∨ (p = 0x23 ∧ i = .ipVfy x) ∨ (p = 0x30 ∧ i = .ethMk x) ∨
        (p = 0x31 ∧ i = .ethEnc x) ∨ (p = 0x32 ∧ i = .ethDec x))) := by
  rcases ite_eq_cases h with ⟨hp, h⟩ | ⟨_, h⟩
  · exact .inr ⟨(withoutImm_ok h).1, .inl ⟨hp, (withoutImm_ok h).2⟩⟩
  rcases ite_eq_cases h with ⟨hp, h⟩ | ⟨_, h⟩
  · exact .inl ⟨hp, (Except.ok.inj h).symm⟩
  rcases ite_eq_cases h with ⟨hp, h⟩ | ⟨_, h⟩
  · exact .inr ⟨(withoutImm_ok h).1, .inr (.inl ⟨hp, (withoutImm_ok h).2⟩)⟩
  rcases ite_eq_cases h with ⟨hp, h⟩ | ⟨_, h⟩
  · exact .inr ⟨(withoutImm_ok h).1, .inr (.inr (.inl ⟨hp, (withoutImm_ok h).2⟩))⟩
  rcases ite_eq_cases h with ⟨hp, h⟩ | ⟨_, h⟩
  · exact .inr ⟨(withoutImm_ok h).1, .inr (.inr (.inr (.inl ⟨hp, (withoutImm_ok h).2⟩)))⟩
  rcases ite_eq_cases h with ⟨hp, h⟩ | ⟨_, h⟩
  · exact .inr ⟨(withoutImm_ok h).1, .inr (.inr (.inr (.inr (.inl ⟨hp, (withoutImm_ok h).2⟩))))⟩
  rcases ite_eq_cases h with ⟨hp, h⟩ | ⟨_, h⟩
  · exact .inr ⟨(withoutImm_ok h).1, .inr (.inr (.inr (.inr (.inr (.inl ⟨hp, (withoutImm_ok h).2⟩)))))⟩
  rcases ite_eq_cases h with ⟨hp, h⟩ | ⟨_, h⟩
  · exact .inr ⟨(withoutImm_ok h).1, .inr (.inr (.inr (.inr (.inr (.inr (.inl ⟨hp, (withoutImm_ok h).2⟩))))))⟩
  rcases ite_eq_cases h with ⟨hp, h⟩ | ⟨_, h⟩
  · exact .inr ⟨(withoutImm_ok h).1, .inr (.inr (.inr (.inr (.inr (.inr (.inr (.inl ⟨hp, (withoutImm_ok h).2⟩)))))))⟩
  rcases ite_eq_cases h with ⟨hp, h⟩ | ⟨_, h⟩
  · exact .inr ⟨(withoutImm_ok h).1, .inr (.inr (.inr (.inr (.inr (.inr (.inr (.inr (.inl ⟨hp, (withoutImm_ok h).2⟩))))))))⟩
  rcases ite_eq_cases h with ⟨hp, h⟩ | ⟨_, h⟩
  · exact .inr ⟨(withoutImm_ok h).1, .inr (.inr (.inr (.inr (.inr (.inr (.inr (.inr (.inr (.inl ⟨hp, (withoutImm_ok h).2⟩)))))))))⟩
  rcases ite_eq_cases h with ⟨hp, h⟩ | ⟨_, h⟩
  · exact .inr ⟨(withoutImm_ok h).1, .inr (.inr (.inr (.inr (.inr (.inr (.inr (.inr (.inr (.inr ⟨hp, (withoutImm_ok h).2⟩)))))))))⟩
  cases h

/-- ALL THAT THE DECODER CAN ANSWER: the word's ZERO field is 0, its context exists, and its opcode has the
command. -/
theorem decodeCommand_ok {n : Nat} {w : CmdWord} {i : Instr} :
    decodeCommand n w = .ok i ↔ CmdWord.zero w = 0 ∧ (CmdWord.ctx w).toNat < n ∧
      decodeOpcode (CmdWord.opcode w) (CmdWord.ctx w) (CmdWord.imm w) = .ok i := by
  unfold decodeCommand
  by_cases h1 : CmdWord.zero w = 0
  · by_cases h2 : n ≤ (CmdWord.ctx w).toNat
    · simp [h1, h2]
    · simp [h1, h2, Nat.lt_of_not_le h2]
  · rw [if_pos h1]
    exact ⟨fun h => (nomatch h), fun h => absurd h.1 h1⟩

end Sys2Proof
end

