-- ==== Sys2Proof/Laws/PerInstr.lean ====
section
/-! SUPPORT. Statements about every instruction as syntax, one lemma per constructor.
`TableRow`: the word of an instruction that has one shows the match bits of its row of spec/opcode_table.json
under that row's mask, and carries the context number in its field CTX. -/

namespace Sys2Proof.Laws.TableRow

/-- The columns `match` and `mask` of an instruction's row; a host transaction's row has none. -/
def row : Instr → Option (CmdWord × CmdWord)
  | .csum _ => some (0x00000000, 0xFFFFF0FF)
  | .icmpMkreq _ _ => some (0x00000010, 0x0000F0FF)
  | .icmpEnc _ => some (0x00000011, 0xFFFFF0FF)
  | .icmpDec _ => some (0x00000012, 0xFFFFF0FF)
  | .icmpVfy _ => some (0x00000013, 0xFFFFF0FF)
  | .ipMk _ => some (0x00000020, 0xFFFFF0FF)
  | .ipEnc _ => some (0x00000021, 0xFFFFF0FF)
  | .ipDec _ => some (0x00000022, 0xFFFFF0FF)
  | .ipVfy _ => some (0x00000023, 0xFFFFF0FF)
  | .ethMk _ => some (0x00000030, 0xFFFFF0FF)
  | .ethEnc _ => some (0x00000031, 0xFFFFF0FF)
  | .ethDec _ => some (0x00000032, 0xFFFFF0FF)
  | .regRd _ => none
  | .regWr _ _ => none
  | .bufRd _ _ _ => none
  | .bufWr _ _ _ _ => none

/-- An instruction has a word exactly when its row has match bits, and the word shows them. -/
def Statement (i : Instr) : Prop := (encodeCommand i).isSome = (row i).isSome ∧
  ∀ w m, encodeCommand i = some w → row i = some m → w &&& m.2 = m.1

/-- A command without an immediate: the context bits lie outside the mask. -/
theorem masked (p : CmdWord) (x : BitVec 4) (hp : p &&& 0xFFFFF0FF#32 = p) :
    commandWord p x &&& 0xFFFFF0FF#32 = p := by
  have hx : (x.setWidth 32 <<< 8) &&& 0xFFFFF0FF#32 = 0 := by revert x; decide
  rw [commandWord, BitVec.and_comm, BitVec.and_or_distrib_left, BitVec.and_comm _ p, hp,
    BitVec.and_comm _ (x.setWidth 32 <<< 8), hx]
  simp

/-- From the equation for the one word and the one row to the statement. -/
theorem of_word {i : Instr} {w : CmdWord} {m : CmdWord × CmdWord} (hw : encodeCommand i = some w)
    (hm : row i = some m) (h : w &&& m.2 = m.1) : Statement i :=
  ⟨by rw [hw, hm]; rfl, fun w' m' hw' hm' => by cases hw.symm.trans hw'; cases hm.symm.trans hm'; exact h⟩

theorem csum (x : BitVec 4) : Statement (.csum x) := of_word rfl rfl (masked _ x (by decide))

theorem icmpMkreq (x : BitVec 4) (seq : BitVec 16) : Statement (.icmpMkreq x seq) := by
  refine of_word rfl rfl ?_
  have hx : (0x00000010#32 ||| (x.setWidth 32 <<< 8)) &&& 0x0000F0FF#32 = 0x00000010#32 := by revert x; decide
  have hs : (seq.setWidth 32 <<< 16) &&& 0x0000F0FF#32 = 0#32 := by
    apply BitVec.eq_of_toNat_eq
    have hm : (0x0000F0FF#32).toNat = 0xF0FF := rfl
    rw [BitVec.toNat_and, BitVec.toNat_shiftLeft, hm]
    have h1 : (0xF0FF : Nat) < 2 ^ 16 := by decide
    apply Nat.eq_of_testBit_eq
    intro i
    rw [Nat.testBit_and]
    rcases Nat.lt_or_ge i 16 with h | h
    · rw [Nat.testBit_mod_two_pow, Nat.testBit_shiftLeft]
      simp [show ¬ 16 ≤ i by omega]
    · rw [Nat.testBit_lt_two_pow (Nat.lt_of_lt_of_le h1 (Nat.pow_le_pow_right (by decide) h))]
      simp
  show (commandWord 0x00000010 x ||| (seq.setWidth 32 <<< 16)) &&& 0x0000F0FF#32 = 0x00000010#32
  rw [BitVec.and_comm, BitVec.and_or_distrib_left, BitVec.and_comm _ (commandWord _ x),
    BitVec.and_comm _ (seq.setWidth 32 <<< 16), hs, BitVec.or_zero]
  exact hx

theorem icmpEnc (x : BitVec 4) : Statement (.icmpEnc x) := of_word rfl rfl (masked _ x (by decide))
theorem icmpDec (x : BitVec 4) : Statement (.icmpDec x) := of_word rfl rfl (masked _ x (by decide))
theorem icmpVfy (x : BitVec 4) : Statement (.icmpVfy x) := of_word rfl rfl (masked _ x (by decide))
theorem ipMk (x : BitVec 4) : Statement (.ipMk x) := of_word rfl rfl (masked _ x (by decide))
theorem ipEnc (x : BitVec 4) : Statement (.ipEnc x) := of_word rfl rfl (masked _ x (by decide))
theorem ipDec (x : BitVec 4) : Statement (.ipDec x) := of_word rfl rfl (masked _ x (by decide))
theorem ipVfy (x : BitVec 4) : Statement (.ipVfy x) := of_word rfl rfl (masked _ x (by decide))
theorem ethMk (x : BitVec 4) : Statement (.ethMk x) := of_word rfl rfl (masked _ x (by decide))
theorem ethEnc (x : BitVec 4) : Statement (.ethEnc x) := of_word rfl rfl (masked _ x (by decide))
theorem ethDec (x : BitVec 4) : Statement (.ethDec x) := of_word rfl rfl (masked _ x (by decide))

/-- An instruction without a word and without match bits. -/
theorem of_none {i : Instr} (hw : encodeCommand i = none) (hm : row i = none) : Statement i :=
  ⟨by rw [hw, hm]; rfl, fun w m h => by rw [hw] at h; cases h⟩

theorem regRd (idx : BitVec 8) : Statement (.regRd idx) := of_none rfl rfl
theorem regWr (idx : BitVec 8) (v : Data) : Statement (.regWr idx v) := of_none rfl rfl
theorem bufRd (x : BitVec 4) (sel : BitVec 2) (off : BitVec 16) : Statement (.bufRd x sel off) := of_none rfl rfl
theorem bufWr (x : BitVec 4) (sel : BitVec 2) (off : BitVec 16) (d : Byte) : Statement (.bufWr x sel off d) :=
  of_none rfl rfl

end Sys2Proof.Laws.TableRow
end

