-- ==== Sys2Proof/Laws/Port.lean ====
section
/-! SUPPORT. What the shared operations of the host port can do: finding a buffer byte, taking an input, an illegal
command word, the register map. -/

namespace Sys2Proof.Machine

/-- What a buffer transaction finds: the context and the buffer it names, when its offset lies below the capacity. -/
theorem bufferAt_eq_some_iff (s : State) (x : BitVec 4) (sel : BitVec 2) (off : BitVec 16) (c : Context) (b : BufName) :
    s.bufferAt x sel off = some (c, b) ↔
      s.ctxs[x.toNat]? = some c ∧ bufSelected sel = some b ∧ off.toNat < bufCapacity s.config b := by
  unfold State.bufferAt
  cases hc : s.ctxs[x.toNat]? with
  | none => simp
  | some d =>
    cases hb : bufSelected sel with
    | none => simp
    | some e =>
      by_cases h : off.toNat < bufCapacity s.config e
      · simp only [h, if_true, Option.some.injEq, Prod.mk.injEq]
        constructor
        · rintro ⟨rfl, rfl⟩; exact ⟨rfl, rfl, h⟩
        · rintro ⟨rfl, rfl, -⟩; exact ⟨rfl, rfl⟩
      · simp only [h, if_false, Option.some.injEq]
        constructor
        · intro h'; cases h'
        · rintro ⟨-, rfl, h'⟩; exact absurd h' h

/-- A buffer transaction finds nothing exactly when it is out of range (R178). -/
theorem bufferAt_eq_none_iff (s : State) (x : BitVec 4) (sel : BitVec 2) (off : BitVec 16) :
    s.bufferAt x sel off = none ↔ ¬ InRange s x sel off := by
  have hs : sel = 0 ∨ sel = 1 ∨ sel = 2 ∨ sel = 3 := by revert sel; decide
  unfold State.bufferAt InRange State.nctx
  by_cases hx : x.toNat < s.ctxs.length
  · simp only [hx, List.getElem?_eq_getElem, true_and]
    have ite_none (p : Prop) [Decidable p] (d : Context × BufName) : (if p then some d else none) = none ↔ ¬ p := by
      split <;> simp [*]
    rcases hs with rfl | rfl | rfl | rfl
    · exact (ite_none _ _).trans (by simp [bufCapacity])
    · exact (ite_none _ _).trans (by simp [bufCapacity, Config.payCap])
    · exact (ite_none _ _).trans (by simp [bufCapacity])
    · simp [bufSelected]
  · simp [hx]

/-- An input is taken from the front, and the last reply is gone (R72). -/
theorem takeInput_cons {s : State} {i : Input} {rest : List Input} (h : s.pending = i :: rest) :
    s.takeInput = some (i, { s with pending := rest, reply := .nothing }) := by
  simp [State.takeInput, h]

theorem takeInput_nil {s : State} (h : s.pending = []) : s.takeInput = none := by simp [State.takeInput, h]

/-- An illegal command word sets `GERR.ILL` (R93). -/
theorem execCommandWord_error {w : CmdWord} {s : State} {e : Illegal} (h : decodeCommand s.nctx w = .error e) :
    execCommandWord w s = .next s.setIll := by simp [execCommandWord, h]

/-- The register at an index of the global part of the map (R24). -/
theorem regRef_global {idx : BitVec 8} {r : GlobalReg} (h : idx.toNat < 0x40) (hr : globalRegAt idx.toNat = some r) :
    regRef idx = .global r := by simp [regRef, h, hr]

/-- The register at an index of the context part of the map (R24). -/
theorem regRef_context {idx : BitVec 8} {r : CtxReg} (h : 0x40 ≤ idx.toNat)
    (hr : ctxRegAt (idx.toNat % 0x40) = some r) : regRef idx = .context (idx.toNat / 0x40 - 1) r := by
  simp [regRef, Nat.not_lt.mpr h, hr]

end Sys2Proof.Machine
end

