-- ==== Sys2Proof/Tests/Slice0.lean ====
section
/-! SUPPORT. The model's own tests. Expected values come from the worked examples and vectors of
spec/95_test_vectors.md (cited as S<n>, V<n> #<m>, P<n>) and from the rules' own examples. First the checks of
WellFormed and Decode, then at most two tests per instruction, then a witness for the hypotheses of every statement
that has some. -/

namespace Sys2Proof.Tests

open Sys2Proof.Machine

/-! ## Helpers -/

/-- A buffer that begins with these bytes. -/
def bytes (bs : List Byte) : Buffer := { fill := 0, cells := Memory.cellsFrom 0 bs }

/-- Context 0 right after reset. -/
def c0 : Context := Context.reset 0

/-- The reset state with context 0 replaced. -/
def one (c : Context) : State := State.reset.putCtx 0 c

/-- What an instruction makes of context `x`. -/
def after (i : Instr) (s : State) (x : Nat) : Option Context :=
  match exec i s with
  | .next t => t.ctxs[x]?
  | .fault _ => none
  | .refused _ => none

/-- What an instruction returns to the host, and the error flags after it. -/
def answer (i : Instr) (s : State) : Option (Reply × BitVec 2) :=
  match exec i s with
  | .next t => some (t.reply, t.gerr)
  | .fault _ => none
  | .refused _ => none

/-! ## WellFormed: the ill-formed term of each check is refused, the largest well-formed one is not -/

theorem test_wf_csum : (Instr.csum 2).wf 2 = false ∧ (Instr.csum 1).wf 2 = true := by decide
theorem test_wf_icmpMkreq : (Instr.icmpMkreq 2 0).wf 2 = false ∧ (Instr.icmpMkreq 1 0xFFFF).wf 2 = true := by decide
theorem test_wf_icmpEnc : (Instr.icmpEnc 2).wf 2 = false ∧ (Instr.icmpEnc 1).wf 2 = true := by decide
theorem test_wf_icmpDec : (Instr.icmpDec 3).wf 3 = false ∧ (Instr.icmpDec 2).wf 3 = true := by decide
theorem test_wf_icmpVfy : (Instr.icmpVfy 1).wf 1 = false ∧ (Instr.icmpVfy 0).wf 1 = true := by decide
theorem test_wf_ipMk : (Instr.ipMk 2).wf 2 = false ∧ (Instr.ipMk 1).wf 2 = true := by decide
theorem test_wf_ipEnc : (Instr.ipEnc 2).wf 2 = false ∧ (Instr.ipEnc 1).wf 2 = true := by decide
theorem test_wf_ipDec : (Instr.ipDec 2).wf 2 = false ∧ (Instr.ipDec 1).wf 2 = true := by decide
theorem test_wf_ipVfy : (Instr.ipVfy 2).wf 2 = false ∧ (Instr.ipVfy 1).wf 2 = true := by decide
theorem test_wf_ethMk : (Instr.ethMk 2).wf 2 = false ∧ (Instr.ethMk 1).wf 2 = true := by decide
theorem test_wf_ethEnc : (Instr.ethEnc 2).wf 2 = false ∧ (Instr.ethEnc 1).wf 2 = true := by decide
theorem test_wf_ethDec : (Instr.ethDec 15).wf 3 = false ∧ (Instr.ethDec 2).wf 3 = true := by decide

/-! ## Decode: each command from a word written out from R90 and R92 (IMM16, ZERO, CTX, UNIT, FN) -/

theorem test_decode_csum : decodeCommand 2 0b00000000000000000000000100000000 = .ok (.csum 1) := by decide
theorem test_decode_icmpMkreq : decodeCommand 2 0b11111111111111110000000100010000 = .ok (.icmpMkreq 1 0xFFFF) := by
  decide
theorem test_decode_icmpEnc : decodeCommand 2 0b00000000000000000000000000010001 = .ok (.icmpEnc 0) := by decide
theorem test_decode_icmpDec : decodeCommand 2 0b00000000000000000000000100010010 = .ok (.icmpDec 1) := by decide
theorem test_decode_icmpVfy : decodeCommand 2 0b00000000000000000000000100010011 = .ok (.icmpVfy 1) := by decide
theorem test_decode_ipMk : decodeCommand 2 0b00000000000000000000000000100000 = .ok (.ipMk 0) := by decide
theorem test_decode_ipEnc : decodeCommand 2 0b00000000000000000000000000100001 = .ok (.ipEnc 0) := by decide
theorem test_decode_ipDec : decodeCommand 2 0b00000000000000000000000100100010 = .ok (.ipDec 1) := by decide
theorem test_decode_ipVfy : decodeCommand 2 0b00000000000000000000000100100011 = .ok (.ipVfy 1) := by decide
theorem test_decode_ethMk : decodeCommand 2 0b00000000000000000000000000110000 = .ok (.ethMk 0) := by decide
theorem test_decode_ethEnc : decodeCommand 3 0b00000000000000000000001000110001 = .ok (.ethEnc 2) := by decide
theorem test_decode_ethDec : decodeCommand 2 0b00000000000000000000000100110010 = .ok (.ethDec 1) := by decide

/-- V5 #10: illegal opcodes. -/
theorem test_illegal_opcodes : decodeCommand 2 0x33 = .error .unknownOpcode ∧
    decodeCommand 2 0x01 = .error .unknownOpcode ∧ decodeCommand 2 0x14 = .error .unknownOpcode ∧
    decodeCommand 2 0x24 = .error .unknownOpcode ∧ decodeCommand 2 0x40 = .error .unknownOpcode ∧
    decodeCommand 2 0xFF = .error .unknownOpcode := by decide

/-- V5 #11: illegal fields. -/
theorem test_illegal_fields : decodeCommand 2 0x00000211 = .error .noSuchContext ∧
    decodeCommand 2 0x00001011 = .error .zeroField ∧ decodeCommand 2 0x00010011 = .error .immediate ∧
    decodeCommand 2 0x00000F00 = .error .noSuchContext := by decide

/-- A host transaction has no bit pattern (spec/opcode_table.json); it is performed as itself. -/
theorem test_transactions_have_no_word : encodeCommand (.regRd 0x40) = none ∧ encodeCommand (.regWr 0x40 1) = none ∧
    encodeCommand (.bufRd 0 0 0) = none ∧ encodeCommand (.bufWr 0 0 0 1) = none ∧
    transactionOf (.bufWr 1 1 0 0xAB) = some (.bufWr 1 1 0 0xAB) := by decide

theorem test_decodeTableWord : decodeTableWord 32 0x00070010 = some (.icmpMkreq 0 7) ∧
    decodeTableWord 32 0x33 = none := by decide

/-- V5 #12, through the fetch: the word is the next input and the step runs it. -/
theorem test_withFetchWord :
    (match step (State.reset.withFetchWord 32 0xFFFF0010) with
      | .next t => (t.ctxs[0]?.map fun c => (c.icType, c.icSeq, c.icPlen, c.status), t.pending)
      | .fault _ => (none, [])
      | .refused _ => (none, [])) = (some (8, 0xFFFF, 12, 0x10), []) := by decide

/-! ## The checksum unit -/

/-- V1 #12. -/
theorem test_csum : (after (.csum 0) (one { c0 with wlen := 8, wbuf := bytes [0x00, 0x01, 0xF2, 0x03, 0xF4, 0xF5, 0xF6, 0xF7] }) 0).map
    (fun c => (c.csumRes, c.status)) = some (0x220D, 0x00) := by decide

/-- V1 #17, the shortest input that needs two folding steps, and V1 #5, an odd tail. -/
theorem test_inetCsum_folds : inetCsum [0xFF, 0xFF, 0xFF, 0xFF, 0x00, 0x01] = 0xFFFE ∧
    inetCsum [0x12, 0x34, 0x56] = 0x97CB := by decide

/-! ## The ICMP echo codec -/

/-- V2 #9. -/
def mkreqState : State := { State.reset with ident := 0x1234, timeSec := 0x65000000, timeSub := 0x075BCD15 }

theorem test_icmpMkreq : (after (.icmpMkreq 0 7) mkreqState 0).map
    (fun c => ((c.icType, c.icCode, c.icCsum, c.icId, c.icSeq, c.icPlen, c.status), c.pay.readBytes 0 12)) =
      some ((8, 0, 0, 0x1234, 7, 12, 0x10),
        [0x00, 0x00, 0x00, 0x00, 0x65, 0x00, 0x00, 0x00, 0x07, 0x5B, 0xCD, 0x15]) := by decide

/-- V2 #2. -/
theorem test_icmpEnc : (after (.icmpEnc 0) (one { c0 with icType := 8, icId := 0xBEEF, icSeq := 0xFFFF, icCsum := 0x5555, icPlen := 3, pay := bytes [1, 2, 3] }) 0).map
    (fun c => (c.icCsum, c.wlen, c.status, c.wbuf.readBytes 0 11)) =
      some (0x350E, 11, 0x10, [0x08, 0x00, 0x35, 0x0E, 0xBE, 0xEF, 0xFF, 0xFF, 0x01, 0x02, 0x03]) := by decide

/-- The message of V2 #12. -/
def message : List Byte := [0x08, 0x00, 0x35, 0x0E, 0xBE, 0xEF, 0xFF, 0xFF, 0x01, 0x02, 0x03]

/-- V2 #12. -/
theorem test_icmpDec : (after (.icmpDec 0) { one { c0 with wlen := 11, wbuf := bytes message } with cfg := 1 } 0).map
    (fun c => ((c.icType, c.icCode, c.icCsum, c.icId), (c.icSeq, c.icPlen, c.status), c.pay.readBytes 0 3)) =
      some ((8, 0, 0x350E, 0xBEEF), (0xFFFF, 3, 0x10), [1, 2, 3]) := by decide

/-- V2 #18, strict: 0x0000 recomputed against 0xFFFF received; the record stays. -/
theorem test_icmpDec_strict : (after (.icmpDec 0) { one { c0 with wlen := 12, wbuf := bytes (List.replicate 12 0xFF) } with cfg := 1 } 0).map
    (fun c => (c.icType, c.icCsum, c.icPlen, c.status)) = some (0, 0, 0, 0x12) := by decide

/-- V2 #22 and #23: 0x0000 and 0xFFFF are different checksums. -/
def allOnes : Context :=
  { c0 with icType := 0xFF, icCode := 0xFF, icId := 0xFFFF, icSeq := 0xFFFF, icPlen := 4, pay := bytes (List.replicate 4 0xFF) }

theorem test_icmpVfy : (after (.icmpVfy 0) (one { allOnes with icCsum := 0x0000 }) 0).map (fun c => (c.csumRes, c.status)) =
    some (0x0000, 0x10) ∧
    (after (.icmpVfy 0) (one { allOnes with icCsum := 0xFFFF }) 0).map (fun c => (c.csumRes, c.status, c.icCsum)) =
      some (0x0000, 0x12, 0xFFFF) := by decide

/-! ## The IPv4 header codec -/

/-- V3 #12, the variant with `IC_PLEN` = 4, and the ICMP record of V3 #17. -/
def options : Context :=
  { c0 with ipId := 0x1C46, ipFlfr := 0x4000, ipTtl := 64, ipProto := 1, ipSrc := 0x0A000001, ipDst := 0x0A000002,
            ipOptlen := 5, opt := bytes [1, 2, 3, 4, 5], icType := 8, icId := 0x1234, icSeq := 1, icPlen := 4,
            pay := bytes [0xDE, 0xAD, 0xBE, 0xEF] }

/-- V3 #12 (S4): five option bytes round up to eight. -/
theorem test_ipMk : (after (.ipMk 0) (one options) 0).map
    (fun c => ((c.ipOptlen, c.ipVihl, c.ipTlen, c.ipCsum, c.status), c.opt.readBytes 0 8)) =
      some ((8, 0x47, 40, 0xFF86, 0x20), [1, 2, 3, 4, 5, 0, 0, 0]) := by decide

/-- V3 #7: the nibble saturates. -/
theorem test_ipMk_saturates : (after (.ipMk 0) (one { c0 with ipTtl := 1, ipProto := 1, ipSrc := 0x01020304, ipDst := 0x05060708, icPlen := 12, ipOptlen := 17, opt := bytes (List.replicate 17 0xAA) }) 0).map
    (fun c => (c.ipOptlen, c.ipVihl, c.ipTlen, c.ipCsum, c.status)) = some (20, 0x49, 60, 0xA658, 0x20) := by decide

/-- The 40 bytes of V3 #17. -/
def datagram : List Byte :=
  [0x47, 0x00, 0x00, 0x28, 0x1C, 0x46, 0x40, 0x00, 0x40, 0x01, 0xFF, 0x86, 0x0A, 0x00, 0x00, 0x01, 0x0A, 0x00, 0x00, 0x02]
    ++ [0x01, 0x02, 0x03, 0x04, 0x05, 0x00, 0x00, 0x00]
    ++ [0x08, 0x00, 0x48, 0x2D, 0x12, 0x34, 0x00, 0x01, 0xDE, 0xAD, 0xBE, 0xEF]

/-- V3 #17. -/
theorem test_ipEnc : (after (.ipEnc 0) (one { options with ipOptlen := 8, opt := bytes [1, 2, 3, 4, 5, 0, 0, 0], ipVihl := 0x47, ipTlen := 40, ipCsum := 0xFF86 }) 0).map
    (fun c => (c.icCsum, c.wlen, c.status, c.wbuf.readBytes 0 40)) = some (0x482D, 40, 0x20, datagram) := by decide

/-- V3 #23, lenient: the options are read as the message. -/
theorem test_ipDec : (after (.ipDec 0) (one { c0 with wlen := 40, wbuf := bytes datagram, ipOptlen := 9 }) 0).map
    (fun c => ((c.ipVihl, c.ipTlen, c.ipId, c.ipFlfr, c.ipTtl, c.ipProto, c.ipCsum), (c.ipSrc, c.ipDst, c.ipOptlen),
      (c.icType, c.icCode, c.icCsum, c.icId, c.icSeq, c.icPlen, c.status))) =
      some ((0x47, 40, 0x1C46, 0x4000, 64, 1, 0xFF86), (0x0A000001, 0x0A000002, 0),
        (1, 2, 0x0304, 0x0500, 0, 12, 0x20)) := by decide

/-- V3 #23, strict: the header checksum over 20 bytes does not hold; the record stays. -/
theorem test_ipDec_strict : (after (.ipDec 0) { one { c0 with wlen := 40, wbuf := bytes datagram, ipOptlen := 9 } with cfg := 1 } 0).map
    (fun c => (c.ipVihl, c.ipOptlen, c.status)) = some (0, 9, 0x22) := by decide

/-- The header of V3 #11. -/
def header : Context :=
  { c0 with ipVihl := 0x45, ipTlen := 40, ipTtl := 64, ipProto := 1, ipSrc := 0xC0A8010A, ipDst := 0xC0A80101,
            ipCsum := 0xF779 }

/-- V3 #28 and #29. -/
theorem test_ipVfy : (after (.ipVfy 0) (one header) 0).map (fun c => (c.csumRes, c.status)) = some (0xF779, 0x20) ∧
    (after (.ipVfy 0) (one { header with ipTtl := 63 }) 0).map (fun c => (c.csumRes, c.status)) =
      some (0xF879, 0x22) := by decide

/-! ## The Ethernet frame codec -/

/-- V4 #1 and #2. -/
theorem test_ethMk : (after (.ethMk 0) { State.reset with macLocal := 0x020000000001 } 0).map
    (fun c => (c.ethDst, c.ethSrc, c.ethType, c.status)) = some (0xFFFFFFFFFFFF, 0x020000000001, 0x0800, 0x30) ∧
    (after (.ethMk 0) { State.reset with macLocal := 0x020000000001, macPeer := 0x0200000000FE, cfg := 2 } 0).map
      (fun c => c.ethDst) = some 0x0200000000FE := by decide

/-- The 54 bytes of V4 #4. -/
def frame : List Byte :=
  [0xFF, 0xFF, 0xFF, 0xFF, 0xFF, 0xFF, 0x02, 0x00, 0x00, 0x00, 0x00, 0x01, 0x08, 0x00]
    ++ [0x45, 0x00, 0x00, 0x28, 0x00, 0x00, 0x00, 0x00, 0x40, 0x01, 0xF7, 0x79, 0xC0, 0xA8, 0x01, 0x0A, 0xC0, 0xA8, 0x01, 0x01]
    ++ [0x08, 0x00, 0xAC, 0x53, 0x12, 0x34, 0x00, 0x07, 0x00, 0x00, 0x00, 0x00, 0x65, 0x00, 0x00, 0x00, 0x07, 0x5B, 0xCD, 0x15]

/-- The three records of V4 #4. -/
def records : Context :=
  { header with ethDst := 0xFFFFFFFFFFFF, ethSrc := 0x020000000001, ethType := 0x0800, icType := 8, icId := 0x1234,
                icSeq := 7, icPlen := 12, pay := bytes [0x00, 0x00, 0x00, 0x00, 0x65, 0x00, 0x00, 0x00, 0x07, 0x5B, 0xCD, 0x15] }

/-- V4 #4. -/
theorem test_ethEnc : (after (.ethEnc 0) (one records) 0).map
    (fun c => (c.icCsum, c.wlen, c.status, c.wbuf.readBytes 0 54)) = some (0xAC53, 54, 0x30, frame) := by decide

/-- V4 #9, strict. -/
theorem test_ethDec : (after (.ethDec 0) { one { c0 with wlen := 54, wbuf := bytes frame } with cfg := 1 } 0).map
    (fun c => ((c.ethDst, c.ethSrc, c.ethType), (c.ipVihl, c.ipTlen, c.ipTtl, c.ipProto, c.ipCsum, c.ipSrc, c.ipDst),
      (c.icType, c.icCsum, c.icId, c.icSeq, c.icPlen, c.status))) =
      some ((0xFFFFFFFFFFFF, 0x020000000001, 0x0800), (0x45, 40, 64, 1, 0xF779, 0xC0A8010A, 0xC0A80101),
        (8, 0xAC53, 0x1234, 7, 12, 0x30)) := by decide

/-- V4 #14, strict: the first 42 bytes; the checksum covered a payload that is no longer there. -/
theorem test_ethDec_strict : (after (.ethDec 0) { one { c0 with wlen := 42, wbuf := bytes frame } with cfg := 1 } 0).map
    (fun c => (c.ethDst, c.status)) = some (0, 0x12) := by decide

/-! ## The host port -/

/-- V5 #5: reserved indices read 0; and a read of a register. -/
theorem test_regRd : answer (.regRd 0x42) (one { c0 with wlen := 20 }) = some (.word 20, 0) ∧
    answer (.regRd 0xC0) (one { c0 with wlen := 20 }) = some (.word 0, 0) := by decide

/-- V5 #1 and #3: truncation to 8 bits; `STATUS` is read-only. -/
theorem test_regWr : (after (.regWr 0x65 0x1FF) State.reset 0).map (fun c => c.ipTtl) = some 0xFF ∧
    (after (.regWr 0x40 0x3F) State.reset 0).map (fun c => c.status) = some 0 := by decide

/-- V5 #9 and #10: `GERR` is write one to clear; an illegal word sets `ILL`. -/
theorem test_regWr_gerr : answer (.regWr 0x06 0x2) { State.reset with gerr := 3 } = some (.nothing, 1) ∧
    answer (.regWr 0x07 0x33) State.reset = some (.nothing, 1) := by decide

/-- V5 #8: out of range returns 0 and sets `BUS`; R178: the bytes are read as they are. -/
theorem test_bufRd : answer (.bufRd 0 0 2048) State.reset = some (.byte 0, 2) ∧
    answer (.bufRd 0 0 2) (one { c0 with wbuf := bytes message }) = some (.byte 0x35, 0) := by decide

/-- V5 #7: `BUF_WR(1, 1, 0, 0xAB)`; and a write out of range. -/
theorem test_bufWr : (after (.bufWr 1 1 0 0xAB) State.reset 1).map (fun c => (c.pay.cells, c.icPlen)) =
    some ([(0, 0xAB)], 0) ∧ answer (.bufWr 0 3 0 1) State.reset = some (.nothing, 2) := by decide

/-- R96: BFILL writes the bytes, then the length register. -/
theorem test_bfill : bfill 1 .wbuf [0x02, 0x14] =
    [.bufWr 1 0 0 0x02, .bufWr 1 0 1 0x14, .regWr 0x82 2] := by decide

/-! ## Witnesses: the hypotheses of the statements of Certificates/Slice0/Obligations.lean are met, each clause at a
boundary of its range -/

/-- Context 0 with a length register at and beyond the capacity of its buffer. -/
def wlenCtx (n : BitVec 16) : Context := { c0 with wlen := n }
def plenCtx (n : BitVec 16) : Context := { c0 with icPlen := n }
def optlenCtx (n : BitVec 16) : Context := { c0 with ipOptlen := n }

/-- Context 0 holding received bytes. -/
def received (bs : List Byte) : Context := { c0 with wlen := BitVec.ofNat 16 bs.length, wbuf := bytes bs }

/-- A block with the greatest number of contexts. -/
def three : State := State.afterReset Config.default 3 0 []

theorem witness_one (c : Context) : (one c).ctxs[(0 : BitVec 4).toNat]? = some c ∧ (one c).config.Valid :=
  ⟨rfl, show State.reset.config.Valid by decide⟩

/-! ### The command word -/

theorem witness_WordSelectsItsOpcodeRow : (∃ row ∈ opcodeMap, (0x132 : CmdWord) &&& row.mask = row.pattern) ∧
    ((0x132 : CmdWord).extractLsb' 8 4).toNat < 2 := by decide

theorem witness_DecodeAfterEncodeIsTheCommand : (Instr.icmpMkreq 2 0xFFFF).isCommand = true ∧
    (Instr.icmpMkreq 2 0xFFFF).wf 3 = true := by decide

theorem witness_LegalWordIsItsCommandsWord : decodeCommand 3 0xFFFF0210 = .ok (.icmpMkreq 2 0xFFFF) := by decide

theorem witness_IllegalWordSetsIllAndNothingElse :
    decodeCommand State.reset.nctx ((0x33 : Data).setWidth 32) = .error .unknownOpcode ∧
    decodeCommand State.reset.nctx ((0x211 : Data).setWidth 32) = .error .noSuchContext ∧
    decodeCommand State.reset.nctx ((0x1011 : Data).setWidth 32) = .error .zeroField ∧
    decodeCommand State.reset.nctx ((0x10011 : Data).setWidth 32) = .error .immediate ∧
    decodeCommand 2 0x132 = .ok (.ethDec 1) := by decide

/-- V5 #13: bits above 31 are dropped. -/
theorem witness_WritingCmdExecutesTheCommand :
    decodeCommand State.reset.nctx ((0x100000011 : Data).setWidth 32) = .ok (.icmpEnc 0) ∧
    decodeCommand State.reset.nctx ((0xFF : Data).setWidth 32) = .error .unknownOpcode := by decide

/-! ### The step, reset, the invariants -/

theorem witness_StepExecutesTheNextInput :
    (State.reset.withFetchWord 32 0x20).pending = .transaction (.regWr 0x07 0x20) :: [] ∧
    decodeCommand (State.reset.withFetchWord 32 0x20).nctx ((0x20 : Data).setWidth 32) = .ok (.ipMk 0) ∧
    State.reset.pending = [] := by decide

theorem witness_ResetEventClearsEveryRegister :
    ({ one { allOnes with status := 0x33 } with pending := [.reset, .reset] } : State).pending =
      .reset :: [.reset] := by decide

theorem witness_EveryLegalCommandWritesItsStatus : commandContext (.ethDec 1) = some 1 ∧
    (Instr.ethDec 1).wf State.reset.nctx = true := by decide

/-- A step whose next state differs from the state, in a state that meets both invariants: P1's first line. -/
def beforeWrite : State := { State.reset with pending := [.transaction (.regWr 0x01 0x1234)] }

theorem witness_StepKeepsTheInvariant : beforeWrite.Inv ∧
    step beforeWrite = .next { State.reset with ident := 0x1234 } := ⟨by decide, rfl⟩

theorem witness_StepKeepsUnspecifiedContentsApart : beforeWrite.FreshFills ∧
    step beforeWrite = .next { State.reset with ident := 0x1234 } := ⟨by decide, rfl⟩

theorem witness_StepKeepsTheParameters : step beforeWrite = .next { State.reset with ident := 0x1234 } := rfl

/-! ### Host transactions -/

theorem witness_RegRdReturnsTheRegister : ((0x07 : BitVec 8), (0 : Data)) ∈ globalView State.reset ∧
    three.ctxs[2]? = some (Context.reset 6) ∧ (0x35, (0 : Data)) ∈ contextView (Context.reset 6) ∧
    contextIndex 2 0x35 = 0xF5 := by decide

theorem witness_ReservedIndexReadsZeroIgnoresWrites : ReservedIndex 2 0x08 ∧ ReservedIndex 2 0x3F ∧
    ReservedIndex 2 0x43 ∧ ReservedIndex 2 0xC0 ∧ ReservedIndex 3 0xFF ∧ ¬ ReservedIndex 2 0xB5 ∧
    ¬ ReservedIndex 2 0x07 := by unfold ReservedIndex; decide

theorem witness_RegWrWritesTheRegister : three.ctxs[2]? = some (Context.reset 6) ∧
    (0x35, { Context.reset 6 with icPlen := 0xFFFF }) ∈ contextWrites (Context.reset 6) 0xABCDFFFF := by decide

theorem witness_RegisterReadsBackTruncatedValue : ((0x02 : BitVec 8), 48) ∈ globalWidths ∧
    (0x25, 8) ∈ contextWidths ∧ 1 < State.reset.nctx := by decide

theorem witness_InRange : InRange State.reset 0 0 2047 ∧ InRange State.reset 1 1 2039 ∧ InRange State.reset 1 2 39 ∧
    ¬ InRange State.reset 0 0 2048 ∧ ¬ InRange State.reset 0 1 2040 ∧ ¬ InRange State.reset 0 2 40 ∧
    ¬ InRange State.reset 2 0 0 ∧ ¬ InRange State.reset 0 3 0 := by unfold InRange; decide

theorem witness_GerrIsStickyAndSteersNothing : (Instr.csum 1).isCommand = true ∧
    (Instr.csum 1).wf State.reset.nctx = true ∧
    exec (.csum 1) { State.reset with gerr := 3 } =
      .next ({ State.reset with gerr := 3 }.putCtx 1 { Context.reset 3 with csumRes := 0xFFFF }) :=
  ⟨by decide, by decide, rfl⟩

theorem witness_GerrIsStickyAndSteersNothing_other_than_gerr_write (v : Data) :
    Instr.regWr 0x05 1 ≠ .regWr 0x06 v := by simp

theorem witness_BufRdReturnsTheByte : State.reset.ctxs[(1 : BitVec 4).toNat]? = some (Context.reset 3) ∧
    (2047 : BitVec 16).toNat < State.reset.config.wbufMax ∧
    (2039 : BitVec 16).toNat < State.reset.config.wbufMax - 8 ∧
    (39 : BitVec 16).toNat < State.reset.config.optMax := by decide

theorem witness_BufWrWritesOneByte : State.reset.ctxs[(1 : BitVec 4).toNat]? = some (Context.reset 3) ∧
    InRange State.reset 1 2 39 := by unfold InRange; decide

theorem witness_BufRdAfterBufWr : InRange (one (received message)) 1 2 39 ∧ InRange (one (received message)) 0 0 2 ∧
    exec (.bufRd 0 0 2) (one (received message)) = .next { one (received message) with reply := .byte 0x35 } :=
  ⟨by unfold InRange; decide, by unfold InRange; decide, rfl⟩

/-! ### The checksum unit -/

theorem witness_CsumComputesTheChecksum : (wlenCtx 2048).wlen.toNat ≤ (one (wlenCtx 2048)).config.wbufMax ∧
    (one (wlenCtx 2049)).config.wbufMax < (wlenCtx 2049).wlen.toNat := by decide

theorem witness_ChecksumPairsBytesFromTheStart : ([0x12, 0x34, 0x56] : List Byte).length % 2 = 1 := by decide

theorem witness_ThirtyTwoBitAccumulatorAgrees : (List.replicate 131074 (0xFF : Byte)).length ≤ 131074 := by
  rw [List.length_replicate]

theorem witness_ChecksumClosedForm : ([(1, 2), (3, 4)] : List (Byte × Byte)).Perm [(3, 4), (1, 2)] ∧
    ([0x80, 0x00] : List Byte).length % 2 = 0 := ⟨.swap _ _ _, by decide⟩

/-- The case that R170 calls loose in the source: the checksum itself is 0x0000. -/
theorem witness_VerificationIdentity : ([] : List Byte).length % 2 = 0 ∧
    (0x0000 : BitVec 16) = inetCsum ([] ++ [0, 0] ++ [0xFF, 0xFF]) := by decide

/-! ### The ICMP echo codec -/

theorem witness_IcmpMkreqBuildsTheRequest : mkreqState.ctxs[0]? = some c0 ∧ mkreqState.ident = 0x1234 ∧
    mkreqState.timeSec = 0x0000000065000000 ∧ mkreqState.timeSub = 0x075BCD15 := by decide

/-- Also of the statements on `ICMP_VFY`, the round trip's first clause, the checksum identity. -/
theorem witness_IcmpEncSerialisesTheMessage : (plenCtx 2040).icPlen.toNat ≤ (one (plenCtx 2040)).config.payCap ∧
    (plenCtx 0).icPlen.toNat ≤ (one (plenCtx 0)).config.payCap := by decide

/-- Also of the round trip's second clause; the message of V2 #12. -/
theorem witness_IcmpDecParsesTheMessage : (received message).wlen.toNat ≤ (one (received message)).config.wbufMax ∧
    8 ≤ (received message).wlen.toNat ∧
    IcmpWireOk (received message).wbuf.read 0 (received message).wlen.toNat := by unfold IcmpWireOk; decide

/-- The shortest message a decode accepts (V2 #14). -/
theorem witness_IcmpDecParsesTheMessage_shortest :
    8 ≤ (received [0, 0, 0xFF, 0xFF, 0, 0, 0, 0]).wlen.toNat ∧
    IcmpWireOk (received [0, 0, 0xFF, 0xFF, 0, 0, 0, 0]).wbuf.read 0 8 := by unfold IcmpWireOk; decide

theorem witness_IcmpFamilyConditions : (one (plenCtx 2041)).config.payCap < (plenCtx 2041).icPlen.toNat ∧
    (one (wlenCtx 2049)).config.wbufMax < (wlenCtx 2049).wlen.toNat ∧ (wlenCtx 7).wlen.toNat < 8 ∧
    ({ one (received (List.replicate 12 0xFF)) with cfg := 1 } : State).cfg.getLsbD 0 = true ∧
    ¬ IcmpWireOk (received (List.replicate 12 0xFF)).wbuf.read 0 12 ∧
    icmpChecksum { allOnes with icCsum := 0xFFFF } ≠ 0xFFFF := by unfold IcmpWireOk; decide

/-- Both ways to satisfy the identity: the computed checksum, and the other representation of zero. -/
theorem witness_VerifyIsNotTheIdentityTest : icmpChecksum { allOnes with icCsum := 0xFFFF } = 0x0000 ∧
    { allOnes with icCsum := 0xFFFF }.icPlen.toNat ≤ (one allOnes).config.payCap := by decide

/-! ### The IPv4 header codec -/

/-- Also of the checksum identity's first clause. -/
theorem witness_IpMkCompletesTheHeader : (optlenCtx 40).ipOptlen.toNat ≤ (one (optlenCtx 40)).config.optMax ∧
    (optlenCtx 40).icPlen.toNat ≤ (one (optlenCtx 40)).config.payCap ∧
    (optlenCtx 0).ipOptlen.toNat ≤ (one (optlenCtx 0)).config.optMax := by decide

/-- Every row of the table of R133 at both its ends, the saturated ones with k = 5 and k = 10. -/
theorem witness_HeaderLengthNibbleSaturates : (optlenCtx 0).ipOptlen.toNat = 0 ∧
    (1 ≤ (optlenCtx 1).ipOptlen.toNat ∧ (optlenCtx 4).ipOptlen.toNat ≤ 4) ∧
    (5 ≤ (optlenCtx 5).ipOptlen.toNat ∧ (optlenCtx 8).ipOptlen.toNat ≤ 8) ∧
    (9 ≤ (optlenCtx 9).ipOptlen.toNat ∧ (optlenCtx 12).ipOptlen.toNat ≤ 12) ∧
    (13 ≤ (optlenCtx 13).ipOptlen.toNat ∧ (optlenCtx 16).ipOptlen.toNat ≤ 16) ∧
    (4 * 5 - 3 ≤ (optlenCtx 17).ipOptlen.toNat ∧ (optlenCtx 20).ipOptlen.toNat ≤ 4 * 5) ∧
    (4 * 10 - 3 ≤ (optlenCtx 37).ipOptlen.toNat ∧ (optlenCtx 40).ipOptlen.toNat ≤ 4 * 10) := by decide

/-- V3 #18, the longest datagram; also of the checksum identity's second clause. -/
theorem witness_IpEncSerialisesTheDatagram : ipLen (plenCtx 2020) = 2048 ∧
    ipLen (plenCtx 2020) ≤ (one (plenCtx 2020)).config.wbufMax ∧
    (plenCtx 2020).icPlen.toNat ≤ (one (plenCtx 2020)).config.payCap := by decide

/-- The 40 bytes of V3 #16, both checksums right. -/
theorem witness_IpDecParsesTheDatagram : 28 ≤ (received (frame.drop 14)).wlen.toNat ∧
    IpWireOk (received (frame.drop 14)).wbuf.read 0 ∧ IcmpWireOk (received (frame.drop 14)).wbuf.read 20 40 := by
  unfold IpWireOk IcmpWireOk; decide

theorem witness_IpVfyComparesTheChecksum : (optlenCtx 40).ipOptlen.toNat ≤ (one (optlenCtx 40)).config.optMax := by decide

theorem witness_IpFamilyConditions : (one (optlenCtx 41)).config.optMax < (optlenCtx 41).ipOptlen.toNat ∧
    ((plenCtx 2041).ipOptlen.toNat ≤ (one (plenCtx 2041)).config.optMax ∧
      (one (plenCtx 2041)).config.payCap < (plenCtx 2041).icPlen.toNat) ∧
    ((plenCtx 2021).icPlen.toNat ≤ (one (plenCtx 2021)).config.payCap ∧
      (one (plenCtx 2021)).config.wbufMax < 28 + (plenCtx 2021).ipOptlen.toNat + (plenCtx 2021).icPlen.toNat) ∧
    (one (wlenCtx 2049)).config.wbufMax < (wlenCtx 2049).wlen.toNat ∧ (wlenCtx 19).wlen.toNat < 20 ∧
    (20 ≤ (wlenCtx 20).wlen.toNat ∧ (wlenCtx 27).wlen.toNat < 28) := by decide

/-- V3 #23: a wrong header checksum; a right one before a damaged message; a header that does not carry its own. -/
theorem witness_IpFamilyConditions_mismatch : ¬ IpWireOk (received datagram).wbuf.read 0 ∧
    (IpWireOk (received ((frame.drop 14).take 28)).wbuf.read 0 ∧
      ¬ IcmpWireOk (received ((frame.drop 14).take 28)).wbuf.read 20 28) ∧
    ipChecksum { header with ipTtl := 63 } ≠ { header with ipTtl := 63 }.ipCsum := by
  unfold IpWireOk IcmpWireOk; decide

theorem witness_IpRoundTripWithoutOptions : ((plenCtx 2020).ipOptlen = 0 ∧
      (plenCtx 2020).icPlen.toNat ≤ (one (plenCtx 2020)).config.wbufMax - 28) ∧
    ipChecksum header = header.ipCsum ∧
    ipChecksum { header with ipTtl := 63 } ≠ { header with ipTtl := 63 }.ipCsum ∧
    ((one options).cfg.getLsbD 0 = false ∧ 0 < options.ipOptlen.toNat ∧
      options.ipOptlen.toNat ≤ (one options).config.optMax ∧ ipLen options ≤ (one options).config.wbufMax) := by decide

/-! ### The Ethernet frame codec -/

theorem witness_EthMkFillsTheLinkLayerFields :
    ({ State.reset with macLocal := 0x020000000001 } : State).cfg = 0 ∧
    ({ State.reset with macLocal := 0x020000000001, macPeer := 0x0200000000FE, cfg := 2 } : State).cfg = 2 := by decide

/-- V4 #6, the longest frame; also of the checksum identities. -/
theorem witness_EthEncSerialisesTheFrame : ethLen (plenCtx 2006) = 2048 ∧
    ethLen (plenCtx 2006) ≤ (one (plenCtx 2006)).config.wbufMax ∧
    (plenCtx 2006).icPlen.toNat ≤ (one (plenCtx 2006)).config.payCap ∧ records.ipCsum = ipChecksum records := by decide

/-- V4 #9; also of the round trip's third clause. -/
theorem witness_EthDecParsesTheFrame : 42 ≤ (received frame).wlen.toNat ∧ IpWireOk (received frame).wbuf.read 14 ∧
    IcmpWireOk (received frame).wbuf.read 34 54 := by unfold IpWireOk IcmpWireOk; decide

theorem witness_EthFamilyConditions :
    ((plenCtx 2007).icPlen.toNat ≤ (one (plenCtx 2007)).config.payCap ∧
      (one (plenCtx 2007)).config.wbufMax < 42 + (plenCtx 2007).ipOptlen.toNat + (plenCtx 2007).icPlen.toNat) ∧
    (one (wlenCtx 2049)).config.wbufMax < (wlenCtx 2049).wlen.toNat ∧ (wlenCtx 13).wlen.toNat < 14 ∧
    (14 ≤ (wlenCtx 14).wlen.toNat ∧ (wlenCtx 33).wlen.toNat < 34) ∧
    (34 ≤ (wlenCtx 34).wlen.toNat ∧ (wlenCtx 41).wlen.toNat < 42) := by decide

/-- A frame whose header is damaged, and V4 #14: a right header before a message cut short. -/
theorem witness_EthFamilyConditions_mismatch : ¬ IpWireOk (received (frame.set 22 0x39)).wbuf.read 14 ∧
    (IpWireOk (received (frame.take 42)).wbuf.read 14 ∧
      ¬ IcmpWireOk (received (frame.take 42)).wbuf.read 34 42) := by unfold IpWireOk IcmpWireOk; decide

theorem witness_FourteenZeroBytesAreTruncated : (received (List.replicate 14 0)).wlen = 14 ∧
    ∀ i < 14, (received (List.replicate 14 0)).wbuf.read i = 0 := by decide

theorem witness_FrameRoundTrip : (records.ipOptlen = 0 ∧
      records.icPlen.toNat ≤ (one records).config.wbufMax - 42 ∧ ipChecksum records = records.ipCsum) ∧
    ((one options).cfg.getLsbD 0 = false ∧ 0 < options.ipOptlen.toNat ∧
      ethLen options ≤ (one options).config.wbufMax) := by decide

/-! ### Whole-machine rules -/

theorem witness_TruncationTable : (wlenCtx 0).wlen.toNat ≤ (one (wlenCtx 0)).config.wbufMax ∧
    (Instr.csum 0).isCommand = true ∧ (∀ y, Instr.csum 0 ≠ .icmpDec y ∧ Instr.csum 0 ≠ .ipDec y ∧
      Instr.csum 0 ≠ .ethDec y) ∧ commandContext (.csum 0) = some 0 ∧
    exec (.csum 0) (one c0) = .next ((one c0).putCtx 0 { c0 with csumRes := 0xFFFF }) :=
  ⟨by decide, by decide, by simp, by decide, rfl⟩

theorem witness_RaisedConditionChangesStatusAlone : commandContext (.ethDec 0) = some 0 ∧
    (one (wlenCtx 13)).ctxs[(0 : BitVec 4).toNat]? = some (wlenCtx 13) ∧
    ∃ t c', exec (.ethDec 0) (one (wlenCtx 13)) = .next t ∧ t.ctxs[(0 : BitVec 4).toNat]? = some c' ∧
      statusCode c'.status ≠ 0 ∧ statusCode c'.status ≠ 2 ∧ ∀ y, Instr.ethDec 0 ≠ .icmpVfy y ∧ Instr.ethDec 0 ≠ .ipVfy y :=
  ⟨by decide, rfl, _, _, rfl, rfl, by decide, by decide, fun _ => ⟨by simp, by simp⟩⟩

theorem witness_CommandsWriteTheirContextAlone : commandContext (.ethMk 0) = some 0 ∧
    (Instr.ethMk 0).wf State.reset.nctx = true ∧ (1 : Nat) ≠ (0 : BitVec 4).toNat ∧
    ∃ t, exec (.ethMk 0) State.reset = .next t := ⟨by decide, by decide, by decide, _, rfl⟩

theorem witness_ContextsAreIsolated : namedContext State.reset.nctx (.regWr 0x07 0x30) ≠ some 1 ∧
    namedContext State.reset.nctx (.regRd 0x7F) ≠ some 1 ∧ namedContext State.reset.nctx (.regRd 0x80) = some 1 ∧
    1 < State.reset.nctx ∧ ∃ t, exec (.regWr 0x07 0x30) State.reset = .next t :=
  ⟨by decide, by decide, by decide, by decide, _, rfl⟩

theorem witness_CommandsOnTwoContextsCommute : commandContext (.csum 0) = some 0 ∧
    commandContext (.ethDec 1) = some 1 ∧ (0 : BitVec 4) ≠ 1 ∧ (Instr.csum 0).wf State.reset.nctx = true ∧
    (Instr.ethDec 1).wf State.reset.nctx = true := by decide

/-- Two contexts that differ in the byte at the length, and below it not. -/
theorem witness_BytesBeyondTheLengthsAreNeverRead : commandContext (.csum 0) = some 0 ∧
    { wlenCtx 1 with wbuf := bytes [1, 2] } =
      { { wlenCtx 1 with wbuf := bytes [1, 3] } with wbuf := bytes [1, 2] } ∧
    (∀ j < 1, (bytes [1, 2]).read j = (bytes [1, 3]).read j) ∧ (bytes [1, 2]).read 1 ≠ (bytes [1, 3]).read 1 :=
  ⟨by decide, rfl, by decide, by decide⟩

theorem witness_CommandsOnTheResetState : State.reset.ctxs[(1 : BitVec 4).toNat]? = some (Context.reset 3) ∧
    State.reset.config.Valid := ⟨rfl, by decide⟩

/-- Also of the statement on a sent probe, whose record is any without options. -/
theorem witness_SentProbeIsReceivedIntact : 54 ≤ (one header).config.wbufMax ∧ header.ipOptlen = 0 := by decide

end Sys2Proof.Tests
end

section
/-! SUPPORT. What one instruction and one step can do to the contexts and the parameters: one inversion lemma for
`exec`, one for `step`. -/

namespace Sys2Proof.Machine

/-! ## A command word -/

/-- A legal word is that of a command on the context its field CTX names (R90, R93). -/
theorem commandContext_of_decodeCommand {n : Nat} {w : CmdWord} {i : Instr} (h : decodeCommand n w = .ok i) :
    commandContext i = some (CmdWord.ctx w) := by
  obtain ⟨-, -, h⟩ := decodeCommand_ok.mp h
  rcases decodeOpcode_ok h with ⟨-, rfl⟩ | ⟨-, ⟨-, rfl⟩ | ⟨-, rfl⟩ | ⟨-, rfl⟩ | ⟨-, rfl⟩ | ⟨-, rfl⟩ | ⟨-, rfl⟩ |
    ⟨-, rfl⟩ | ⟨-, rfl⟩ | ⟨-, rfl⟩ | ⟨-, rfl⟩ | ⟨-, rfl⟩⟩ <;> rfl

/-- A legal command word does what its command does (R177). -/
theorem execCommandWord_ok {w : CmdWord} {s : State} {i : Instr} (h : decodeCommand s.nctx w = .ok i) :
    execCommandWord w s = exec i s := by
  have hc := commandContext_of_decodeCommand h
  cases i with
  | regRd => cases hc
  | regWr => cases hc
  | bufRd => cases hc
  | bufWr => cases hc
  | _ => simp only [execCommandWord, h]; rfl

/-- A write of `CMD` executes the word in its low half (R40, R177). -/
theorem exec_regWr_cmd (v : Data) (s : State) : exec (.regWr cmdIndex v) s = execCommandWord (v.setWidth 32) s := rfl

/-- A write of another register. -/
theorem exec_regWr_of_ne {idx : BitVec 8} (h : idx ≠ cmdIndex) (v : Data) (s : State) :
    exec (.regWr idx v) s = .next (s.writeReg v (regRef idx)) := if_neg h

/-! ## What an instruction can do -/

/-- All that an instruction performed in state `s` can make of one context: what a command makes of it, a register
written, or one byte of a buffer written below the capacity. -/
inductive ContextChange (s : State) (c : Context) : Context → Prop where
  | command (i : Instr) : ContextChange s c (c.settle (commandBody s i c))
  | register (v : Data) (r : CtxReg) : ContextChange s c (c.writeReg v r)
  | byte (b : BufName) {off : Nat} (d : Byte) (h : off < bufCapacity s.config b) :
      ContextChange s c (c.putBuffer ((c.buffer b).writeBytes off [d]) b)

/-- All that an instruction can make of the state `s`, apart from the globals and the reply: it changes one context at
most. -/
structure InstrEffect (s t : State) : Prop where
  config : t.config = s.config
  pending : t.pending = s.pending
  nextFill : t.nextFill = s.nextFill
  ctxs : t.ctxs = s.ctxs ∨ ∃ x c c', s.ctxs[x]? = some c ∧ ContextChange s c c' ∧ t.ctxs = s.ctxs.set x c'

/-- An instruction that changes globals and the reply alone. -/
theorem InstrEffect.ofGlobals {s t : State} (h : t = { s with
    cfg := t.cfg, ident := t.ident, macLocal := t.macLocal, macPeer := t.macPeer, timeSec := t.timeSec,
    timeSub := t.timeSub, gerr := t.gerr, reply := t.reply }) : InstrEffect s t := by
  rw [h]
  exact ⟨rfl, rfl, rfl, .inl rfl⟩

/-- An instruction that changes one context alone. -/
theorem InstrEffect.ofPutCtx {s : State} {x : Nat} {c c' : Context} (hc : s.ctxs[x]? = some c)
    (h : ContextChange s c c') : InstrEffect s (s.putCtx x c') :=
  ⟨rfl, rfl, rfl, .inr ⟨x, c, c', hc, h, rfl⟩⟩

theorem command_effect {i : Instr} {x : BitVec 4} (h : commandContext i = some x) (s : State) :
    ∃ t, exec i s = .next t ∧ InstrEffect s t := by
  refine ⟨_, exec_command h s, ?_⟩
  rcases onContext_cases s x (commandBody s i) with ⟨-, e⟩ | ⟨c, hc, e⟩ <;> rw [e]
  · exact .ofGlobals rfl
  · exact .ofPutCtx hc (.command i)

theorem writeReg_effect (s : State) (v : Data) (r : RegRef) : InstrEffect s (s.writeReg v r) := by
  cases r with
  | global r => cases r <;> exact .ofGlobals rfl
  | context x r =>
    cases hc : s.ctxs[x]? with
    | none => simpa only [State.writeReg, hc] using .ofGlobals rfl
    | some c => simpa only [State.writeReg, hc] using .ofPutCtx hc (.register v r)
  | reserved => exact .ofGlobals rfl

theorem regWr_effect (idx : BitVec 8) (v : Data) (s : State) :
    ∃ t, exec (.regWr idx v) s = .next t ∧ InstrEffect s t := by
  by_cases hi : idx = cmdIndex
  · subst hi
    rw [exec_regWr_cmd]
    cases h : decodeCommand s.nctx (v.setWidth 32) with
    | error e => exact ⟨_, execCommandWord_error h, .ofGlobals rfl⟩
    | ok i =>
      rw [execCommandWord_ok h]
      exact command_effect (commandContext_of_decodeCommand h) s
  · exact ⟨_, exec_regWr_of_ne hi v s, writeReg_effect s v _⟩

theorem bufRd_effect (x : BitVec 4) (sel : BitVec 2) (off : BitVec 16) (s : State) :
    ∃ t, exec (.bufRd x sel off) s = .next t ∧ InstrEffect s t := by
  simp only [exec, execBufRd]
  cases s.bufferAt x sel off <;> exact ⟨_, rfl, .ofGlobals rfl⟩

theorem bufWr_effect (x : BitVec 4) (sel : BitVec 2) (off : BitVec 16) (d : Byte) (s : State) :
    ∃ t, exec (.bufWr x sel off d) s = .next t ∧ InstrEffect s t := by
  simp only [exec, execBufWr]
  cases h : s.bufferAt x sel off with
  | none => exact ⟨_, rfl, .ofGlobals rfl⟩
  | some p =>
    obtain ⟨hc, -, hoff⟩ := (bufferAt_eq_some_iff s x sel off p.1 p.2).mp h
    exact ⟨_, rfl, .ofPutCtx hc (.byte p.2 d hoff)⟩

/-- ALL THAT AN INSTRUCTION CAN DO: it goes through, and changes one context at most (R196). -/
theorem exec_effect (i : Instr) (s : State) : ∃ t, exec i s = .next t ∧ InstrEffect s t := by
  cases i with
  | regRd idx => exact ⟨_, rfl, .ofGlobals rfl⟩
  | regWr idx v => exact regWr_effect idx v s
  | bufRd x sel off => exact bufRd_effect x sel off s
  | bufWr x sel off d => exact bufWr_effect x sel off d s
  | _ => exact command_effect rfl s

/-! ## What a step can do -/

/-- ALL THAT A STEP CAN DO: idle, reset, or perform the transaction that waits (R20, R199, R205). -/
theorem step_cases (s : State) :
    (s.pending = [] ∧ step s = .next s) ∨
    (∃ rest, s.pending = .reset :: rest ∧
      step s = .next (State.afterReset s.config s.nctx s.nextFill rest)) ∨
    ∃ tr rest, s.pending = .transaction tr :: rest ∧
      step s = exec tr.toInstr { s with pending := rest, reply := .nothing } := by
  rcases h : s.pending with - | ⟨tr | -, rest⟩
  · exact .inl ⟨rfl, by rw [step, takeInput_nil h]⟩
  · exact .inr (.inr ⟨tr, rest, rfl, by rw [step, takeInput_cons h]⟩)
  · exact .inr (.inl ⟨rest, rfl, by rw [step, takeInput_cons h]; rfl⟩)

/-- The same for the next state: unchanged, the reset state, or the effect of an instruction on the state with its
input taken. -/
theorem next_cases {s t : State} (h : step s = .next t) :
    t = s ∨ (∃ rest, t = State.afterReset s.config s.nctx s.nextFill rest) ∨
    ∃ rest, InstrEffect { s with pending := rest, reply := .nothing } t := by
  rcases step_cases s with ⟨-, e⟩ | ⟨rest, -, e⟩ | ⟨tr, rest, -, e⟩
  · exact .inl (Host.Outcome.next.inj (h.symm.trans e))
  · exact .inr (.inl ⟨rest, Host.Outcome.next.inj (h.symm.trans e)⟩)
  · obtain ⟨u, hu, he⟩ := exec_effect tr.toInstr { s with pending := rest, reply := .nothing }
    obtain rfl := Host.Outcome.next.inj (h.symm.trans (e.trans hu))
    exact .inr (.inr ⟨rest, he⟩)

@[simp] theorem resetContexts_length (n fill : Nat) : (resetContexts n fill).length = n := by
  induction n generalizing fill with
  | zero => rfl
  | succ n ih => simp [resetContexts, ih]

@[simp] theorem afterReset_nctx (c : Config) (n fill : Nat) (pending : List Input) :
    (State.afterReset c n fill pending).nctx = n := resetContexts_length n fill

/-- Every context after a reset is a reset context. -/
theorem mem_resetContexts {n fill : Nat} {c : Context} (h : c ∈ resetContexts n fill) :
    ∃ k, c = Context.reset k := by
  induction n generalizing fill with
  | zero => cases h
  | succ n ih =>
    rcases List.mem_cons.mp h with rfl | h
    · exact ⟨fill, rfl⟩
    · exact ih h

/-- An instruction neither adds nor drops a context. -/
theorem InstrEffect.nctx {s t : State} (h : InstrEffect s t) : t.nctx = s.nctx := by
  rcases h.ctxs with e | ⟨x, c, c', -, -, e⟩ <;> simp [State.nctx, e]

end Sys2Proof.Machine
end

section
/-! The parameters. -/

namespace Sys2Proof.Machine

/-- Settles O16: idle and reset keep the parameters, and so does the effect of every instruction. -/
theorem stepKeepsTheParameters : Obligations.StepKeepsTheParameters := by
  unfold Obligations.StepKeepsTheParameters
  intro s t h
  rcases next_cases h with rfl | ⟨rest, rfl⟩ | ⟨rest, he⟩
  · exact ⟨rfl, rfl⟩
  · exact ⟨rfl, afterReset_nctx _ _ _ _⟩
  · exact ⟨he.config, he.nctx⟩

end Sys2Proof.Machine
end

section
/-! SUPPORT. Good contexts: every command leaves a good context good. -/

namespace Sys2Proof.Machine

/-- The part of `Context.Wf` that speaks of the buffers. -/
abbrev Context.BuffersWf (cfg : Config) (c : Context) : Prop :=
  c.wbuf.Wf cfg.wbufMax ∧ c.pay.Wf cfg.payCap ∧ c.opt.Wf cfg.optMax

/-- What a command body answers is good: a good context, or a condition. -/
def GoodResult (cfg : Config) : Except Raised Context → Prop
  | .ok c => c.Wf cfg
  | .error _ => True

theorem statusCode_statusWord (code : Code) (layer : Layer) : statusCode (statusWord code layer) = code.bits := by
  cases code <;> cases layer <;> rfl

/-- A context whose `STATUS` a command has written is good when its buffers are. -/
theorem finish_wf {cfg : Config} {c : Context} (h : c.BuffersWf cfg) (code : Code) (layer : Layer) :
    (c.finish code layer).Wf cfg := by
  refine ⟨?_, h⟩
  rw [finish_status, statusCode_statusWord]
  cases code <;> decide

/-- Good after a good result, and after a condition too: then `STATUS` alone is written (R186). -/
theorem settle_wf {cfg : Config} {c : Context} (h : c.Wf cfg) {r : Except Raised Context} (hr : GoodResult cfg r) :
    (c.settle r).Wf cfg := by
  cases r with
  | ok c' => exact hr
  | error r => exact finish_wf h.2 r.code r.layer

/-! ## The writes into the buffers -/

theorem emit_buffersWf {cfg : Config} {c : Context} (h : c.BuffersWf cfg) {bs : List Byte}
    (hb : bs.length ≤ cfg.wbufMax) : (emit c bs).BuffersWf cfg :=
  ⟨writeBytes_wf h.1 (by omega), h.2⟩

/-- The parse of a message lays down its payload, 8 bytes less than the message (R116). -/
theorem icmpDecode_buffersWf {cfg : Config} {c c' : Context} {bs : List Byte} (h : c.BuffersWf cfg)
    (hb : bs.length ≤ cfg.wbufMax) (hd : icmpDecode c bs = .ok c') : c'.BuffersWf cfg := by
  rcases ite_eq_cases hd with ⟨-, e⟩ | ⟨-, e⟩
  · cases e
  · cases e
    refine ⟨h.1, writeBytes_wf h.2.1 ?_, h.2.2⟩
    simp only [List.length_drop, icmpMin, Config.payCap]
    omega

theorem ipDecode_buffersWf {cfg : Config} {c c' : Context} {bs : List Byte} (h : c.BuffersWf cfg)
    (hb : bs.length ≤ cfg.wbufMax) (hd : ipDecode c bs = .ok c') : c'.BuffersWf cfg := by
  rcases ite_eq_cases hd with ⟨-, e⟩ | ⟨-, e⟩
  · cases e
  · exact icmpDecode_buffersWf (by exact h) (by rw [List.length_drop]; omega) e

theorem ethDecode_buffersWf {cfg : Config} {c c' : Context} {bs : List Byte} (h : c.BuffersWf cfg)
    (hb : bs.length ≤ cfg.wbufMax) (hd : ethDecode c bs = .ok c') : c'.BuffersWf cfg := by
  rcases ite_eq_cases hd with ⟨-, e⟩ | ⟨-, e⟩
  · cases e
  · exact ipDecode_buffersWf (by exact h) (by rw [List.length_drop]; omega) e

theorem strictChecks_good {cfg : Config} {c : Context} (h : c.Wf cfg) (strict : Bool) (bs : List Byte) :
    GoodResult cfg (strictChecks strict bs c) := by
  unfold strictChecks
  split
  · trivial
  · split
    · trivial
    · exact h

/-! ## The twelve commands -/

section
variable {cfg : Config} {c : Context} (h : c.BuffersWf cfg)
include h

/-- A command that ends with its `STATUS` write gives a good context when the buffers are good. -/
theorem finish_good (code : Code) (layer : Layer) : GoodResult cfg (.ok (c.finish code layer)) :=
  finish_wf h code layer

/-- `IpEncode` (R137) writes no buffer. -/
theorem ipEncode_buffersWf {c' : Context} {bs : List Byte} (he : ipEncode cfg c = .ok (c', bs)) :
    c'.BuffersWf cfg := by
  rw [ipEncode_eq] at he
  rcases ite_eq_cases he with ⟨-, e⟩ | ⟨-, e⟩
  · cases e
  · rcases ite_eq_cases e with ⟨-, e⟩ | ⟨-, e⟩ <;> cases e
    exact h

theorem csumBody_good : GoodResult cfg (csumBody cfg c) := by
  unfold csumBody
  split
  · trivial
  · exact finish_good (by exact h) _ _

theorem icmpMkreqBody_good (hv : cfg.Valid) (ident : BitVec 16) (sec : BitVec 64) (sub : BitVec 32)
    (seq : BitVec 16) : GoodResult cfg (icmpMkreqBody ident sec sub seq c) := by
  have hcap : 0 + (be64 sec ++ be32 sub).length ≤ cfg.payCap := by
    have := hv.1
    simp only [List.length_append, be64_length, be32_length, Config.payCap]
    omega
  unfold icmpMkreqBody
  refine finish_good ?_ _ _
  exact ⟨h.1, writeBytes_wf h.2.1 hcap, h.2.2⟩

theorem icmpEncBody_good (hv : cfg.Valid) : GoodResult cfg (icmpEncBody cfg c) := by
  rw [icmpEncBody, icmpEncode_eq]
  by_cases hp : cfg.payCap < c.icPlen.toNat
  · rw [if_pos hp]; trivial
  · rw [if_neg hp]
    refine finish_good (emit_buffersWf (by exact h) ?_) _ _
    have := hv.1
    simp only [Config.payCap] at hp
    simp only [List.length_map, List.length_range, icmpLen]
    omega

theorem icmpDecBody_good (strict : Bool) : GoodResult cfg (icmpDecBody cfg strict c) := by
  simp only [icmpDecBody]
  split
  · trivial
  · split
    · trivial
    · next hw _ c' e =>
      have hb := icmpDecode_buffersWf h (by rw [readBytes_length]; omega) e
      split
      · trivial
      · exact finish_good hb _ _

theorem icmpVfyBody_good : GoodResult cfg (icmpVfyBody cfg c) := by
  unfold icmpVfyBody
  split
  · trivial
  · exact finish_good (by exact h) _ _

theorem ipMkBody_good (hv : cfg.Valid) : GoodResult cfg (ipMkBody cfg c) := by
  simp only [ipMkBody]
  split
  · trivial
  · next hol =>
    split
    · trivial
    · refine finish_good ?_ _ _
      refine ⟨h.1, h.2.1, writeBytes_wf h.2.2 ?_⟩
      obtain ⟨-, -, hmod, -⟩ := hv
      simp only [List.length_replicate, optionWords]
      omega

theorem ipEncBody_good : GoodResult cfg (ipEncBody cfg c) := by
  unfold ipEncBody
  split
  · trivial
  · next c' bs e =>
    split
    · trivial
    · exact finish_good (emit_buffersWf (ipEncode_buffersWf h e) (by omega)) _ _

theorem ipDecBody_good (strict : Bool) : GoodResult cfg (ipDecBody cfg strict c) := by
  simp only [ipDecBody]
  split
  · trivial
  · split
    · trivial
    · next hw _ c' e =>
      exact strictChecks_good (finish_wf (ipDecode_buffersWf h (by rw [readBytes_length]; omega) e) _ _) _ _

theorem ipVfyBody_good : GoodResult cfg (ipVfyBody cfg c) := by
  unfold ipVfyBody
  split
  · trivial
  · exact finish_good (by exact h) _ _

theorem ethMkBody_good (peerEn : Bool) (macPeer macLocal : BitVec 48) :
    GoodResult cfg (ethMkBody peerEn macPeer macLocal c) :=
  finish_wf (by exact h) _ _

theorem ethEncBody_good : GoodResult cfg (ethEncBody cfg c) := by
  simp only [ethEncBody]
  split
  · trivial
  · next c' p e =>
    split
    · trivial
    · exact finish_good (emit_buffersWf (ipEncode_buffersWf h e) (by omega)) _ _

theorem ethDecBody_good (strict : Bool) : GoodResult cfg (ethDecBody cfg strict c) := by
  simp only [ethDecBody]
  split
  · trivial
  · split
    · trivial
    · next hw _ c' e =>
      exact strictChecks_good (finish_wf (ethDecode_buffersWf h (by rw [readBytes_length]; omega) e) _ _) _ _

end

/-- Every command gives a good context, or a condition. -/
theorem commandBody_good {s : State} (hv : s.config.Valid) {c : Context} (h : c.Wf s.config) (i : Instr) :
    GoodResult s.config (commandBody s i c) := by
  cases i with
  | csum _ => exact csumBody_good h.2
  | icmpMkreq _ seq => exact icmpMkreqBody_good h.2 hv _ _ _ seq
  | icmpEnc _ => exact icmpEncBody_good h.2 hv
  | icmpDec _ => exact icmpDecBody_good h.2 _
  | icmpVfy _ => exact icmpVfyBody_good h.2
  | ipMk _ => exact ipMkBody_good h.2 hv
  | ipEnc _ => exact ipEncBody_good h.2
  | ipDec _ => exact ipDecBody_good h.2 _
  | ipVfy _ => exact ipVfyBody_good h.2
  | ethMk _ => exact ethMkBody_good h.2 _ _ _
  | ethEnc _ => exact ethEncBody_good h.2
  | ethDec _ => exact ethDecBody_good h.2 _
  | regRd | regWr | bufRd | bufWr => exact h

/-! ## The invariant -/

/-- No register write touches `STATUS` or a buffer (R43). -/
theorem writeReg_wf {cfg : Config} {c : Context} (h : c.Wf cfg) (v : Data) (r : CtxReg) : (c.writeReg v r).Wf cfg := by
  cases r <;> exact h

/-- A byte written below the capacity of its buffer. -/
theorem putBuffer_writeBytes_wf {cfg : Config} {c : Context} (h : c.Wf cfg) (b : BufName) {off : Nat}
    (hoff : off < bufCapacity cfg b) (d : Byte) : (c.putBuffer ((c.buffer b).writeBytes off [d]) b).Wf cfg := by
  obtain ⟨hs, hw, hp, ho⟩ := h
  cases b
  · exact ⟨hs, writeBytes_wf hw hoff, hp, ho⟩
  · exact ⟨hs, hw, writeBytes_wf hp hoff, ho⟩
  · exact ⟨hs, hw, hp, writeBytes_wf ho hoff⟩

theorem ContextChange.wf {s : State} (hv : s.config.Valid) {c c' : Context} (h : ContextChange s c c')
    (hc : c.Wf s.config) : c'.Wf s.config := by
  cases h with
  | command i => exact settle_wf hc (commandBody_good hv hc i)
  | register v r => exact writeReg_wf hc v r
  | byte b d hoff => exact putBuffer_writeBytes_wf hc b hoff d

theorem InstrEffect.inv {s t : State} (h : InstrEffect s t) (hs : s.Inv) : t.Inv := by
  obtain ⟨hv, hn, hctx⟩ := hs
  refine ⟨h.config ▸ hv, h.nctx ▸ hn, ?_⟩
  rw [h.config]
  rcases h.ctxs with e | ⟨x, c, c', hc, hch, e⟩ <;> rw [e]
  · exact hctx
  · intro d hd
    rcases List.mem_or_eq_of_mem_set hd with hd | rfl
    · exact hctx d hd
    · exact hch.wf hv (hctx c (List.mem_of_getElem? hc))

theorem unwritten_wf (cap fill : Nat) : (Buffer.unwritten fill).Wf cap := ⟨nil_wf, fun _ hc => nomatch hc⟩

theorem reset_wf (cfg : Config) (fill : Nat) : (Context.reset fill).Wf cfg := by
  exact ⟨(by decide : (statusCode 0).toNat ≤ 3), unwritten_wf _ _, unwritten_wf _ _, unwritten_wf _ _⟩

/-- Reset makes a good state of every legal choice of the parameters (R49, R206). -/
theorem afterReset_inv {cfg : Config} {n : Nat} (hv : cfg.Valid) (hn : Config.ValidNctx n) (fill : Nat)
    (pending : List Input) : (State.afterReset cfg n fill pending).Inv := by
  refine ⟨hv, ?_, fun c hc => ?_⟩
  · rwa [afterReset_nctx]
  · obtain ⟨k, rfl⟩ := mem_resetContexts hc
    exact reset_wf cfg k

/-- Settles O13: idle keeps every state, reset makes a good one, and an instruction changes one context at most, to a
good one. -/
theorem stepKeepsTheInvariant : Obligations.StepKeepsTheInvariant := by
  unfold Obligations.StepKeepsTheInvariant
  intro s t hs h
  rcases next_cases h with rfl | ⟨rest, rfl⟩ | ⟨rest, he⟩
  · exact hs
  · obtain ⟨hv, hn, -⟩ := hs
    exact afterReset_inv hv hn _ _
  · exact he.inv hs

/-- Settles O14: the defaults of R7 are legal, and the six buffers after reset have the numbers 0 to 5. -/
theorem resetStateMeetsTheInvariant : Obligations.ResetStateMeetsTheInvariant :=
  ⟨afterReset_inv (by decide) (by decide) 0 [], by decide⟩

end Sys2Proof.Machine
end

section
/-! The transaction of an instruction. -/

namespace Sys2Proof.Machine

/-- The word of a command: an opcode, its context, and its immediate (R90, R92); the opcode map gives the command
back. -/
theorem encodeCommand_fields {i : Instr} {x : BitVec 4} (h : commandContext i = some x) :
    ∃ (p : BitVec 8) (m : BitVec 16),
      encodeCommand i = some (p.setWidth 32 ||| (x.setWidth 32 <<< 8) ||| (m.setWidth 32 <<< 16)) ∧
      decodeOpcode p x m = .ok i := by
  have noImm (w : CmdWord) : some w = some (w ||| ((0 : BitVec 16).setWidth 32 <<< 16)) := by
    rw [show ((0 : BitVec 16).setWidth 32 <<< 16 : CmdWord) = 0#32 from rfl, BitVec.or_zero]
  cases i <;> cases h
  case csum => exact ⟨0x00, 0, noImm _, rfl⟩
  case icmpMkreq seq => exact ⟨0x10, seq, rfl, rfl⟩
  case icmpEnc => exact ⟨0x11, 0, noImm _, rfl⟩
  case icmpDec => exact ⟨0x12, 0, noImm _, rfl⟩
  case icmpVfy => exact ⟨0x13, 0, noImm _, rfl⟩
  case ipMk => exact ⟨0x20, 0, noImm _, rfl⟩
  case ipEnc => exact ⟨0x21, 0, noImm _, rfl⟩
  case ipDec => exact ⟨0x22, 0, noImm _, rfl⟩
  case ipVfy => exact ⟨0x23, 0, noImm _, rfl⟩
  case ethMk => exact ⟨0x30, 0, noImm _, rfl⟩
  case ethEnc => exact ⟨0x31, 0, noImm _, rfl⟩
  case ethDec => exact ⟨0x32, 0, noImm _, rfl⟩

/-- A word built from an opcode, a context and an immediate carries the context in its field CTX. -/
theorem ctx_word (p : BitVec 8) (x : BitVec 4) (m : BitVec 16) :
    CmdWord.ctx (p.setWidth 32 ||| (x.setWidth 32 <<< 8) ||| (m.setWidth 32 <<< 16)) = x := by
  obtain ⟨-, hm, -⟩ := imm_fields m
  obtain ⟨-, hx, -⟩ := ctx_fields x
  obtain ⟨-, hp, -⟩ := opcode_fields p
  simp [CmdWord.ctx, BitVec.extractLsb'_or, hm, hx, hp]

/-- Executing the word of a command is executing the command; where its context does not exist both set `GERR.ILL`
alone (R93, log 6). -/
theorem execCommandWord_encodeCommand {i : Instr} {x : BitVec 4} (h : commandContext i = some x) :
    ∃ w, encodeCommand i = some w ∧ ∀ s, execCommandWord w s = exec i s := by
  obtain ⟨p, m, hw, hd⟩ := encodeCommand_fields h
  refine ⟨_, hw, fun s => ?_⟩
  by_cases hx : x.toNat < s.nctx
  · exact execCommandWord_ok ((decodeCommand_word p m hx).trans hd)
  · rw [exec_command h, onContext_of_absent (Nat.le_of_not_lt hx)]
    cases e : decodeCommand s.nctx _ with
    | error r => exact execCommandWord_error e
    | ok j =>
      have hlt := (decodeCommand_ok.mp e).2.1
      rw [ctx_word] at hlt
      exact absurd hlt hx

theorem exec_cmdWrite (w : CmdWord) (s : State) : exec (cmdWrite w).toInstr s = execCommandWord w s := by
  rw [cmdWrite, Transaction.toInstr, exec_regWr_cmd, BitVec.setWidth_setWidth_of_le _ (by decide), BitVec.setWidth_eq]

/-- A command is performed by the `REG_WR` of its word to `CMD` (R95). -/
theorem transactionOf_command {i : Instr} {x : BitVec 4} (h : commandContext i = some x) :
    transactionOf i = (encodeCommand i).map cmdWrite := by
  cases i <;> cases h <;> rfl

theorem transactionOf_command_means {i : Instr} {x : BitVec 4} (h : commandContext i = some x) (s : State) :
    ∃ t, transactionOf i = some t ∧ exec t.toInstr s = exec i s := by
  obtain ⟨w, hw, he⟩ := execCommandWord_encodeCommand h
  exact ⟨cmdWrite w, by rw [transactionOf_command h, hw, Option.map_some], (exec_cmdWrite w s).trans (he s)⟩

/-- Settles O7: a command's word executes the command, and a host transaction is its own. -/
theorem transactionOfAnInstructionMeansIt : Obligations.TransactionOfAnInstructionMeansIt := by
  unfold Obligations.TransactionOfAnInstructionMeansIt
  intro s i
  cases i with
  | regRd | regWr | bufRd | bufWr => exact ⟨_, rfl, rfl⟩
  | _ => exact transactionOf_command_means rfl s

end Sys2Proof.Machine
end

section
/-! SUPPORT. Wire bytes read back: bytes that are a record's wire format carry its checksum, and parse to the
record. -/

namespace Sys2Proof.Machine

/-- A 32-bit number is its four bytes, the highest first. -/
theorem append_bytes32 (v : BitVec 32) :
    v.extractLsb' 24 8 ++ v.extractLsb' 16 8 ++ v.extractLsb' 8 8 ++ v.extractLsb' 0 8 = v := by
  apply BitVec.eq_of_toNat_eq
  have := v.isLt
  simp only [toNat_append_byte, BitVec.extractLsb'_toNat, Nat.shiftRight_eq_div_pow]
  omega

/-- A 48-bit number is its six bytes, the highest first. -/
theorem append_bytes48 (v : BitVec 48) :
    v.extractLsb' 40 8 ++ v.extractLsb' 32 8 ++ v.extractLsb' 24 8 ++ v.extractLsb' 16 8 ++ v.extractLsb' 8 8
      ++ v.extractLsb' 0 8 = v := by
  apply BitVec.eq_of_toNat_eq
  have := v.isLt
  simp only [toNat_append_byte, BitVec.extractLsb'_toNat, Nat.shiftRight_eq_div_pow]
  omega

/-! ## The checksum fields -/

/-- A wire byte outside the checksum field does not depend on the checksum, and the field itself holds 0 for a
checksum of 0. -/
theorem ipWireByte_zero (c : Context) (ck : BitVec 16) (i : Nat) :
    ipWireByte c 0 i = if i = 10 ∨ i = 11 then 0 else ipWireByte c ck i := by
  by_cases h10 : i = 10
  · subst h10; rfl
  · by_cases h11 : i = 11
    · subst h11; rfl
    · simp only [ipWireByte, h10, h11, or_self, if_false]

theorem icmpWireByte_zero (c : Context) (ck : BitVec 16) (i : Nat) :
    icmpWireByte c 0 i = if i = 2 ∨ i = 3 then 0 else icmpWireByte c ck i := by
  by_cases h2 : i = 2
  · subst h2; rfl
  · by_cases h3 : i = 3
    · subst h3; rfl
    · simp only [icmpWireByte, h2, h3, or_self, if_false]

/-- Bytes that are the header of a record without options, its checksum computed, pass the check of R141. -/
theorem ipWireOk_of_wire {b : Nat → Byte} {base : Nat} {c : Context} (hopt : c.ipOptlen = 0)
    (h : ∀ i < 20, b (base + i) = ipWireByte c (ipChecksum c) i) : IpWireOk b base := by
  have hfield : b (base + 10) ++ b (base + 11) = ipChecksum c := by
    rw [h 10 (by decide), h 11 (by decide)]
    exact append_bytes16 _
  rw [IpWireOk, hfield, ipChecksum, hopt]
  refine congrArg inetCsum (List.map_congr_left fun i hi => ?_)
  rw [ipWireByte_zero c (ipChecksum c), h i (List.mem_range.mp hi)]

/-- Bytes that are the message of a record, its checksum computed, pass the check of R117. -/
theorem icmpWireOk_of_wire {b : Nat → Byte} {base : Nat} {c : Context}
    (h : ∀ i < icmpLen c, b (base + i) = icmpWireByte c (icmpChecksum c) i) :
    IcmpWireOk b base (base + icmpLen c) := by
  have h8 : 8 ≤ icmpLen c := Nat.le_add_right 8 _
  have hfield : b (base + 2) ++ b (base + 3) = icmpChecksum c := by
    rw [h 2 (by omega), h 3 (by omega)]
    exact append_bytes16 _
  rw [IcmpWireOk, hfield, icmpChecksum, Nat.add_sub_cancel_left]
  refine congrArg inetCsum (List.map_congr_left fun i hi => ?_)
  rw [icmpWireByte_zero c (icmpChecksum c), h i (List.mem_range.mp hi)]

/-! ## The records that wire bytes parse to -/

theorem EthParsed.of_wire {b : Nat → Byte} {c c' : Context} (hp : EthParsed b c')
    (h : ∀ i < 14, b i = ethWireByte c i) :
    c'.ethDst = c.ethDst ∧ c'.ethSrc = c.ethSrc ∧ c'.ethType = c.ethType := by
  obtain ⟨hdst, hsrc, htype⟩ := hp
  rw [hdst, hsrc, htype]
  simp only [h, Nat.reduceLT]
  exact ⟨append_bytes48 _, append_bytes48 _, append_bytes16 _⟩

theorem IpParsed.of_wire {b : Nat → Byte} {base : Nat} {c c' : Context} {ck : BitVec 16} (hp : IpParsed b base c')
    (h : ∀ i < 20, b (base + i) = ipWireByte c ck i) :
    c'.ipVihl = c.ipVihl ∧ c'.ipTos = c.ipTos ∧ c'.ipTlen = c.ipTlen ∧ c'.ipId = c.ipId ∧ c'.ipFlfr = c.ipFlfr ∧
    c'.ipTtl = c.ipTtl ∧ c'.ipProto = c.ipProto ∧ c'.ipCsum = ck ∧ c'.ipSrc = c.ipSrc ∧ c'.ipDst = c.ipDst := by
  obtain ⟨hvihl, htos, htlen, hid, hflfr, httl, hproto, hcsum, hsrc, hdst, -⟩ := hp
  have h0 : b base = c.ipVihl := h 0 (by decide)
  rw [htos, htlen, hid, hflfr, httl, hproto, hcsum, hsrc, hdst]
  simp only [h, Nat.reduceLT]
  exact ⟨hvihl.trans h0, rfl, append_bytes16 _, append_bytes16 _, append_bytes16 _, rfl, rfl, append_bytes16 _,
    append_bytes32 _, append_bytes32 _⟩

theorem IcmpParsed.of_wire {b : Nat → Byte} {base : Nat} {c c' d : Context} {ck : BitVec 16}
    (hp : IcmpParsed b base (base + icmpLen d) c c') (h : ∀ i < icmpLen d, b (base + i) = icmpWireByte d ck i) :
    c'.icType = d.icType ∧ c'.icCode = d.icCode ∧ c'.icCsum = ck ∧ c'.icId = d.icId ∧ c'.icSeq = d.icSeq ∧
    c'.icPlen = d.icPlen ∧ ∀ i < d.icPlen.toNat, c'.pay.read i = d.pay.read i := by
  obtain ⟨htype, hcode, hcsum, hid, hseq, hplen, hpay⟩ := hp
  have hlen : base + icmpLen d - (base + 8) = d.icPlen.toNat := by rw [icmpLen]; omega
  have hfield (i : Nat) (hi : i < 8) : b (base + i) = icmpWireByte d ck i := h i (Nat.lt_add_right _ hi)
  have h0 : b base = d.icType := hfield 0 (by decide)
  rw [hcode, hcsum, hid, hseq]
  simp only [hfield, Nat.reduceLT]
  refine ⟨htype.trans h0, rfl, append_bytes16 _, append_bytes16 _, append_bytes16 _, ?_, fun i hi => ?_⟩
  · rw [← BitVec.toNat_inj, hplen, hlen]
  · rw [hpay, hlen, if_pos hi, Nat.add_assoc, h _ (Nat.add_lt_add_left hi 8)]
    have hge (k : Nat) (hk : k < 8) : 8 + i ≠ k := by omega
    simp only [icmpWireByte, hge, Nat.reduceLT, if_false, Nat.add_sub_cancel_left]

/-! ## The bytes of a frame -/

theorem frameWireByte_eth (c : Context) (ipCk icCk : BitVec 16) {i : Nat} (h : i < 14) :
    frameWireByte c ipCk icCk i = ethWireByte c i := if_pos h

theorem frameWireByte_ip (c : Context) (ipCk icCk : BitVec 16) {i : Nat} (h : i < 20 + c.ipOptlen.toNat) :
    frameWireByte c ipCk icCk (14 + i) = ipWireByte c ipCk i := by
  rw [frameWireByte, if_neg (by omega), Nat.add_sub_cancel_left, datagramWireByte, if_pos h]

theorem frameWireByte_icmp (c : Context) (ipCk icCk : BitVec 16) (i : Nat) :
    frameWireByte c ipCk icCk (34 + c.ipOptlen.toNat + i) = icmpWireByte c icCk i := by
  rw [frameWireByte, if_neg (by omega), datagramWireByte, if_neg (by omega)]
  congr 1
  omega

end Sys2Proof.Machine
end

section
/-! SUPPORT. What the bodies of the send flow and of the receive flow make of a context where they raise nothing. -/

namespace Sys2Proof.Machine

/-- A command whose body raises nothing: the next state, and its context in it. -/
theorem exec_of_body_ok {i : Instr} {x : BitVec 4} (h : commandContext i = some x) {s : State} {c c' : Context}
    (hc : s.ctxs[x.toNat]? = some c) (hb : commandBody s i c = .ok c') :
    exec i s = .next (s.putCtx x.toNat c') ∧ (s.putCtx x.toNat c').ctxs[x.toNat]? = some c' :=
  ⟨by rw [exec_command_of_get h hc, hb, settle_ok], putCtx_get_same (lt_nctx_of_getElem? hc) c'⟩

/-! ## `ICMP_MKREQ`, `IP_MK`, `ETH_MK` -/

/-- The 12 timestamp bytes of a request (R112). -/
theorem timestamp_read (b : Buffer) (sec : BitVec 64) (sub : BitVec 32) (i : Nat) :
    (b.writeBytes 0 (be64 sec ++ be32 sub)).read i =
      if i < 8 then sec.extractLsb' (56 - 8 * i) 8
      else if i < 12 then sub.extractLsb' (24 - 8 * (i - 8)) 8
      else b.read i := by
  have hlen : 0 + (be64 sec ++ be32 sub).length = 12 := rfl
  rw [read_writeBytes, hlen]
  by_cases h : i < 12
  · rw [if_pos ⟨Nat.zero_le i, h⟩]
    interval_cases i <;> rfl
  · rw [if_neg (by omega), if_neg (by omega), if_neg h]

/-- The record of a context without options with the header's first byte and its total length filled in (R133,
R134). -/
def Context.withLengths (c : Context) : Context :=
  { c with ipVihl := 0x45, ipTlen := BitVec.ofNat 16 (28 + c.icPlen.toNat) }

/-- `IP_MK` of a record without options (R132 to R135). -/
theorem ipMkBody_noOptions {cfg : Config} {c : Context} (hopt : c.ipOptlen = 0)
    (hplen : c.icPlen.toNat ≤ cfg.payCap) :
    ipMkBody cfg c = .ok { c.withLengths with ipCsum := ipChecksum c.withLengths, status := 0x20 } := by
  have hol : c.ipOptlen.toNat = 0 := by rw [hopt]; rfl
  have hc : c = { c with ipOptlen := 0 } := by rw [← hopt]
  simp only [ipMkBody, inetCsum_ipHdrBytes]
  rw [if_neg (by omega), if_neg (by omega), hol, hc]
  rfl

/-- The record of a probe: a context after `ICMP_MKREQ`, `IP_MK` and `ETH_MK` of the send flow (R96), where it had no
options. -/
def probe (s : State) (seq : BitVec 16) (c : Context) : Context :=
  let request := { c with
    icType := 8, icCode := 0, icCsum := 0, icId := s.ident, icSeq := seq, icPlen := 12
    pay := c.pay.writeBytes 0 (be64 s.timeSec ++ be32 s.timeSub) }.withLengths
  { request with
    ipCsum := ipChecksum request
    ethDst := if s.peerEn then s.macPeer else macBroadcast
    ethSrc := s.macLocal
    ethType := 0x0800
    status := 0x30 }

/-! ## `ETH_ENC` -/

/-- A context after a successful `ETH_ENC`. -/
def Context.framed (c : Context) : Context :=
  (emit { c with icCsum := icmpChecksum c }
    ((List.range (ethLen c)).map (frameWireByte c c.ipCsum (icmpChecksum c)))).finish .ok .eth

theorem ethEncBody_ok {cfg : Config} {c : Context} (hopt : c.ipOptlen.toNat ≤ cfg.optMax)
    (hplen : c.icPlen.toNat ≤ cfg.payCap) (hlen : ethLen c ≤ cfg.wbufMax) : ethEncBody cfg c = .ok c.framed := by
  rw [ethEncBody, ipEncode_eq, if_neg (by omega), if_neg (by omega)]
  have hframe : ethHdrBytes { c with icCsum := icmpChecksum c }
      ++ (List.range (ipLen c)).map (datagramWireByte c c.ipCsum (icmpChecksum c)) =
      (List.range (ethLen c)).map (frameWireByte c c.ipCsum (icmpChecksum c)) := frame_eq_wire c _ _
  simp only [hframe, List.length_map, List.length_range]
  rw [if_neg (by omega)]
  rfl

theorem framed_wlen {c : Context} (h : ethLen c ≤ 65535) : c.framed.wlen.toNat = ethLen c := by
  rw [Context.framed, finish_wlen, emit_wlen, List.length_map, List.length_range, BitVec.toNat_ofNat,
    Nat.mod_eq_of_lt (by omega)]

/-- `ETH_ENC` lays the frame down and keeps the bytes after it (R154). -/
theorem framed_read (c : Context) (i : Nat) : c.framed.wbuf.read i =
    if i < ethLen c then frameWireByte c c.ipCsum (icmpChecksum c) i else c.wbuf.read i := by
  rw [Context.framed, finish_wbuf, emit_read]

theorem framed_read_eth {c : Context} {i : Nat} (h : i < 14) : c.framed.wbuf.read i = ethWireByte c i := by
  have hi : i < ethLen c := Nat.lt_add_right _ h
  rw [framed_read, if_pos hi, frameWireByte_eth c _ _ h]

theorem framed_read_ip {c : Context} {i : Nat} (h : i < 20 + c.ipOptlen.toNat) :
    c.framed.wbuf.read (14 + i) = ipWireByte c c.ipCsum i := by
  have hi : 14 + i < ethLen c := by simp only [ethLen, ipLen]; omega
  rw [framed_read, if_pos hi, frameWireByte_ip c _ _ h]

theorem framed_read_icmp {c : Context} {i : Nat} (h : i < icmpLen c) :
    c.framed.wbuf.read (34 + c.ipOptlen.toNat + i) = icmpWireByte c (icmpChecksum c) i := by
  have hi : 34 + c.ipOptlen.toNat + i < ethLen c := by simp only [ethLen, ipLen]; omega
  rw [framed_read, if_pos hi, frameWireByte_icmp]

/-! ## `ETH_DEC` -/

/-- `ETH_DEC` of a long enough buffer whose checksums are right where the mode is strict (R156, R157). -/
theorem ethDecBody_ok {cfg : Config} {strict : Bool} {c : Context} (hmax : c.wlen.toNat ≤ cfg.wbufMax)
    (hmin : 42 ≤ c.wlen.toNat)
    (hok : strict = true → IpWireOk c.wbuf.read 14 ∧ IcmpWireOk c.wbuf.read 34 c.wlen.toNat) :
    ∃ c', ethDecBody cfg strict c = .ok c' ∧ EthParsed c.wbuf.read c' ∧ IpParsed c.wbuf.read 14 c' ∧
      IcmpParsed c.wbuf.read 34 c.wlen.toNat c c' ∧ c' = { c' with
        status := 0x30, csumRes := c.csumRes, wlen := c.wlen, wbuf := c.wbuf, opt := c.opt } := by
  rcases ethDecode_cases c c.wbuf c.wlen.toNat (by omega) with
    ⟨h, -⟩ | ⟨-, h, -⟩ | ⟨-, h, -⟩ | ⟨-, c', e, heth, hip, hicmp, hframe⟩
  · omega
  · omega
  · omega
  · refine ⟨c'.finish .ok .eth, ?_, heth, hip, hicmp, by rw [hframe]; rfl⟩
    simp only [ethDecBody, e, drop_readBytes, ethMin, Nat.zero_add]
    rw [if_neg (by omega)]
    have h14 : 14 + (c.wlen.toNat - 14) = c.wlen.toNat := by omega
    have hchecks := strictChecks_cases strict c.wbuf 14 (n := c.wlen.toNat - 14) (by omega) (c'.finish .ok .eth)
    rw [h14] at hchecks
    rcases hchecks with ⟨-, e⟩ | ⟨hs, hbad, -⟩ | ⟨hs, -, hbad, -⟩
    · exact e
    · exact absurd (hok hs).1 hbad
    · exact absurd (hok hs).2 hbad

/-- The receive flow takes what the send flow has framed, in either mode: a frame without options whose stored header
checksum is right (R159). -/
theorem ethDecBody_framed {cfg : Config} {strict : Bool} {c : Context} (hopt : c.ipOptlen = 0)
    (hcsum : c.ipCsum = ipChecksum c) (hmax : ethLen c ≤ cfg.wbufMax) (hmax16 : ethLen c ≤ 65535) :
    ∃ c', ethDecBody cfg strict c.framed = .ok c' ∧ EthParsed c.framed.wbuf.read c' ∧
      IpParsed c.framed.wbuf.read 14 c' ∧ IcmpParsed c.framed.wbuf.read 34 (34 + icmpLen c) c.framed c' ∧
      c'.status = 0x30 ∧ c'.wlen = c.framed.wlen := by
  have hol : c.ipOptlen.toNat = 0 := congrArg BitVec.toNat hopt
  have hethLen : ethLen c = 34 + icmpLen c := by rw [ethLen, ipLen, hol]; omega
  have hwlen := (framed_wlen hmax16).trans hethLen
  have hip : IpWireOk c.framed.wbuf.read 14 :=
    ipWireOk_of_wire hopt fun i hi => hcsum ▸ framed_read_ip (Nat.lt_add_right _ hi)
  have hicmp : IcmpWireOk c.framed.wbuf.read 34 (34 + icmpLen c) :=
    icmpWireOk_of_wire fun i hi => by simpa [hol] using framed_read_icmp hi
  obtain ⟨c', e, heth, hip', hicmp', hc'⟩ := ethDecBody_ok (cfg := cfg) (strict := strict) (c := c.framed)
    (by omega) (by rw [hwlen, icmpLen]; omega) (fun _ => ⟨hip, hwlen ▸ hicmp⟩)
  exact ⟨c', e, heth, hip', hwlen ▸ hicmp', by rw [hc'], by rw [hc']⟩

end Sys2Proof.Machine
end

section
/-! The send flow and the receive flow. -/

namespace Sys2Proof.Machine

/-- The frame of a probe has 54 bytes. -/
theorem probe_ethLen {s : State} {seq : BitVec 16} {c : Context} (hopt : c.ipOptlen = 0) :
    ethLen (probe s seq c) = 54 := by
  have hol : (probe s seq c).ipOptlen.toNat = 0 := congrArg BitVec.toNat hopt
  rw [ethLen, ipLen, hol]
  rfl

/-- The payload of a probe is the seconds, then the fraction (R112). -/
theorem probe_pay_read_sec (s : State) (seq : BitVec 16) (c : Context) {i : Nat} (hi : i < 8) :
    (probe s seq c).pay.read i = s.timeSec.extractLsb' (56 - 8 * i) 8 :=
  (timestamp_read c.pay s.timeSec s.timeSub i).trans (if_pos hi)

theorem probe_pay_read_sub (s : State) (seq : BitVec 16) (c : Context) {i : Nat} (hi : i < 4) :
    (probe s seq c).pay.read (8 + i) = s.timeSub.extractLsb' (24 - 8 * i) 8 := by
  refine (timestamp_read c.pay s.timeSec s.timeSub _).trans ?_
  rw [if_neg (by omega), if_pos (by omega), Nat.add_sub_cancel_left]

/-- The first three commands of the send flow on a record without options leave the probe, and none of them changes
what the later commands of the flow read of the rest of the state. -/
theorem sendFlow_makes_probe {s : State} {x : BitVec 4} {c : Context} (seq : BitVec 16) (hc : s.ctxs[x.toNat]? = some c)
    (hopt : c.ipOptlen = 0) (hcap : 12 ≤ s.config.payCap) :
    ∃ s1 s2 s3, exec (.icmpMkreq x seq) s = .next s1 ∧ exec (.ipMk x) s1 = .next s2 ∧
      exec (.ethMk x) s2 = .next s3 ∧ s3.ctxs[x.toNat]? = some (probe s seq c) ∧ s3.config = s.config := by
  obtain ⟨e1, h1⟩ := exec_of_body_ok (i := .icmpMkreq x seq) rfl hc rfl
  obtain ⟨e2, h2⟩ := exec_of_body_ok (i := .ipMk x) rfl h1 (ipMkBody_noOptions hopt hcap)
  obtain ⟨e3, h3⟩ := exec_of_body_ok (i := .ethMk x) rfl h2 rfl
  exact ⟨_, _, _, e1, e2, e3, h3, rfl⟩

/-- Settles O53: the send flow frames the probe with both checksums right, so the receive flow accepts the frame in
either mode, and its bytes parse back to the probe's records. -/
theorem sentProbeIsReceivedIntact : Obligations.SentProbeIsReceivedIntact := by
  unfold Obligations.SentProbeIsReceivedIntact
  intro s x seq c hv hmax hc hopt
  have hcap : 12 ≤ s.config.payCap := by simp only [Config.payCap]; omega
  have hlen : ethLen (probe s seq c) = 54 := probe_ethLen hopt
  have hol : (probe s seq c).ipOptlen.toNat = 0 := congrArg BitVec.toNat hopt
  obtain ⟨s1, s2, s3, e1, e2, e3, h3, hcfg⟩ := sendFlow_makes_probe seq hc hopt hcap
  have hfits : ethLen (probe s seq c) ≤ s3.config.wbufMax := by rw [hlen, hcfg]; exact hmax
  obtain ⟨e4, h4⟩ := exec_of_body_ok (i := .ethEnc x) rfl h3 (ethEncBody_ok (by omega) (hcfg ▸ hcap) hfits)
  obtain ⟨c5, hdec, heth, hip, hicmp, hstatus, hwlen⟩ := ethDecBody_framed (cfg := s3.config) (strict := s3.strict)
    (c := probe s seq c) hopt rfl hfits (by omega)
  obtain ⟨e5, h5⟩ := exec_of_body_ok (i := .ethDec x) rfl h4 hdec
  obtain ⟨-, hsrc, htype⟩ := heth.of_wire fun i hi => framed_read_eth hi
  obtain ⟨hvihl, -, htlen, -, -, httl, -, -, hipSrc, hipDst⟩ :=
    hip.of_wire fun i hi => framed_read_ip (Nat.lt_add_right _ hi)
  obtain ⟨hicType, hcode, -, hid, hseq, hplen, hpay⟩ :=
    hicmp.of_wire fun i hi => by simpa [hol] using framed_read_icmp hi
  refine ⟨s1, s2, s3, _, _, c5, e1, e2, e3, e4, e5, h5, hstatus, ?_, hsrc, htype, hvihl, htlen, httl, hipSrc, hipDst,
    hicType, hcode, hid, hseq, hplen, fun i hi => ?_, fun i hi => ?_⟩
  · rw [hwlen, ← BitVec.toNat_inj, framed_wlen (by omega), hlen]
    rfl
  · exact (hpay i (Nat.lt_of_lt_of_le hi (by decide : 8 ≤ 12))).trans (probe_pay_read_sec s seq c hi)
  · exact (hpay _ (Nat.add_lt_add_left hi 8)).trans (probe_pay_read_sub s seq c hi)

end Sys2Proof.Machine
end

section
/-! SUPPORT. The register map of R24 as one table of registers: the tables of the statements are this table, read,
written or measured, and the map of the port answers it. -/

namespace Sys2Proof.Machine

/-! ## The tables -/

/-- Index of each global register (R24). -/
def globalRegs : List (BitVec 8 × GlobalReg) :=
  [(0x00, .cfg), (0x01, .ident), (0x02, .macLocal), (0x03, .macPeer), (0x04, .timeSec), (0x05, .timeSub),
    (0x06, .gerr), (0x07, .cmd)]

/-- Offset of each RW register of a context (R24). -/
def writableRegs : List (Nat × CtxReg) :=
  [(0x02, .wlen), (0x10, .ethDst), (0x11, .ethSrc), (0x12, .ethType), (0x20, .ipVihl), (0x21, .ipTos),
    (0x22, .ipTlen), (0x23, .ipId), (0x24, .ipFlfr), (0x25, .ipTtl), (0x26, .ipProto), (0x27, .ipCsum),
    (0x28, .ipSrc), (0x29, .ipDst), (0x2A, .ipOptlen), (0x30, .icType), (0x31, .icCode), (0x32, .icCsum),
    (0x33, .icId), (0x34, .icSeq), (0x35, .icPlen)]

/-- Offset of each register of a context: the two read-only ones, then the RW ones (R24). -/
def contextRegs : List (Nat × CtxReg) := (0x00, .status) :: (0x01, .csumRes) :: writableRegs

/-- Width of each global register (R24). -/
def GlobalReg.width : GlobalReg → Nat
  | .cfg | .gerr => 2
  | .ident => 16
  | .macLocal | .macPeer => 48
  | .timeSec => 64
  | .timeSub | .cmd => 32

/-- Width of each register of a context (R24). -/
def CtxReg.width : CtxReg → Nat
  | .status => 6
  | .ipVihl | .ipTos | .ipTtl | .ipProto | .icType | .icCode => 8
  | .csumRes | .wlen | .ethType | .ipTlen | .ipId | .ipFlfr | .ipCsum | .ipOptlen => 16
  | .icCsum | .icId | .icSeq | .icPlen => 16
  | .ipSrc | .ipDst => 32
  | .ethDst | .ethSrc => 48

theorem globalView_eq (s : State) : globalView s = globalRegs.map fun p => (p.1, s.readGlobal p.2) := rfl

theorem contextView_eq (c : Context) : contextView c = contextRegs.map fun p => (p.1, c.readReg p.2) := rfl

theorem contextWrites_eq (c : Context) (v : Data) :
    contextWrites c v = writableRegs.map fun p => (p.1, c.writeReg v p.2) := rfl

theorem globalWidths_eq : globalWidths = (globalRegs.take 6).map fun p => (p.1, p.2.width) := rfl

theorem contextWidths_eq : contextWidths = writableRegs.map fun p => (p.1, p.2.width) := rfl

theorem contextRegs_of_writable {p : Nat × CtxReg} (h : p ∈ writableRegs) : p ∈ contextRegs :=
  List.mem_cons_of_mem _ (List.mem_cons_of_mem _ h)

/-! ## What an index names -/

theorem regRef_globalRegs : ∀ p ∈ globalRegs, regRef p.1 = .global p.2 := by decide

theorem ctxRegAt_contextRegs : ∀ p ∈ contextRegs, p.1 < 0x40 ∧ ctxRegAt p.1 = some p.2 := by decide

/-- The index of a context register, in numbers: the 8 bits of an index hold it (R24). -/
theorem contextIndex_toNat {x off : Nat} (hx : x < 3) (hoff : off < 0x40) :
    (contextIndex x off).toNat = 0x40 * (x + 1) + off := by
  rw [contextIndex, BitVec.toNat_ofNat, Nat.mod_eq_of_lt (by omega)]

theorem regRef_contextIndex {x : Nat} (hx : x < 3) {p : Nat × CtxReg} (hp : p ∈ contextRegs) :
    regRef (contextIndex x p.1) = .context x p.2 := by
  obtain ⟨hoff, hr⟩ := ctxRegAt_contextRegs p hp
  have hidx := contextIndex_toNat hx hoff
  have hmod : (contextIndex x p.1).toNat % 0x40 = p.1 := by omega
  have hdiv : (contextIndex x p.1).toNat / 0x40 - 1 = x := by omega
  rw [regRef_context (by omega) (by rw [hmod]; exact hr), hdiv]

theorem contextIndex_ne_cmdIndex {x off : Nat} (hx : x < 3) (hoff : off < 0x40) :
    contextIndex x off ≠ cmdIndex := by
  intro h
  have hidx := contextIndex_toNat hx hoff
  rw [h] at hidx
  have h7 : cmdIndex.toNat = 7 := rfl
  omega

/-- The map answers nothing at an offset outside the table. -/
theorem ctxRegAt_of_not_mem {off : Nat} (h : off ∉ contextRegs.map Prod.fst) : ctxRegAt off = none := by
  simp only [contextRegs, writableRegs, List.map_cons, List.map_nil, List.mem_cons, not_or] at h
  simp [ctxRegAt, h]

theorem globalRegAt_of_le {n : Nat} (h : 0x08 ≤ n) : globalRegAt n = none := by
  have hne (k : Nat) (hk : k < 0x08) : n ≠ k := by omega
  simp [globalRegAt, hne]

theorem regRef_of_ctxRegAt_none {idx : BitVec 8} (h : 0x40 ≤ idx.toNat) (hr : ctxRegAt (idx.toNat % 0x40) = none) :
    regRef idx = .reserved := by simp [regRef, Nat.not_lt.mpr h, hr]

/-- A reserved index (R45) names nothing, or a register of a context that does not exist. -/
theorem ReservedIndex.regRef_cases {n : Nat} {idx : BitVec 8} (h : ReservedIndex n idx) :
    regRef idx = .reserved ∨ ∃ x r, n ≤ x ∧ regRef idx = .context x r := by
  rcases h with ⟨hlo, hhi⟩ | ⟨hlo, hx | hoff⟩
  · left
    simp [regRef, globalRegAt_of_le hlo, show idx.toNat < 0x40 by omega]
  · cases hr : ctxRegAt (idx.toNat % 0x40) with
    | none => exact .inl (regRef_of_ctxRegAt_none hlo hr)
    | some r => exact .inr ⟨_, r, hx, regRef_context hlo hr⟩
  · exact .inl (regRef_of_ctxRegAt_none hlo (ctxRegAt_of_not_mem hoff))

theorem ReservedIndex.ne_cmdIndex {n : Nat} {idx : BitVec 8} (h : ReservedIndex n idx) : idx ≠ cmdIndex := by
  rintro rfl
  have h7 : cmdIndex.toNat = 7 := rfl
  rcases h with ⟨hlo, -⟩ | ⟨hlo, -⟩ <;> omega

/-! ## Reading and writing what an index names -/

theorem exec_regRd (idx : BitVec 8) (s : State) :
    exec (.regRd idx) s = .next { s with reply := .word (s.readReg (regRef idx)) } := rfl

theorem readReg_context {s : State} {x : Nat} {c : Context} (hc : s.ctxs[x]? = some c) (r : CtxReg) :
    s.readReg (.context x r) = c.readReg r := by simp [State.readReg, hc]

theorem writeReg_context {s : State} {x : Nat} {c : Context} (hc : s.ctxs[x]? = some c) (v : Data) (r : CtxReg) :
    s.writeReg v (.context x r) = s.putCtx x (c.writeReg v r) := by simp [State.writeReg, hc]

theorem getElem?_of_nctx_le {s : State} {x : Nat} (h : s.nctx ≤ x) : s.ctxs[x]? = none :=
  List.getElem?_eq_none h

theorem readReg_reserved {s : State} {idx : BitVec 8} (h : ReservedIndex s.nctx idx) : s.readReg (regRef idx) = 0 := by
  rcases h.regRef_cases with e | ⟨x, r, hx, e⟩
  · rw [e]; rfl
  · simp [e, State.readReg, getElem?_of_nctx_le hx]

theorem writeReg_reserved {s : State} {idx : BitVec 8} (h : ReservedIndex s.nctx idx) (v : Data) :
    s.writeReg v (regRef idx) = s := by
  rcases h.regRef_cases with e | ⟨x, r, hx, e⟩
  · rw [e]; rfl
  · simp [e, State.writeReg, getElem?_of_nctx_le hx]

theorem exec_regWr_contextIndex {s : State} {x : Nat} {c : Context} (hx : x < 3) (hc : s.ctxs[x]? = some c)
    {p : Nat × CtxReg} (hp : p ∈ contextRegs) (v : Data) :
    exec (.regWr (contextIndex x p.1) v) s = .next (s.putCtx x (c.writeReg v p.2)) := by
  rw [exec_regWr_of_ne (contextIndex_ne_cmdIndex hx (ctxRegAt_contextRegs p hp).1), regRef_contextIndex hx hp,
    writeReg_context hc]

/-- A value cut to a width and zero-extended is its remainder (R25). -/
theorem setWidth_setWidth_eq_ofNat (v : Data) (w : Nat) :
    (v.setWidth w).setWidth 64 = BitVec.ofNat 64 (v.toNat % 2 ^ w) := by
  apply BitVec.eq_of_toNat_eq
  simp

theorem readGlobal_writeGlobal (s : State) (v : Data) {r : GlobalReg} (hg : r ≠ .gerr) (hc : r ≠ .cmd) :
    (s.writeGlobal v r).readGlobal r = BitVec.ofNat 64 (v.toNat % 2 ^ r.width) := by
  cases r
  case timeSec => exact (BitVec.setWidth_eq v).symm.trans (setWidth_setWidth_eq_ofNat v 64)
  case gerr => exact absurd rfl hg
  case cmd => exact absurd rfl hc
  all_goals exact setWidth_setWidth_eq_ofNat v _

theorem readReg_writeReg (c : Context) (v : Data) {r : CtxReg} (hs : r ≠ .status) (hc : r ≠ .csumRes) :
    (c.writeReg v r).readReg r = BitVec.ofNat 64 (v.toNat % 2 ^ r.width) := by
  cases r
  case status => exact absurd rfl hs
  case csumRes => exact absurd rfl hc
  all_goals exact setWidth_setWidth_eq_ofNat v _

theorem writableRegs_ne : ∀ p ∈ writableRegs, p.2 ≠ .status ∧ p.2 ≠ .csumRes := by decide

/-- The first six global registers keep what is written (R24). -/
theorem globalRegs_take_ne :
    ∀ p ∈ globalRegs.take 6, p ∈ globalRegs ∧ p.1 ≠ cmdIndex ∧ p.2 ≠ .gerr ∧ p.2 ≠ .cmd := by decide

/-! ## The state after a reset -/

/-- Every register of a reset context holds 0 (R206). -/
theorem readReg_reset (fill : Nat) (r : CtxReg) : (Context.reset fill).readReg r = 0 := by cases r <;> rfl

/-- After a reset whatever an index names reads 0 (R206). -/
theorem readReg_afterReset (cfg : Config) (n fill : Nat) (pending : List Input) (r : RegRef) :
    (State.afterReset cfg n fill pending).readReg r = 0 := by
  cases r with
  | global r => cases r <;> rfl
  | reserved => rfl
  | context x r =>
    cases hc : (State.afterReset cfg n fill pending).ctxs[x]? with
    | none => simp [State.readReg, hc]
    | some c =>
      obtain ⟨k, rfl⟩ := mem_resetContexts (List.mem_of_getElem? hc)
      rw [readReg_context hc, readReg_reset]

theorem exec_regRd_afterReset (cfg : Config) (n fill : Nat) (pending : List Input) (idx : BitVec 8) :
    exec (.regRd idx) (State.afterReset cfg n fill pending) =
      .next { State.afterReset cfg n fill pending with reply := .word 0 } := by
  rw [exec_regRd, readReg_afterReset]

/-- The numbers that a reset gives to the buffers are the next ones, each once (log 4). -/
theorem flatMap_fills_resetContexts (n fill : Nat) :
    (resetContexts n fill).flatMap Context.fills = List.range' fill (3 * n) := by
  induction n generalizing fill with
  | zero => rfl
  | succ n ih =>
    rw [resetContexts, List.flatMap_cons, ih, show 3 * (n + 1) = 3 + 3 * n by omega, ← List.range'_append_1]
    rfl

end Sys2Proof.Machine
end

section
/-! The registers: reads, writes, reserved indices, and reset. -/

namespace Sys2Proof.Machine

/-- Settles O17: the tables are the register map, and a reserved index names nothing that exists. -/
theorem regRdReturnsTheRegister : Obligations.RegRdReturnsTheRegister := by
  unfold Obligations.RegRdReturnsTheRegister
  refine ⟨fun s => ?_, fun s x c hx hc => ?_, fun s idx h => ?_⟩
  · rw [globalView_eq]
    refine List.forall_mem_map.mpr fun p hp => ?_
    rw [exec_regRd, regRef_globalRegs p hp]
    rfl
  · rw [contextView_eq]
    refine List.forall_mem_map.mpr fun p hp => ?_
    rw [exec_regRd, regRef_contextIndex hx hp, readReg_context hc]
  · rw [exec_regRd, readReg_reserved h]

/-- Settles O18: a global index is not that of `CMD` and is looked up; the RW registers of a context are the table's,
and a write of a read-only one puts back the context as it was. -/
theorem regWrWritesTheRegister : Obligations.RegWrWritesTheRegister := by
  unfold Obligations.RegWrWritesTheRegister
  refine ⟨fun s v => ?_, fun s x c v hx hc => ⟨?_, ?_, ?_⟩⟩
  · have hglobal {idx : BitVec 8} (h : idx ≠ cmdIndex) := exec_regWr_of_ne h v s
    exact ⟨hglobal (by decide), hglobal (by decide), hglobal (by decide), hglobal (by decide), hglobal (by decide),
      hglobal (by decide), hglobal (by decide)⟩
  · rw [contextWrites_eq]
    exact List.forall_mem_map.mpr fun p hp => exec_regWr_contextIndex hx hc (contextRegs_of_writable hp) v
  · rw [exec_regWr_contextIndex hx hc (p := (0x00, .status)) (by decide), Context.writeReg, putCtx_self hc]
  · rw [exec_regWr_contextIndex hx hc (p := (0x01, .csumRes)) (by decide), Context.writeReg, putCtx_self hc]

/-- Settles O19: a reserved index names nothing that exists, and is not that of `CMD`. -/
theorem reservedIndexReadsZeroIgnoresWrites : Obligations.ReservedIndexReadsZeroIgnoresWrites := by
  unfold Obligations.ReservedIndexReadsZeroIgnoresWrites
  intro s idx h
  exact ⟨by rw [exec_regRd, readReg_reserved h],
    fun v => by rw [exec_regWr_of_ne h.ne_cmdIndex, writeReg_reserved h]⟩

/-- Settles O20: each RW register keeps the remainder of what is written, and its index names it in both accesses. -/
theorem registerReadsBackTruncatedValue : Obligations.RegisterReadsBackTruncatedValue := by
  unfold Obligations.RegisterReadsBackTruncatedValue
  refine ⟨fun s v => ?_, fun s x v hx hn => ?_⟩
  · rw [globalWidths_eq]
    refine List.forall_mem_map.mpr fun p hp => ?_
    obtain ⟨hmem, hcmd, hgerr, hnotCmd⟩ := globalRegs_take_ne p hp
    refine ⟨s.writeGlobal v p.2, ?_, ?_⟩
    · rw [exec_regWr_of_ne hcmd, regRef_globalRegs p hmem]
      rfl
    · rw [exec_regRd, regRef_globalRegs p hmem, ← readGlobal_writeGlobal s v hgerr hnotCmd]
      rfl
  · obtain ⟨c, hc⟩ := get_of_lt hn
    rw [contextWidths_eq]
    refine List.forall_mem_map.mpr fun p hp => ?_
    obtain ⟨hstatus, hcsum⟩ := writableRegs_ne p hp
    refine ⟨_, exec_regWr_contextIndex hx hc (contextRegs_of_writable hp) v, ?_⟩
    rw [exec_regRd, regRef_contextIndex hx (contextRegs_of_writable hp), readReg_context (putCtx_get_same hn _),
      readReg_writeReg c v hstatus hcsum]

/-- Settles O9: the reset event makes the reset state, whose registers hold 0 and whose buffers have the next
numbers. -/
theorem resetEventClearsEveryRegister : Obligations.ResetEventClearsEveryRegister := by
  unfold Obligations.ResetEventClearsEveryRegister
  intro s rest h
  have hfills : (State.afterReset s.config s.nctx s.nextFill rest).ctxs.flatMap Context.fills =
      List.range' s.nextFill (3 * s.nctx) := flatMap_fills_resetContexts _ _
  refine ⟨State.afterReset s.config s.nctx s.nextFill rest, by rw [step, takeInput_cons h]; rfl,
    exec_regRd_afterReset _ _ _ _, afterReset_nctx _ _ _ _, rfl, rfl, rfl, fun c hc => ?_, ?_, fun n hn => ?_⟩
  · obtain ⟨k, rfl⟩ := mem_resetContexts hc
    exact ⟨rfl, rfl, rfl⟩
  · rw [hfills]
    exact List.nodup_range'
  · rw [hfills] at hn
    exact List.mem_range'_1.mp hn

/-- Settles O10: the reset state is a state after reset, and its parameters are written out. -/
theorem resetStateHoldsZeroInEveryRegister : Obligations.ResetStateHoldsZeroInEveryRegister :=
  ⟨exec_regRd_afterReset _ _ _ _, rfl, rfl, rfl, rfl, rfl⟩

end Sys2Proof.Machine
end

section
/-! SUPPORT. What a command leaves of its context: a status that its rules list, and the numbers of the unspecified
contents of its buffers. -/

namespace Sys2Proof.Machine

/-- What a command body answers on `c` where its rules list the statuses `l`: a context with one of them and the fill
numbers of `c`, or a condition that reports one of them. -/
def Leaves (c : Context) (l : List (BitVec 6)) : Except Raised Context → Prop
  | .ok c' => c'.status ∈ l ∧ c'.fills = c.fills
  | .error r => statusWord r.code r.layer ∈ l

/-- The same of the context after the command: a condition writes `STATUS` alone (R186). -/
theorem Leaves.settle {c : Context} {l : List (BitVec 6)} {r : Except Raised Context} (h : Leaves c l r) :
    (c.settle r).status ∈ l ∧ (c.settle r).fills = c.fills := by
  cases r with
  | ok c' => exact h
  | error r => exact ⟨h, rfl⟩

theorem Leaves.raised {c : Context} {l : List (BitVec 6)} {code : Code} {layer : Layer}
    (h : statusWord code layer ∈ l) : Leaves c l (.error ⟨code, layer⟩) := h

/-- A command that ends with its `STATUS` write. -/
theorem Leaves.finished {c c' : Context} {l : List (BitVec 6)} {code : Code} {layer : Layer}
    (h : statusWord code layer ∈ l) (hf : c'.fills = c.fills) : Leaves c l (.ok (c'.finish code layer)) := ⟨h, hf⟩

/-- A verify ends with `OK` or with `CSUM_MISMATCH` of its layer (R118, R142). -/
theorem verdict_leaves (c : Context) (computed stored : BitVec 16) {layer : Layer} {l : List (BitVec 6)}
    (hok : statusWord .ok layer ∈ l) (hbad : statusWord .csumMismatch layer ∈ l) :
    Leaves c l (.ok (verdict c computed stored layer)) := by
  refine ⟨?_, rfl⟩
  rw [verdict_status]
  split
  · exact hok
  · exact hbad

/-! ## Encoding and parsing -/

/-- `IpEncode` (R137) raises `RANGE` at one of two layers, or keeps every buffer. -/
theorem ipEncode_leaves (cfg : Config) (c : Context) :
    ipEncode cfg c = .error ⟨.range, .ip⟩ ∨ ipEncode cfg c = .error ⟨.range, .icmp⟩ ∨
      ∃ c' bs, ipEncode cfg c = .ok (c', bs) ∧ c'.fills = c.fills := by
  rw [ipEncode_eq]
  split
  · exact .inl rfl
  · split
    · exact .inr (.inl rfl)
    · exact .inr (.inr ⟨_, _, rfl, rfl⟩)

/-- `IcmpDecode` (R116) raises one condition, or keeps the fill numbers. -/
theorem icmpDecode_leaves (c : Context) (bs : List Byte) :
    icmpDecode c bs = .error ⟨.truncated, .icmp⟩ ∨ ∃ c', icmpDecode c bs = .ok c' ∧ c'.fills = c.fills := by
  unfold icmpDecode
  split
  · exact .inl rfl
  · exact .inr ⟨_, rfl, rfl⟩

/-- `IpDecode` (R139) raises `TRUNCATED` at one of two layers, or keeps the fill numbers. -/
theorem ipDecode_leaves (c : Context) (bs : List Byte) :
    ipDecode c bs = .error ⟨.truncated, .ip⟩ ∨ ipDecode c bs = .error ⟨.truncated, .icmp⟩ ∨
      ∃ c', ipDecode c bs = .ok c' ∧ c'.fills = c.fills := by
  unfold ipDecode
  split
  · exact .inl rfl
  · exact .inr (icmpDecode_leaves _ _)

/-- The parse of a frame (R156) raises `TRUNCATED` at one of three layers, or keeps the fill numbers. -/
theorem ethDecode_leaves (c : Context) (bs : List Byte) :
    ethDecode c bs = .error ⟨.truncated, .eth⟩ ∨ ethDecode c bs = .error ⟨.truncated, .ip⟩ ∨
      ethDecode c bs = .error ⟨.truncated, .icmp⟩ ∨ ∃ c', ethDecode c bs = .ok c' ∧ c'.fills = c.fills := by
  unfold ethDecode
  split
  · exact .inl rfl
  · exact .inr (ipDecode_leaves _ _)

/-- The strict checks (R141, R157) report the mismatch of a layer, or answer the context as it is. -/
theorem strictChecks_leaves {c c' : Context} {l : List (BitVec 6)} (h : Leaves c l (.ok c'))
    (hip : statusWord .csumMismatch .ip ∈ l) (hicmp : statusWord .csumMismatch .icmp ∈ l) (strict : Bool)
    (bs : List Byte) : Leaves c l (strictChecks strict bs c') := by
  unfold strictChecks
  split
  · exact hip
  · split
    · exact hicmp
    · exact h

/-! ## The twelve commands -/

theorem csumBody_leaves (cfg : Config) (c : Context) : Leaves c [0x00, 0x03] (csumBody cfg c) := by
  unfold csumBody
  split
  · exact .raised (by decide)
  · exact .finished (by decide) rfl

theorem icmpMkreqBody_leaves (ident : BitVec 16) (sec : BitVec 64) (sub : BitVec 32) (seq : BitVec 16) (c : Context) :
    Leaves c [0x10] (icmpMkreqBody ident sec sub seq c) :=
  .finished (by decide) rfl

theorem icmpEncBody_leaves (cfg : Config) (c : Context) : Leaves c [0x10, 0x13] (icmpEncBody cfg c) := by
  rw [icmpEncBody, icmpEncode_eq]
  by_cases h : cfg.payCap < c.icPlen.toNat
  · rw [if_pos h]
    exact .raised (by decide)
  · rw [if_neg h]
    exact .finished (by decide) rfl

theorem icmpDecBody_leaves (cfg : Config) (strict : Bool) (c : Context) :
    Leaves c [0x10, 0x13, 0x11, 0x12] (icmpDecBody cfg strict c) := by
  simp only [icmpDecBody]
  split
  · exact .raised (by decide)
  · rcases icmpDecode_leaves c (c.wbuf.readBytes 0 c.wlen.toNat) with e | ⟨c', e, hf⟩ <;> simp only [e]
    · exact .raised (by decide)
    · split
      · exact .raised (by decide)
      · exact .finished (by decide) hf

theorem icmpVfyBody_leaves (cfg : Config) (c : Context) : Leaves c [0x10, 0x12, 0x13] (icmpVfyBody cfg c) := by
  unfold icmpVfyBody
  split
  · exact .raised (by decide)
  · exact verdict_leaves c _ _ (by decide) (by decide)

theorem ipMkBody_leaves (cfg : Config) (c : Context) : Leaves c [0x20, 0x23, 0x13] (ipMkBody cfg c) := by
  simp only [ipMkBody]
  split
  · exact .raised (by decide)
  · split
    · exact .raised (by decide)
    · exact .finished (by decide) rfl

theorem ipEncBody_leaves (cfg : Config) (c : Context) : Leaves c [0x20, 0x23, 0x13] (ipEncBody cfg c) := by
  rw [ipEncBody]
  rcases ipEncode_leaves cfg c with e | e | ⟨c', bs, e, hf⟩ <;> simp only [e]
  · exact .raised (by decide)
  · exact .raised (by decide)
  · split
    · exact .raised (by decide)
    · exact .finished (by decide) hf

theorem ipDecBody_leaves (cfg : Config) (strict : Bool) (c : Context) :
    Leaves c [0x20, 0x23, 0x21, 0x11, 0x22, 0x12] (ipDecBody cfg strict c) := by
  simp only [ipDecBody]
  split
  · exact .raised (by decide)
  · rcases ipDecode_leaves c (c.wbuf.readBytes 0 c.wlen.toNat) with e | e | ⟨c', e, hf⟩ <;> simp only [e]
    · exact .raised (by decide)
    · exact .raised (by decide)
    · exact strictChecks_leaves (.finished (by decide) hf) (by decide) (by decide) _ _

theorem ipVfyBody_leaves (cfg : Config) (c : Context) : Leaves c [0x20, 0x22, 0x23] (ipVfyBody cfg c) := by
  unfold ipVfyBody
  split
  · exact .raised (by decide)
  · exact verdict_leaves c _ _ (by decide) (by decide)

theorem ethMkBody_leaves (peerEn : Bool) (macPeer macLocal : BitVec 48) (c : Context) :
    Leaves c [0x30] (ethMkBody peerEn macPeer macLocal c) :=
  .finished (by decide) rfl

theorem ethEncBody_leaves (cfg : Config) (c : Context) : Leaves c [0x30, 0x23, 0x13, 0x33] (ethEncBody cfg c) := by
  rw [ethEncBody]
  rcases ipEncode_leaves cfg c with e | e | ⟨c', bs, e, hf⟩ <;> simp only [e]
  · exact .raised (by decide)
  · exact .raised (by decide)
  · split
    · exact .raised (by decide)
    · exact .finished (by decide) hf

theorem ethDecBody_leaves (cfg : Config) (strict : Bool) (c : Context) :
    Leaves c [0x30, 0x33, 0x31, 0x21, 0x11, 0x22, 0x12] (ethDecBody cfg strict c) := by
  simp only [ethDecBody]
  split
  · exact .raised (by decide)
  · rcases ethDecode_leaves c (c.wbuf.readBytes 0 c.wlen.toNat) with e | e | e | ⟨c', e, hf⟩ <;> simp only [e]
    · exact .raised (by decide)
    · exact .raised (by decide)
    · exact .raised (by decide)
    · exact strictChecks_leaves (.finished (by decide) hf) (by decide) (by decide) _ _

/-- Every command leaves a status that its rules list, and the fill numbers. -/
theorem commandBody_leaves {i : Instr} {x : BitVec 4} (h : commandContext i = some x) (s : State) (c : Context) :
    Leaves c (possibleStatus i) (commandBody s i c) := by
  cases i with
  | csum => exact csumBody_leaves _ _
  | icmpMkreq => exact icmpMkreqBody_leaves _ _ _ _ _
  | icmpEnc => exact icmpEncBody_leaves _ _
  | icmpDec => exact icmpDecBody_leaves _ _ _
  | icmpVfy => exact icmpVfyBody_leaves _ _
  | ipMk => exact ipMkBody_leaves _ _
  | ipEnc => exact ipEncBody_leaves _ _
  | ipDec => exact ipDecBody_leaves _ _ _
  | ipVfy => exact ipVfyBody_leaves _ _
  | ethMk => exact ethMkBody_leaves _ _ _ _
  | ethEnc => exact ethEncBody_leaves _ _
  | ethDec => exact ethDecBody_leaves _ _ _
  | regRd | regWr | bufRd | bufWr => cases h

/-! ## The fill numbers -/

theorem settle_commandBody_fills (s : State) (i : Instr) (c : Context) :
    (c.settle (commandBody s i c)).fills = c.fills := by
  cases h : commandContext i with
  | some x => exact (commandBody_leaves h s c).settle.2
  | none =>
    cases i with
    | regRd | regWr | bufRd | bufWr => rfl
    | _ => cases h

/-- Nothing an instruction does to a context changes the fill numbers. -/
theorem ContextChange.fills {s : State} {c c' : Context} (h : ContextChange s c c') : c'.fills = c.fills := by
  cases h with
  | command i => exact settle_commandBody_fills s i c
  | register v r => cases r <;> rfl
  | byte b d => cases b <;> rfl

/-- A context replaced by one with the same fill numbers leaves the numbers of all buffers. -/
theorem flatMap_fills_set {l : List Context} {x : Nat} {c c' : Context} (hc : l[x]? = some c)
    (h : c'.fills = c.fills) : (l.set x c').flatMap Context.fills = l.flatMap Context.fills := by
  obtain ⟨hx, rfl⟩ := List.getElem?_eq_some_iff.mp hc
  have hget : c'.fills = (l.map Context.fills)[x]'(by simpa using hx) := by rw [h, List.getElem_map]
  rw [List.flatMap_def, List.flatMap_def, List.map_set, hget, List.set_getElem_self]

theorem InstrEffect.freshFills {s t : State} (h : InstrEffect s t) (hs : s.FreshFills) : t.FreshFills := by
  have hfills : t.ctxs.flatMap Context.fills = s.ctxs.flatMap Context.fills := by
    rcases h.ctxs with e | ⟨x, c, c', hc, hch, e⟩ <;> rw [e]
    exact flatMap_fills_set hc hch.fills
  unfold State.FreshFills
  rwa [hfills, h.nextFill]

theorem afterReset_freshFills (cfg : Config) (n fill : Nat) (pending : List Input) :
    (State.afterReset cfg n fill pending).FreshFills := by
  have hfills : (State.afterReset cfg n fill pending).ctxs.flatMap Context.fills = List.range' fill (3 * n) :=
    flatMap_fills_resetContexts n fill
  unfold State.FreshFills
  rw [hfills]
  exact ⟨List.nodup_range', fun k hk => (List.mem_range'_1.mp hk).2⟩

end Sys2Proof.Machine
end

section
/-! What a command leaves, and the numbers of unspecified contents. -/

namespace Sys2Proof.Machine

/-- Settles O12: a command on a context that exists replaces it by one whose status its rules list. -/
theorem everyLegalCommandWritesItsStatus : Obligations.EveryLegalCommandWritesItsStatus := by
  unfold Obligations.EveryLegalCommandWritesItsStatus
  intro s i x h hwf
  obtain ⟨c, hc⟩ := get_of_lt ((wf_of_commandContext h _).mp hwf)
  exact ⟨_, exec_command_of_get h hc, (commandBody_leaves h s c).settle.1⟩

/-- Settles O15: an instruction keeps every fill number, and a reset gives out new ones. -/
theorem stepKeepsUnspecifiedContentsApart : Obligations.StepKeepsUnspecifiedContentsApart := by
  unfold Obligations.StepKeepsUnspecifiedContentsApart
  intro s t hs h
  rcases next_cases h with rfl | ⟨rest, rfl⟩ | ⟨rest, he⟩
  · exact hs
  · exact afterReset_freshFills _ _ _ _
  · exact he.freshFills hs

end Sys2Proof.Machine
end

section
/-! SUPPORT. One equation per outcome of a write of `CMD` and of a buffer transaction. -/

namespace Sys2Proof.Machine

/-- A write of an illegal word to `CMD` sets `GERR.ILL` (R93, R189). -/
theorem exec_regWr_illegal {s : State} {v : Data} {e : Illegal} (h : decodeCommand s.nctx (v.setWidth 32) = .error e) :
    exec (.regWr cmdIndex v) s = .next s.setIll := (exec_regWr_cmd v s).trans (execCommandWord_error h)

/-- A write of a legal word to `CMD` executes its command (R40). -/
theorem exec_regWr_legal {s : State} {v : Data} {i : Instr} (h : decodeCommand s.nctx (v.setWidth 32) = .ok i) :
    exec (.regWr cmdIndex v) s = exec i s := (exec_regWr_cmd v s).trans (execCommandWord_ok h)

section
variable {s : State} {x : BitVec 4} {sel : BitVec 2} {off : BitVec 16}

theorem exec_bufRd_found {c : Context} {b : BufName} (h : s.bufferAt x sel off = some (c, b)) :
    exec (.bufRd x sel off) s = .next { s with reply := .byte ((c.buffer b).read off.toNat) } := by
  simp only [exec, execBufRd, h]

theorem exec_bufRd_absent (h : s.bufferAt x sel off = none) :
    exec (.bufRd x sel off) s = .next { s.setBus with reply := .byte 0 } := by
  simp only [exec, execBufRd, h]

theorem exec_bufWr_found {c : Context} {b : BufName} (h : s.bufferAt x sel off = some (c, b)) (d : Byte) :
    exec (.bufWr x sel off d) s =
      .next (s.putCtx x.toNat (c.putBuffer ((c.buffer b).writeBytes off.toNat [d]) b)) := by
  simp only [exec, execBufWr, h]

theorem exec_bufWr_absent (h : s.bufferAt x sel off = none) (d : Byte) :
    exec (.bufWr x sel off d) s = .next s.setBus := by
  simp only [exec, execBufWr, h]

end

end Sys2Proof.Machine
end

section
/-! The command register and the step. -/

namespace Sys2Proof.Machine

/-- Settles O6: a write of `CMD` is the execution of its word, which is the command it decodes to. -/
theorem writingCmdExecutesTheCommand : Obligations.WritingCmdExecutesTheCommand :=
  ⟨fun _ _ _ h => exec_regWr_legal h, fun _ _ _ h => exec_regWr_illegal h, fun s => exec_regRd cmdIndex s⟩

/-- Settles O8: a step takes the oldest input and executes it; a legal word is that of a command on a context that
exists. -/
theorem stepExecutesTheNextInput : Obligations.StepExecutesTheNextInput := by
  unfold Obligations.StepExecutesTheNextInput
  have htransaction (s : State) (t : Transaction) (rest : List Input) (h : s.pending = .transaction t :: rest) :
      step s = exec t.toInstr { s with pending := rest, reply := .nothing } := by rw [step, takeInput_cons h]
  refine ⟨htransaction, fun s v rest i h hd => ⟨?_, ?_⟩, fun s h => by rw [step, takeInput_nil h]⟩
  · obtain ⟨-, hctx, -⟩ := decodeCommand_ok.mp hd
    exact (wf_of_commandContext (commandContext_of_decodeCommand hd) _).mpr hctx
  · exact (htransaction s _ rest h).trans (exec_regWr_legal hd)

end Sys2Proof.Machine
end

section
/-! SUPPORT. Isolation: an instruction neither changes nor reads a context it does not name (R73). -/

namespace Sys2Proof.Machine

/-! ## One context replaced -/

/-- A command body reads the globals and the parameters, no context but its own. -/
theorem commandBody_putCtx (s : State) (y : Nat) (d : Context) (i : Instr) :
    commandBody (s.putCtx y d) i = commandBody s i := by cases i <;> rfl

theorem onContext_get_other (s : State) {x : BitVec 4} {y : Nat} (h : x.toNat ≠ y)
    (body : Context → Except Raised Context) : (s.onContext x body).ctxs[y]? = s.ctxs[y]? := by
  rcases onContext_cases s x body with ⟨-, e⟩ | ⟨c, -, e⟩ <;> rw [e]
  · rfl
  · exact putCtx_get_other s _ h

theorem onContext_putCtx (s : State) {x : BitVec 4} {y : Nat} (h : x.toNat ≠ y) (d : Context)
    (body : Context → Except Raised Context) : (s.putCtx y d).onContext x body = (s.onContext x body).putCtx y d := by
  rcases onContext_cases s x body with ⟨hx, e⟩ | ⟨c, hc, e⟩
  · rw [e, onContext_of_absent (by simpa using hx)]
    rfl
  · rw [e, onContext_of_get ((putCtx_get_other s d h.symm).trans hc), putCtx_comm s _ _ h.symm]

/-- Is a register one of context `y`? -/
def RegRef.Of (y : Nat) : RegRef → Prop
  | .context x _ => x = y
  | .global _ | .reserved => False

theorem readReg_putCtx (s : State) {y : Nat} {r : RegRef} (h : ¬ r.Of y) (d : Context) :
    (s.putCtx y d).readReg r = s.readReg r := by
  cases r with
  | global r => cases r <;> rfl
  | context x r => simp only [State.readReg, putCtx_get_other s d (Ne.symm h)]
  | reserved => rfl

theorem writeReg_get_other (s : State) (v : Data) {y : Nat} {r : RegRef} (h : ¬ r.Of y) :
    (s.writeReg v r).ctxs[y]? = s.ctxs[y]? := by
  cases r with
  | global r => cases r <;> rfl
  | context x r =>
    cases hc : s.ctxs[x]? with
    | none => simp only [State.writeReg, hc]
    | some c => rw [writeReg_context hc, putCtx_get_other s _ h]
  | reserved => rfl

theorem writeReg_putCtx (s : State) (v : Data) {y : Nat} {r : RegRef} (h : ¬ r.Of y) (d : Context) :
    (s.putCtx y d).writeReg v r = (s.writeReg v r).putCtx y d := by
  cases r with
  | global r => cases r <;> rfl
  | context x r =>
    have hget := putCtx_get_other s d (Ne.symm h)
    cases hc : s.ctxs[x]? with
    | none => simp only [State.writeReg, hget, hc]
    | some c => rw [writeReg_context (hget.trans hc), writeReg_context hc, putCtx_comm s _ _ (Ne.symm h)]
  | reserved => rfl

theorem bufferAt_putCtx (s : State) {x : BitVec 4} {y : Nat} (h : x.toNat ≠ y) (d : Context) (sel : BitVec 2)
    (off : BitVec 16) : (s.putCtx y d).bufferAt x sel off = s.bufferAt x sel off := by
  unfold State.bufferAt
  rw [putCtx_get_other s d h.symm, putCtx_config]

/-! ## One instruction -/

/-- On `s` the instruction leaves context `y` as it was, and does the same to the rest whatever stands there. -/
def Isolates (s : State) (i : Instr) (y : Nat) : Prop :=
  ∃ t, exec i s = .next t ∧ t.ctxs[y]? = s.ctxs[y]? ∧ ∀ d, exec i (s.putCtx y d) = .next (t.putCtx y d)

theorem command_isolates {i : Instr} {x : BitVec 4} (h : commandContext i = some x) (s : State) {y : Nat}
    (hy : x.toNat ≠ y) : Isolates s i y :=
  ⟨_, exec_command h s, onContext_get_other s hy _,
    fun d => by rw [exec_command h, commandBody_putCtx, onContext_putCtx s hy]⟩

/-- An index in the range of another context, or in the global range, names no register of context `y`. -/
theorem regRef_not_of {idx : BitVec 8} {y : Nat} (h : indexContext idx ≠ some y) : ¬ (regRef idx).Of y := by
  by_cases hidx : idx.toNat < 0x40
  · cases hr : globalRegAt idx.toNat with
    | none => simp [regRef, hidx, hr, RegRef.Of]
    | some r => simp [regRef_global hidx hr, RegRef.Of]
  · have hge : 0x40 ≤ idx.toNat := Nat.le_of_not_lt hidx
    cases hr : ctxRegAt (idx.toNat % 0x40) with
    | none => simp [regRef_of_ctxRegAt_none hge hr, RegRef.Of]
    | some r => simpa [regRef_context hge hr, RegRef.Of, indexContext, hidx] using h

theorem regRd_isolates {idx : BitVec 8} {y : Nat} (h : indexContext idx ≠ some y) (s : State) :
    Isolates s (.regRd idx) y :=
  ⟨_, exec_regRd idx s, rfl, fun d => by rw [exec_regRd, readReg_putCtx s (regRef_not_of h)]; rfl⟩

theorem regWr_isolates {idx : BitVec 8} {v : Data} {s : State} {y : Nat}
    (h : namedContext s.nctx (.regWr idx v) ≠ some y) : Isolates s (.regWr idx v) y := by
  by_cases hidx : idx = cmdIndex
  · subst hidx
    cases hd : decodeCommand s.nctx (v.setWidth 32) with
    | error e =>
      have hd' (d : Context) : decodeCommand (s.putCtx y d).nctx (v.setWidth 32) = .error e := by simpa using hd
      exact ⟨_, exec_regWr_illegal hd, rfl, fun d => exec_regWr_illegal (hd' d)⟩
    | ok i =>
      have hd' (d : Context) : decodeCommand (s.putCtx y d).nctx (v.setWidth 32) = .ok i := by simpa using hd
      have hx := commandContext_of_decodeCommand hd
      have hy : (CmdWord.ctx (v.setWidth 32)).toNat ≠ y := by simpa [namedContext, cmdIndex, hd, hx] using h
      simp only [Isolates, exec_regWr_legal hd, exec_regWr_legal (hd' _)]
      exact command_isolates hx s hy
  · have hnamed : namedContext s.nctx (.regWr idx v) = indexContext idx := if_neg hidx
    have hy := regRef_not_of (hnamed ▸ h)
    exact ⟨_, exec_regWr_of_ne hidx v s, writeReg_get_other s v hy,
      fun d => by rw [exec_regWr_of_ne hidx, writeReg_putCtx s v hy]⟩

section
variable {x : BitVec 4} {y : Nat} (h : x.toNat ≠ y) (sel : BitVec 2) (off : BitVec 16) (s : State)
include h

theorem bufRd_isolates : Isolates s (.bufRd x sel off) y := by
  cases hb : s.bufferAt x sel off with
  | none => exact ⟨_, exec_bufRd_absent hb, rfl, fun d => exec_bufRd_absent ((bufferAt_putCtx s h d _ _).trans hb)⟩
  | some p => exact ⟨_, exec_bufRd_found hb, rfl, fun d => exec_bufRd_found ((bufferAt_putCtx s h d _ _).trans hb)⟩

theorem bufWr_isolates (b : Byte) : Isolates s (.bufWr x sel off b) y := by
  cases hb : s.bufferAt x sel off with
  | none =>
    exact ⟨_, exec_bufWr_absent hb b, rfl, fun d => exec_bufWr_absent ((bufferAt_putCtx s h d _ _).trans hb) b⟩
  | some p =>
    refine ⟨_, exec_bufWr_found hb b, putCtx_get_other s _ h, fun d => ?_⟩
    rw [exec_bufWr_found ((bufferAt_putCtx s h d _ _).trans hb), putCtx_comm s _ _ h.symm]

end

theorem exec_isolates {s : State} {i : Instr} {y : Nat} (h : namedContext s.nctx i ≠ some y) : Isolates s i y := by
  have ne_of_some {x : BitVec 4} (h : some x.toNat ≠ some y) : x.toNat ≠ y := fun e => h (congrArg some e)
  cases i with
  | regRd idx => exact regRd_isolates h s
  | regWr idx v => exact regWr_isolates h
  | bufRd x sel off => exact bufRd_isolates (ne_of_some h) sel off s
  | bufWr x sel off b => exact bufWr_isolates (ne_of_some h) sel off s b
  | _ => exact command_isolates rfl s (ne_of_some h)

end Sys2Proof.Machine
end

section
/-! What a command keeps of the rest of the state, and contexts apart. -/

namespace Sys2Proof.Machine

/-- Settles O56: a command on a context that exists replaces that context. -/
theorem commandsWriteTheirContextAlone : Obligations.CommandsWriteTheirContextAlone := by
  unfold Obligations.CommandsWriteTheirContextAlone
  intro s t i x h hwf he
  obtain ⟨c, hc⟩ := get_of_lt ((wf_of_commandContext h _).mp hwf)
  obtain rfl := Host.Outcome.next.inj ((exec_command_of_get h hc).symm.trans he)
  exact ⟨rfl, putCtx_nctx _ _ _, fun y hy => putCtx_get_other s _ hy.symm⟩

/-- Settles O57: no instruction changes or reads a context it does not name. -/
theorem contextsAreIsolated : Obligations.ContextsAreIsolated := by
  unfold Obligations.ContextsAreIsolated
  intro s t i y d h _ he
  obtain ⟨u, hu, hget, hput⟩ := exec_isolates h
  obtain rfl := Host.Outcome.next.inj (hu.symm.trans he)
  exact ⟨hget, hput d⟩

/-- Settles O58: each of the two commands replaces its own context by what its body makes of it, which does not hang on
the other context. -/
theorem commandsOnTwoContextsCommute : Obligations.CommandsOnTwoContextsCommute := by
  unfold Obligations.CommandsOnTwoContextsCommute
  intro s i j x y hi hj hne hwi hwj
  obtain ⟨c, hc⟩ := get_of_lt ((wf_of_commandContext hi _).mp hwi)
  obtain ⟨d, hd⟩ := get_of_lt ((wf_of_commandContext hj _).mp hwj)
  have hxy : x.toNat ≠ y.toNat := fun e => hne (BitVec.eq_of_toNat_eq e)
  have hd' (c' : Context) := (putCtx_get_other s c' hxy).trans hd
  have hc' (d' : Context) := (putCtx_get_other s d' hxy.symm).trans hc
  refine ⟨_, _, _, exec_command_of_get hi hc, exec_command_of_get hj (hd' _), exec_command_of_get hj hd, ?_⟩
  rw [exec_command_of_get hi (hc' _), commandBody_putCtx, commandBody_putCtx, putCtx_comm s _ _ hxy]

end Sys2Proof.Machine
end

section
/-! SUPPORT. The error flags: what each instruction does to `GERR` (R41). -/

namespace Sys2Proof.Machine

/-- Bits set on top of others keep them. -/
theorem and_or_self (g m : BitVec 2) : g &&& (g ||| m) = g := by
  revert g m; decide

/-- A command body does not read `GERR`. -/
theorem commandBody_gerr (s : State) (g : BitVec 2) (i : Instr) :
    commandBody { s with gerr := g } i = commandBody s i := by cases i <;> rfl

/-- Only the index of `GERR` names it (R24). -/
theorem regRef_eq_gerr : ∀ idx : BitVec 8, regRef idx = .global .gerr → idx = 0x06 := by decide

theorem writeReg_gerr (s : State) (v : Data) {r : RegRef} (h : r ≠ .global .gerr) :
    (s.writeReg v r).gerr = s.gerr := by
  cases r with
  | global r =>
    cases r with
    | gerr => exact absurd rfl h
    | _ => rfl
  | context x r =>
    cases hc : s.ctxs[x]? with
    | none => simp only [State.writeReg, hc]
    | some c => rw [writeReg_context hc, putCtx_gerr]
  | reserved => rfl

/-- On `s` the instruction goes through and every flag that was set stays set. -/
def KeepsGerr (s : State) (i : Instr) : Prop := ∃ t, exec i s = .next t ∧ s.gerr &&& t.gerr = s.gerr

theorem command_keepsGerr {i : Instr} {x : BitVec 4} (h : commandContext i = some x) (s : State) : KeepsGerr s i := by
  refine ⟨_, exec_command h s, ?_⟩
  rcases onContext_cases s x (commandBody s i) with ⟨-, e⟩ | ⟨c, -, e⟩ <;> rw [e]
  · exact and_or_self _ _
  · exact BitVec.and_self

theorem regWr_keepsGerr {idx : BitVec 8} {v : Data} (h : idx ≠ 0x06) (s : State) : KeepsGerr s (.regWr idx v) := by
  by_cases hidx : idx = cmdIndex
  · subst hidx
    cases hd : decodeCommand s.nctx (v.setWidth 32) with
    | error e => exact ⟨_, exec_regWr_illegal hd, and_or_self _ _⟩
    | ok i =>
      rw [KeepsGerr, exec_regWr_legal hd]
      exact command_keepsGerr (commandContext_of_decodeCommand hd) s
  · refine ⟨_, exec_regWr_of_ne hidx v s, ?_⟩
    rw [writeReg_gerr s v (mt (regRef_eq_gerr idx) h), BitVec.and_self]

/-- Only a write of `GERR` clears a flag (R41). -/
theorem exec_keepsGerr {s : State} {i : Instr} (h : ∀ v, i ≠ .regWr 0x06 v) : KeepsGerr s i := by
  cases i with
  | regRd idx => exact ⟨_, exec_regRd idx s, BitVec.and_self⟩
  | regWr idx v => exact regWr_keepsGerr (fun e => h v (by rw [e])) s
  | bufRd x sel off =>
    cases hb : s.bufferAt x sel off with
    | none => exact ⟨_, exec_bufRd_absent hb, and_or_self _ _⟩
    | some p => exact ⟨_, exec_bufRd_found hb, BitVec.and_self⟩
  | bufWr x sel off d =>
    cases hb : s.bufferAt x sel off with
    | none => exact ⟨_, exec_bufWr_absent hb d, and_or_self _ _⟩
    | some p => exact ⟨_, exec_bufWr_found hb d, BitVec.and_self⟩
  | _ => exact command_keepsGerr rfl s

theorem commandContext_of_isCommand {i : Instr} (h : i.isCommand = true) : ∃ x, commandContext i = some x := by
  cases i with
  | regRd | regWr | bufRd | bufWr => cases h
  | _ => exact ⟨_, rfl⟩

end Sys2Proof.Machine
end

section
/-! The error flags. -/

namespace Sys2Proof.Machine

/-- Settles O21: illegal words and transactions out of range set their flag, a write of `GERR` alone clears one, and no
command body reads them. -/
theorem gerrIsStickyAndSteersNothing : Obligations.GerrIsStickyAndSteersNothing := by
  unfold Obligations.GerrIsStickyAndSteersNothing
  refine ⟨fun s v e h => exec_regWr_illegal h, fun s x sel off d h => ?_,
    fun s v => exec_regWr_of_ne (by decide) v s, fun s => exec_regRd 0x06 s, fun s t i h he => ?_,
    fun s t i g hi hwf he => ?_⟩
  · have hb := (bufferAt_eq_none_iff s x sel off).mpr h
    exact ⟨exec_bufRd_absent hb, exec_bufWr_absent hb d⟩
  · obtain ⟨u, hu, hg⟩ := exec_keepsGerr (s := s) h
    obtain rfl := Host.Outcome.next.inj (hu.symm.trans he)
    exact hg
  · obtain ⟨x, hx⟩ := commandContext_of_isCommand hi
    obtain ⟨c, hc⟩ := get_of_lt ((wf_of_commandContext hx _).mp hwf)
    obtain rfl := Host.Outcome.next.inj ((exec_command_of_get hx hc).symm.trans he)
    refine ⟨rfl, ?_⟩
    rw [exec_command_of_get hx (s := { s with gerr := g }) hc, commandBody_gerr]
    rfl

end Sys2Proof.Machine
end

section
/-! SUPPORT. Bytes beyond the lengths: a command body on a context with other buffers, whose bytes below the length
registers are the same, answers the same (R61). -/

namespace Sys2Proof.Machine

/-- The context with its buffers replaced. -/
def Context.withBuffers (c : Context) (w p o : Buffer) : Context := { c with wbuf := w, pay := p, opt := o }

/-- A byte that two buffers `b`, `d` have in common the buffers `b'`, `d'` made of them have in common too. -/
def KeepsCommon (b d b' d' : Buffer) : Prop := ∀ j, d.read j = b.read j → d'.read j = b'.read j

theorem KeepsCommon.refl (b d : Buffer) : KeepsCommon b d b d := fun _ h => h

theorem KeepsCommon.write (b d : Buffer) (a : Nat) (bs : List Byte) :
    KeepsCommon b d (b.writeBytes a bs) (d.writeBytes a bs) := fun j h => by
  rw [read_writeBytes, read_writeBytes, h]

/-- The context `d'` made of `d` has the registers of `c'` made of `c`, and the buffers keep their common bytes. -/
structure SameChange (c d c' d' : Context) : Prop where
  registers : d' = c'.withBuffers d'.wbuf d'.pay d'.opt
  bytes : ∀ b, KeepsCommon (c.buffer b) (d.buffer b) (c'.buffer b) (d'.buffer b)

/-- The same from the three buffers one by one. -/
theorem SameChange.of_buffers {c d c' d' : Context} (h : d' = c'.withBuffers d'.wbuf d'.pay d'.opt)
    (hw : KeepsCommon c.wbuf d.wbuf c'.wbuf d'.wbuf) (hp : KeepsCommon c.pay d.pay c'.pay d'.pay)
    (ho : KeepsCommon c.opt d.opt c'.opt d'.opt) : SameChange c d c' d' := by
  refine ⟨h, fun b => ?_⟩
  cases b
  · exact hw
  · exact hp
  · exact ho

/-- A change that leaves the buffers alone. -/
theorem SameChange.of_registers {c d c' d' : Context} (h : d' = c'.withBuffers d'.wbuf d'.pay d'.opt)
    (hc : c'.buffer = c.buffer) (hd : d'.buffer = d.buffer) : SameChange c d c' d' :=
  ⟨h, fun b => by rw [hc, hd]; exact .refl _ _⟩

theorem SameChange.finish {c d c' d' : Context} (h : SameChange c d c' d') (code : Code) (layer : Layer) :
    SameChange c d (c'.finish code layer) (d'.finish code layer) :=
  ⟨congrArg (·.finish code layer) h.registers, fun b => by cases b <;> exact h.bytes _⟩

/-- Two answers of command bodies on `c` and on `d`: the same condition, or the same change. -/
inductive SameResult (c d : Context) : Except Raised Context → Except Raised Context → Prop where
  | error (r : Raised) : SameResult c d (.error r) (.error r)
  | ok {c' d' : Context} (h : SameChange c d c' d') : SameResult c d (.ok c') (.ok d')

theorem SameResult.outcomes {c d : Context} {e e' : Except Raised Context} (h : SameResult c d e e') :
    (∃ r, e = .error r ∧ e' = .error r) ∨ ∃ c' d', e = .ok c' ∧ e' = .ok d' ∧ SameChange c d c' d' := by
  cases h with
  | error r => exact .inl ⟨r, rfl, rfl⟩
  | ok h => exact .inr ⟨_, _, rfl, rfl, h⟩

/-- A test that raises on both sides or on neither. -/
theorem SameResult.guard {c d : Context} {q : Prop} [Decidable q] {r : Raised} {e e' : Except Raised Context}
    (h : ¬ q → SameResult c d e e') : SameResult c d (if q then .error r else e) (if q then .error r else e') := by
  split
  · exact .error r
  · exact h ‹_›

/-- Only the buffers of `c` and `d` count. -/
theorem SameResult.of_buffer_eq {c d c₀ d₀ : Context} {e e' : Except Raised Context} (h : SameResult c d e e')
    (hc : c.buffer = c₀.buffer) (hd : d.buffer = d₀.buffer) : SameResult c₀ d₀ e e' := by
  cases h with
  | error r => exact .error r
  | ok h => exact .ok ⟨h.registers, fun b => by rw [← hc, ← hd]; exact h.bytes b⟩

/-! ## Encoding and parsing -/

section
variable (cfg : Config) (c : Context) (w p o : Buffer)

section
variable {c p} (hpay : ∀ j < c.icPlen.toNat, p.read j = c.pay.read j)
include hpay

theorem icmpBytes_withBuffers (ck : BitVec 16) : icmpBytes (c.withBuffers w p o) ck = icmpBytes c ck := by
  have hbytes : p.readBytes 0 c.icPlen.toNat = c.pay.readBytes 0 c.icPlen.toNat :=
    readBytes_congr fun i hi => by rw [Nat.zero_add, hpay i hi]
  exact congrArg (_ ++ ·) hbytes

/-- `IcmpEncode` raises the same, or computes the same checksum and the same bytes. -/
theorem icmpEncode_withBuffers :
    (∃ r, icmpEncode cfg c = .error r ∧ icmpEncode cfg (c.withBuffers w p o) = .error r) ∨
    ∃ ck bs, icmpEncode cfg c = .ok ({ c with icCsum := ck }, bs) ∧
      icmpEncode cfg (c.withBuffers w p o) = .ok ({ c with icCsum := ck }.withBuffers w p o, bs) := by
  simp only [icmpEncode, icmpBytes_withBuffers w o hpay]
  by_cases h : cfg.payCap < c.icPlen.toNat
  · exact .inl ⟨_, if_pos h, if_pos h⟩
  · exact .inr ⟨_, _, if_neg h, if_neg h⟩

end

theorem ipHdrBytes_withBuffers {c : Context} {o : Buffer} (hopt : ∀ j < c.ipOptlen.toNat, o.read j = c.opt.read j)
    (ck : BitVec 16) : ipHdrBytes (c.withBuffers w p o) ck = ipHdrBytes c ck := by
  have hbytes : o.readBytes 0 c.ipOptlen.toNat = c.opt.readBytes 0 c.ipOptlen.toNat :=
    readBytes_congr fun i hi => by rw [Nat.zero_add, hopt i hi]
  exact congrArg (_ ++ ·) hbytes

/-- `IpEncode` raises the same, or computes the same checksum and the same bytes. -/
theorem ipEncode_withBuffers {c : Context} {p o : Buffer} (hpay : ∀ j < c.icPlen.toNat, p.read j = c.pay.read j)
    (hopt : ∀ j < c.ipOptlen.toNat, o.read j = c.opt.read j) :
    (∃ r, ipEncode cfg c = .error r ∧ ipEncode cfg (c.withBuffers w p o) = .error r) ∨
    ∃ ck bs, ipEncode cfg c = .ok ({ c with icCsum := ck }, bs) ∧
      ipEncode cfg (c.withBuffers w p o) = .ok ({ c with icCsum := ck }.withBuffers w p o, bs) := by
  unfold ipEncode
  by_cases h : cfg.optMax < c.ipOptlen.toNat
  · exact .inl ⟨_, if_pos h, if_pos h⟩
  · rcases icmpEncode_withBuffers cfg w o hpay with ⟨r, e, e'⟩ | ⟨ck, bs, e, e'⟩ <;> simp only [e, e']
    · exact .inl ⟨r, if_neg h, if_neg h⟩
    · have hhdr := ipHdrBytes_withBuffers w p (c := { c with icCsum := ck }) hopt
      rw [hhdr]
      exact .inr ⟨_, _, if_neg h, if_neg h⟩

/-- The parse of the same message lays the same payload over either buffer. -/
theorem icmpDecode_withBuffers (bs : List Byte) :
    SameResult c (c.withBuffers w p o) (icmpDecode c bs) (icmpDecode (c.withBuffers w p o) bs) :=
  .guard fun _ => .ok (.of_buffers rfl (.refl _ _) (.write _ _ _ _) (.refl _ _))

theorem ipDecode_withBuffers (bs : List Byte) :
    SameResult c (c.withBuffers w p o) (ipDecode c bs) (ipDecode (c.withBuffers w p o) bs) :=
  .guard fun _ => .of_buffer_eq (icmpDecode_withBuffers _ w p o _) rfl rfl

theorem ethDecode_withBuffers (bs : List Byte) :
    SameResult c (c.withBuffers w p o) (ethDecode c bs) (ethDecode (c.withBuffers w p o) bs) :=
  .guard fun _ => .of_buffer_eq (ipDecode_withBuffers _ w p o _) rfl rfl

theorem strictChecks_same {c d c' d' : Context} (h : SameChange c d c' d') (strict : Bool) (bs : List Byte) :
    SameResult c d (strictChecks strict bs c') (strictChecks strict bs d') :=
  .guard fun _ => .guard fun _ => .ok h

/-- The end of every encode command: the same bytes over either buffer. -/
theorem emit_same (ck : BitVec 16) (bs : List Byte) : SameChange c (c.withBuffers w p o)
    (emit { c with icCsum := ck } bs) (emit ({ c with icCsum := ck }.withBuffers w p o) bs) :=
  .of_buffers rfl (.write _ _ _ _) (.refl _ _) (.refl _ _)

/-- A verify that computes the same checksum. -/
theorem verdict_same {computed computed' : BitVec 16} (h : computed' = computed) (stored : BitVec 16)
    (layer : Layer) : SameResult c (c.withBuffers w p o) (.ok (verdict c computed stored layer))
      (.ok (verdict (c.withBuffers w p o) computed' stored layer)) := by
  subst h
  exact .ok (.of_registers rfl rfl rfl)

/-! ## `IP_MK` -/

/-- A context with the options padded and the lengths filled in, before the checksum (R132 to R134). -/
def Context.padded (c : Context) : Context :=
  let ol := c.ipOptlen.toNat
  let pl := 4 * optionWords ol
  { c with
    opt := c.opt.writeBytes ol (List.replicate (pl - ol) 0)
    ipOptlen := BitVec.ofNat 16 pl
    ipVihl := vihlFor (optionWords ol)
    ipTlen := BitVec.ofNat 16 (20 + pl + 8 + c.icPlen.toNat) }

/-- `IP_MK` (R132 to R136): two tests, then the padded record with its checksum. -/
theorem ipMkBody_eq : ipMkBody cfg c =
    if cfg.optMax < c.ipOptlen.toNat then .error ⟨.range, .ip⟩
    else if cfg.payCap < c.icPlen.toNat then .error ⟨.range, .icmp⟩
    else .ok ({ c.padded with ipCsum := inetCsum (ipHdrBytes c.padded 0) }.finish .ok .ip) := rfl

/-- The padding covers what the options do not, so the padded options are the same. -/
theorem padded_opt_read {c : Context} {o : Buffer} (hopt : ∀ j < c.ipOptlen.toNat, o.read j = c.opt.read j) :
    ∀ j < c.padded.ipOptlen.toNat, (c.withBuffers w p o).padded.opt.read j = c.padded.opt.read j := by
  intro j hj
  simp only [Context.padded, Context.withBuffers, BitVec.toNat_ofNat] at hj ⊢
  rw [read_writeBytes, read_writeBytes, List.length_replicate]
  by_cases h : j < c.ipOptlen.toNat
  · rw [if_neg (by omega), if_neg (by omega), hopt j h]
  · rw [if_pos (by omega), if_pos (by omega)]

theorem ipHdrBytes_padded_withBuffers {c : Context} {o : Buffer}
    (hopt : ∀ j < c.ipOptlen.toNat, o.read j = c.opt.read j) (ck : BitVec 16) :
    ipHdrBytes (c.withBuffers w p o).padded ck = ipHdrBytes c.padded ck :=
  ipHdrBytes_withBuffers w p (padded_opt_read w p hopt) ck

end

/-! ## The twelve commands -/

section
variable (cfg : Config) (strict : Bool) {c : Context} {w p o : Buffer}

section
variable (hwbuf : ∀ j < c.wlen.toNat, w.read j = c.wbuf.read j)
include hwbuf

theorem wireBytes_withBuffers : (c.withBuffers w p o).wbuf.readBytes 0 (c.withBuffers w p o).wlen.toNat =
    c.wbuf.readBytes 0 c.wlen.toNat :=
  readBytes_congr fun i hi => by rw [Nat.zero_add]; exact hwbuf i hi

theorem csumBody_same : SameResult c (c.withBuffers w p o) (csumBody cfg c) (csumBody cfg (c.withBuffers w p o)) := by
  refine .guard fun _ => ?_
  rw [wireBytes_withBuffers hwbuf]
  exact .ok (.of_registers rfl rfl rfl)

theorem icmpDecBody_same :
    SameResult c (c.withBuffers w p o) (icmpDecBody cfg strict c) (icmpDecBody cfg strict (c.withBuffers w p o)) := by
  refine .guard fun _ => ?_
  rw [wireBytes_withBuffers hwbuf]
  rcases (icmpDecode_withBuffers c w p o (c.wbuf.readBytes 0 c.wlen.toNat)).outcomes with
    ⟨r, e, e'⟩ | ⟨c', d', e, e', h⟩ <;> simp only [e, e']
  · exact .error r
  · exact .guard fun _ => .ok (h.finish _ _)

theorem ipDecBody_same :
    SameResult c (c.withBuffers w p o) (ipDecBody cfg strict c) (ipDecBody cfg strict (c.withBuffers w p o)) := by
  refine .guard fun _ => ?_
  rw [wireBytes_withBuffers hwbuf]
  rcases (ipDecode_withBuffers c w p o (c.wbuf.readBytes 0 c.wlen.toNat)).outcomes with
    ⟨r, e, e'⟩ | ⟨c', d', e, e', h⟩ <;> simp only [e, e']
  · exact .error r
  · exact strictChecks_same (h.finish _ _) _ _

theorem ethDecBody_same :
    SameResult c (c.withBuffers w p o) (ethDecBody cfg strict c) (ethDecBody cfg strict (c.withBuffers w p o)) := by
  refine .guard fun _ => ?_
  rw [wireBytes_withBuffers hwbuf]
  rcases (ethDecode_withBuffers c w p o (c.wbuf.readBytes 0 c.wlen.toNat)).outcomes with
    ⟨r, e, e'⟩ | ⟨c', d', e, e', h⟩ <;> simp only [e, e']
  · exact .error r
  · exact strictChecks_same (h.finish _ _) _ _

end

theorem icmpMkreqBody_same (ident : BitVec 16) (sec : BitVec 64) (sub : BitVec 32) (seq : BitVec 16) :
    SameResult c (c.withBuffers w p o) (icmpMkreqBody ident sec sub seq c)
      (icmpMkreqBody ident sec sub seq (c.withBuffers w p o)) :=
  .ok (.of_buffers rfl (.refl _ _) (.write _ _ _ _) (.refl _ _))

theorem ethMkBody_same (peerEn : Bool) (macPeer macLocal : BitVec 48) :
    SameResult c (c.withBuffers w p o) (ethMkBody peerEn macPeer macLocal c)
      (ethMkBody peerEn macPeer macLocal (c.withBuffers w p o)) :=
  .ok (.of_registers rfl rfl rfl)

section
variable (hpay : ∀ j < c.icPlen.toNat, p.read j = c.pay.read j)
include hpay

theorem icmpVfyBody_same :
    SameResult c (c.withBuffers w p o) (icmpVfyBody cfg c) (icmpVfyBody cfg (c.withBuffers w p o)) :=
  .guard fun _ => verdict_same c w p o (congrArg inetCsum (icmpBytes_withBuffers w o hpay 0)) _ _

theorem icmpEncBody_same :
    SameResult c (c.withBuffers w p o) (icmpEncBody cfg c) (icmpEncBody cfg (c.withBuffers w p o)) := by
  unfold icmpEncBody
  rcases icmpEncode_withBuffers cfg w o hpay with ⟨r, e, e'⟩ | ⟨ck, bs, e, e'⟩ <;> rw [e, e']
  · exact .error r
  · exact .ok ((emit_same c w p o ck bs).finish _ _)

end

section
variable (hopt : ∀ j < c.ipOptlen.toNat, o.read j = c.opt.read j)
include hopt

theorem ipVfyBody_same :
    SameResult c (c.withBuffers w p o) (ipVfyBody cfg c) (ipVfyBody cfg (c.withBuffers w p o)) :=
  .guard fun _ => verdict_same c w p o (congrArg inetCsum (ipHdrBytes_withBuffers w p hopt 0)) _ _

theorem ipMkBody_same :
    SameResult c (c.withBuffers w p o) (ipMkBody cfg c) (ipMkBody cfg (c.withBuffers w p o)) := by
  rw [ipMkBody_eq, ipMkBody_eq, ipHdrBytes_padded_withBuffers w p hopt]
  exact .guard fun _ => .guard fun _ => .ok (.of_buffers rfl (.refl _ _) (.refl _ _) (.write _ _ _ _))

end

section
variable (hpay : ∀ j < c.icPlen.toNat, p.read j = c.pay.read j)
  (hopt : ∀ j < c.ipOptlen.toNat, o.read j = c.opt.read j)
include hpay hopt

theorem ipEncBody_same :
    SameResult c (c.withBuffers w p o) (ipEncBody cfg c) (ipEncBody cfg (c.withBuffers w p o)) := by
  unfold ipEncBody
  rcases ipEncode_withBuffers cfg w hpay hopt with ⟨r, e, e'⟩ | ⟨ck, bs, e, e'⟩ <;> rw [e, e']
  · exact .error r
  · exact .guard fun _ => .ok ((emit_same c w p o ck bs).finish _ _)

theorem ethEncBody_same :
    SameResult c (c.withBuffers w p o) (ethEncBody cfg c) (ethEncBody cfg (c.withBuffers w p o)) := by
  unfold ethEncBody
  rcases ipEncode_withBuffers cfg w hpay hopt with ⟨r, e, e'⟩ | ⟨ck, bs, e, e'⟩ <;> rw [e, e']
  · exact .error r
  · exact .guard fun _ => .ok ((emit_same c w p o ck _).finish _ _)

end

/-- No command body reads a byte that no length register covers. -/
theorem commandBody_same {i : Instr} {x : BitVec 4} (h : commandContext i = some x) (s : State)
    (hwbuf : ∀ j < c.wlen.toNat, w.read j = c.wbuf.read j) (hpay : ∀ j < c.icPlen.toNat, p.read j = c.pay.read j)
    (hopt : ∀ j < c.ipOptlen.toNat, o.read j = c.opt.read j) :
    SameResult c (c.withBuffers w p o) (commandBody s i c) (commandBody s i (c.withBuffers w p o)) := by
  cases i with
  | csum => exact csumBody_same _ hwbuf
  | icmpMkreq => exact icmpMkreqBody_same _ _ _ _
  | icmpEnc => exact icmpEncBody_same _ hpay
  | icmpDec => exact icmpDecBody_same _ _ hwbuf
  | icmpVfy => exact icmpVfyBody_same _ hpay
  | ipMk => exact ipMkBody_same _ hopt
  | ipEnc => exact ipEncBody_same _ hpay hopt
  | ipDec => exact ipDecBody_same _ _ hwbuf
  | ipVfy => exact ipVfyBody_same _ hopt
  | ethMk => exact ethMkBody_same _ _ _
  | ethEnc => exact ethEncBody_same _ hpay hopt
  | ethDec => exact ethDecBody_same _ _ hwbuf
  | regRd | regWr | bufRd | bufWr => cases h

/-- The contexts after the command: a condition leaves either with its own buffers (R186). -/
theorem SameResult.settle {c : Context} {w p o : Buffer} {e e' : Except Raised Context}
    (h : SameResult c (c.withBuffers w p o) e e') :
    SameChange c (c.withBuffers w p o) (c.settle e) ((c.withBuffers w p o).settle e') := by
  cases h with
  | error r => exact .of_registers rfl rfl rfl
  | ok h => exact h

end

end Sys2Proof.Machine
end

section
/-! Bytes beyond the lengths. -/

namespace Sys2Proof.Machine

/-- Settles O59: the body answers the same on both contexts. -/
theorem bytesBeyondTheLengthsAreNeverRead : Obligations.BytesBeyondTheLengthsAreNeverRead := by
  unfold Obligations.BytesBeyondTheLengthsAreNeverRead
  intro s i x c d h hc hd hwbuf hpay hopt
  have hx := lt_nctx_of_getElem? hc
  have hsame := (commandBody_same h s hwbuf hpay hopt).settle
  rw [show c.withBuffers d.wbuf d.pay d.opt = d from hd.symm] at hsame
  obtain ⟨hreg, hbytes⟩ := hsame
  refine ⟨_, _, exec_command_of_get h hc, ?_, hreg, hbytes⟩
  rw [exec_command_of_get h (putCtx_get_same hx _), commandBody_putCtx, putCtx_putCtx]

end Sys2Proof.Machine
end

section
/-! SUPPORT. A context in its reset state: no byte of its buffers is covered by a length register (R208). -/

namespace Sys2Proof.Machine

/-- A command whose body raises a condition writes `STATUS` alone (R186). -/
theorem exec_of_body_error {i : Instr} {x : BitVec 4} (h : commandContext i = some x) {s : State} {c : Context}
    (hc : s.ctxs[x.toNat]? = some c) {r : Raised} (hb : commandBody s i c = .error r) :
    exec i s = .next (s.putCtx x.toNat (c.raise r)) := by rw [exec_command_of_get h hc, hb, settle_error]

/-! ## Lengths, bytes and checksums of a reset record -/

section
variable (fill : Nat)

theorem reset_wlen : (Context.reset fill).wlen.toNat = 0 := rfl

theorem reset_icPlen : (Context.reset fill).icPlen.toNat = 0 := rfl

theorem reset_withLengths_ipOptlen : (Context.reset fill).withLengths.ipOptlen.toNat = 0 := rfl

/-- The message of a reset record (R111): eight bytes, 0 but for the checksum. -/
theorem icmpBytes_reset (ck : BitVec 16) : icmpBytes (Context.reset fill) ck = [0, 0] ++ be16 ck ++ [0, 0, 0, 0] := by
  have hzero : be16 0 = [0, 0] := by decide
  rw [icmpBytes, reset_icPlen, readBytes_zero]
  show [0] ++ [0] ++ be16 ck ++ be16 0 ++ be16 0 ++ [] = _
  rw [hzero]
  rfl

theorem inetCsum_icmpBytes_reset : inetCsum (icmpBytes (Context.reset fill) 0) = 0xFFFF := by
  rw [icmpBytes_reset]
  decide

/-- The header of a reset record with its first byte and its total length filled in (R131). -/
theorem ipHdrBytes_reset_withLengths : ipHdrBytes (Context.reset fill).withLengths 0 =
    [0x45, 0, 0, 28, 0, 0, 0, 0, 0, 0, 0, 0, 0, 0, 0, 0, 0, 0, 0, 0] := by
  rw [ipHdrBytes, reset_withLengths_ipOptlen, readBytes_zero]
  show [0x45] ++ [0] ++ be16 28 ++ be16 0 ++ be16 0 ++ [0] ++ [0] ++ be16 0 ++ be32 0 ++ be32 0 ++ [] = _
  decide

theorem ipChecksum_reset_withLengths : ipChecksum (Context.reset fill).withLengths = 0xBAE3 := by
  rw [← inetCsum_ipHdrBytes, ipHdrBytes_reset_withLengths]
  decide

end

/-! ## The commands -/

section
variable (cfg : Config) (strict : Bool) (fill : Nat)

theorem csumBody_reset : csumBody cfg (Context.reset fill) = .ok { Context.reset fill with csumRes := 0xFFFF } := by
  have hnil : inetCsum [] = 0xFFFF := by decide
  rw [csumBody, reset_wlen, if_neg (Nat.not_lt_zero _), readBytes_zero, hnil]
  rfl

theorem icmpEncBody_reset : icmpEncBody cfg (Context.reset fill) =
    .ok ((emit { Context.reset fill with icCsum := 0xFFFF } [0, 0, 0xFF, 0xFF, 0, 0, 0, 0]).finish .ok .icmp) := by
  have hbytes : [0, 0] ++ be16 0xFFFF ++ [0, 0, 0, 0] = ([0, 0, 0xFF, 0xFF, 0, 0, 0, 0] : List Byte) := by decide
  simp only [icmpEncBody, icmpEncode, inetCsum_icmpBytes_reset]
  rw [reset_icPlen, if_neg (Nat.not_lt_zero _), icmpBytes_reset, hbytes]

theorem icmpDecBody_reset : icmpDecBody cfg strict (Context.reset fill) = .error ⟨.truncated, .icmp⟩ := by
  rw [icmpDecBody, reset_wlen, if_neg (Nat.not_lt_zero _)]
  rfl

theorem ipDecBody_reset : ipDecBody cfg strict (Context.reset fill) = .error ⟨.truncated, .ip⟩ := by
  rw [ipDecBody, reset_wlen, if_neg (Nat.not_lt_zero _)]
  rfl

theorem ethDecBody_reset : ethDecBody cfg strict (Context.reset fill) = .error ⟨.truncated, .eth⟩ := by
  rw [ethDecBody, reset_wlen, if_neg (Nat.not_lt_zero _)]
  rfl

theorem icmpVfyBody_reset : icmpVfyBody cfg (Context.reset fill) =
    .ok { Context.reset fill with csumRes := 0xFFFF, status := 0x12 } := by
  have hne : 0xFFFF ≠ (Context.reset fill).icCsum := (by decide : (0xFFFF : BitVec 16) ≠ 0)
  rw [icmpVfyBody, reset_icPlen, if_neg (Nat.not_lt_zero _), inetCsum_icmpBytes_reset, verdict, if_neg hne]
  rfl

theorem ipMkBody_reset : ipMkBody cfg (Context.reset fill) =
    .ok { (Context.reset fill).withLengths with ipCsum := 0xBAE3, status := 0x20 } := by
  rw [ipMkBody_noOptions rfl (Nat.zero_le _), ipChecksum_reset_withLengths]

end

end Sys2Proof.Machine
end

section
/-! The commands on the reset state. -/

namespace Sys2Proof.Machine

/-- Settles O60: each body is evaluated on the reset context; no length register covers an unspecified byte. -/
theorem commandsOnTheResetState : Obligations.CommandsOnTheResetState := by
  unfold Obligations.CommandsOnTheResetState
  intro s x fill _ hc
  obtain ⟨hcsum, -⟩ := exec_of_body_ok (i := .csum x) rfl hc (csumBody_reset s.config fill)
  obtain ⟨henc, -⟩ := exec_of_body_ok (i := .icmpEnc x) rfl hc (icmpEncBody_reset s.config fill)
  obtain ⟨hvfy, -⟩ := exec_of_body_ok (i := .icmpVfy x) rfl hc (icmpVfyBody_reset s.config fill)
  obtain ⟨hmk, -⟩ := exec_of_body_ok (i := .ipMk x) rfl hc (ipMkBody_reset s.config fill)
  refine ⟨hcsum, ⟨_, henc, rfl, rfl, ?_⟩,
    exec_of_body_error (i := .icmpDec x) rfl hc (icmpDecBody_reset s.config s.strict fill),
    exec_of_body_error (i := .ipDec x) rfl hc (ipDecBody_reset s.config s.strict fill),
    exec_of_body_error (i := .ethDec x) rfl hc (ethDecBody_reset s.config s.strict fill),
    hvfy, ⟨_, hmk, rfl, rfl, rfl⟩⟩
  rw [finish_wbuf, emit_wbuf, ← readBytes_eq_map]
  exact readBytes_writeBytes _ _ _

end Sys2Proof.Machine
end

section
/-! SUPPORT. One byte of one buffer written: what the buffers of its context, and a transaction's search for its byte,
read afterwards (R60, R69). -/

namespace Sys2Proof.Machine

theorem read_writeByte (b : Buffer) (off : Nat) (d : Byte) (j : Nat) :
    (b.writeBytes off [d]).read j = if off = j then d else b.read j := by
  rw [read_writeBytes, List.length_singleton]
  by_cases h : off = j
  · subst h
    simp [byteAt]
  · rw [if_neg h, if_neg (by omega)]

/-- The three buffers of a context share no byte. -/
theorem buffer_putBuffer (c : Context) (w : Buffer) (b b' : BufName) :
    (c.putBuffer w b).buffer b' = if b = b' then w else c.buffer b' := by
  cases b <;> cases b' <;> rfl

theorem buffer_putByte_read (c : Context) (b b' : BufName) (off : Nat) (d : Byte) (j : Nat) :
    ((c.putBuffer ((c.buffer b).writeBytes off [d]) b).buffer b').read j =
      if b = b' ∧ off = j then d else (c.buffer b').read j := by
  rw [buffer_putBuffer]
  by_cases h : b = b'
  · subst h
    simp [read_writeByte]
  · simp [h]

/-- No buffer has two selectors (R60). -/
theorem bufSelected_inj {sel sel' : BitVec 2} {b : BufName} (h : bufSelected sel = some b)
    (h' : bufSelected sel' = some b) : sel = sel' := by
  revert sel sel'
  cases b <;> decide

/-- A transaction in range finds a buffer (R178). -/
theorem bufferAt_of_inRange {s : State} {x : BitVec 4} {sel : BitVec 2} {off : BitVec 16} (h : InRange s x sel off) :
    ∃ c b, s.bufferAt x sel off = some (c, b) := by
  cases hb : s.bufferAt x sel off with
  | none => exact absurd h ((bufferAt_eq_none_iff s x sel off).mp hb)
  | some p => exact ⟨p.1, p.2, rfl⟩

/-- With its own context replaced a transaction finds the same buffer of the new one. -/
theorem bufferAt_putCtx_same {s : State} {x : BitVec 4} {sel : BitVec 2} {off : BitVec 16} {c : Context} {b : BufName}
    (h : s.bufferAt x sel off = some (c, b)) (c' : Context) :
    (s.putCtx x.toNat c').bufferAt x sel off = some (c', b) := by
  obtain ⟨hc, hb, hoff⟩ := (bufferAt_eq_some_iff s x sel off c b).mp h
  exact (bufferAt_eq_some_iff _ _ _ _ _ _).mpr ⟨putCtx_get_same (lt_nctx_of_getElem? hc) c', hb, hoff⟩

/-- READ AFTER WRITE, through the transactions: a read after a write returns the byte written where the places are one,
else the byte that stood there before. -/
theorem exec_bufRd_after_bufWr {s : State} {x y : BitVec 4} {sel sel' : BitVec 2} {off off' : BitVec 16}
    {c e : Context} {b b' : BufName} (hw : s.bufferAt x sel off = some (c, b))
    (hr : s.bufferAt y sel' off' = some (e, b')) (d : Byte) :
    ∃ t, exec (.bufWr x sel off d) s = .next t ∧ exec (.bufRd y sel' off') t = .next { t with
      reply := .byte (if x = y ∧ sel = sel' ∧ off = off' then d else (e.buffer b').read off'.toNat) } := by
  refine ⟨_, exec_bufWr_found hw d, ?_⟩
  by_cases hxy : x = y
  · subst hxy
    obtain ⟨hc, hsel, -⟩ := (bufferAt_eq_some_iff s x sel off c b).mp hw
    obtain ⟨he, hsel', -⟩ := (bufferAt_eq_some_iff s x sel' off' e b').mp hr
    obtain rfl : c = e := Option.some.inj (hc.symm.trans he)
    have hname : b = b' ↔ sel = sel' :=
      ⟨fun h => bufSelected_inj hsel (h ▸ hsel'), fun h => Option.some.inj (hsel.symm.trans (h ▸ hsel'))⟩
    rw [exec_bufRd_found (bufferAt_putCtx_same hr _), buffer_putByte_read]
    simp only [hname, BitVec.toNat_inj, true_and]
  · have hne : y.toNat ≠ x.toNat := fun h => hxy (BitVec.eq_of_toNat_eq h).symm
    rw [exec_bufRd_found ((bufferAt_putCtx s hne _ sel' off').trans hr), if_neg fun h => hxy h.1]

end Sys2Proof.Machine
end

section
/-! The bytes of the buffers. -/

namespace Sys2Proof.Machine

/-- Settles O24: the write replaces one byte of one buffer, and places with another context, selector or offset lie
elsewhere. -/
theorem bufRdAfterBufWr : Obligations.BufRdAfterBufWr := by
  unfold Obligations.BufRdAfterBufWr
  intro s x y sel sel' off off' d b hin hin' hbefore
  obtain ⟨c, n, hw⟩ := bufferAt_of_inRange hin
  obtain ⟨e, n', hr⟩ := bufferAt_of_inRange hin'
  have hreply := congrArg State.reply (Host.Outcome.next.inj ((exec_bufRd_found hr).symm.trans hbefore))
  obtain rfl := Reply.byte.inj hreply
  exact exec_bufRd_after_bufWr hw hr d

end Sys2Proof.Machine
end

section
/-! SUPPORT. The command word and its command determine each other: decoding is the inverse of encoding, up to the
context's existence (R90 to R94). -/

namespace Sys2Proof.Machine

/-! ## Which instructions have a word -/

theorem isCommand_of_commandContext {i : Instr} {x : BitVec 4} (h : commandContext i = some x) :
    i.isCommand = true := by
  cases i <;> cases h <;> rfl

theorem commandContext_of_encodeCommand {i : Instr} {w : CmdWord} (h : encodeCommand i = some w) :
    ∃ x, commandContext i = some x := by
  cases i with
  | regRd | regWr | bufRd | bufWr => cases h
  | _ => exact ⟨_, rfl⟩

/-! ## Decoding is the inverse of encoding -/

/-- What the opcode map answers is encoded with the opcode, the context and the immediate it was asked for. -/
theorem encodeCommand_of_decodeOpcode {p : BitVec 8} {x : BitVec 4} {m : BitVec 16} {i : Instr}
    (h : decodeOpcode p x m = .ok i) :
    encodeCommand i = some (p.setWidth 32 ||| (x.setWidth 32 <<< 8) ||| (m.setWidth 32 <<< 16)) := by
  rcases decodeOpcode_ok h with ⟨rfl, rfl⟩ | ⟨rfl, ⟨rfl, rfl⟩ | ⟨rfl, rfl⟩ | ⟨rfl, rfl⟩ | ⟨rfl, rfl⟩ | ⟨rfl, rfl⟩ |
    ⟨rfl, rfl⟩ | ⟨rfl, rfl⟩ | ⟨rfl, rfl⟩ | ⟨rfl, rfl⟩ | ⟨rfl, rfl⟩ | ⟨rfl, rfl⟩⟩
  · rfl
  all_goals exact congrArg some BitVec.or_zero.symm

/-- A word decodes to an instruction exactly when it is that instruction's word and its context exists. -/
theorem decodeCommand_eq_ok_iff {n : Nat} {w : CmdWord} {i : Instr} :
    decodeCommand n w = .ok i ↔ encodeCommand i = some w ∧ (CmdWord.ctx w).toNat < n := by
  constructor
  · intro h
    obtain ⟨hzero, hctx, hop⟩ := decodeCommand_ok.mp h
    exact ⟨by rw [encodeCommand_of_decodeOpcode hop, ← word_of_fields hzero], hctx⟩
  · rintro ⟨hw, hctx⟩
    obtain ⟨x, hx⟩ := commandContext_of_encodeCommand hw
    obtain ⟨p, m, hw', hop⟩ := encodeCommand_fields hx
    obtain rfl := Option.some.inj (hw.symm.trans hw')
    rw [ctx_word] at hctx
    rw [decodeCommand_word p m hctx, hop]

/-! ## The opcode table -/

/-- A word shows the bits `pat` under a mask exactly when it is `pat` with the word's own bits outside the mask. -/
theorem and_eq_iff_or_eq {w mask pat : CmdWord} (h : pat &&& mask = pat) :
    w &&& mask = pat ↔ pat ||| (w &&& ~~~mask) = w := by
  constructor
  · rintro rfl
    rw [← BitVec.and_or_distrib_left, BitVec.or_not_self, BitVec.and_allOnes]
  · intro hw
    calc w &&& mask = mask &&& (pat ||| (w &&& ~~~mask)) := by rw [hw, BitVec.and_comm]
      _ = pat &&& mask ||| w &&& (mask &&& ~~~mask) := by
        rw [BitVec.and_or_distrib_left, BitVec.and_comm mask pat, ← BitVec.and_assoc, BitVec.and_comm mask w,
          BitVec.and_assoc]
      _ = pat := by simp [h]

/-- The bits of a field are the field in its place. -/
theorem and_field (w : CmdWord) (a k : Nat) :
    w &&& ((BitVec.allOnes k).setWidth 32 <<< a) = (w.extractLsb' a k).setWidth 32 <<< a := by
  refine BitVec.eq_of_getLsbD_eq fun i hi => ?_
  simp only [BitVec.getLsbD_and, BitVec.getLsbD_setWidth, BitVec.getLsbD_shiftLeft, BitVec.getLsbD_extractLsb',
    BitVec.getLsbD_allOnes, hi, decide_true, Bool.true_and]
  by_cases ha : i < a
  · simp [ha]
  · rw [show a + (i - a) = i by omega]
    simp only [ha, decide_false, Bool.not_false, Bool.true_and]
    ac_rfl

/-- The mask of a row leaves out the field CTX, that of `ICMP_MKREQ` the immediate too, and no bit of the match
(R92). -/
theorem opcodeMap_masks : ∀ row ∈ opcodeMap, row.pattern &&& row.mask = row.pattern ∧
    row.mask = if row.pattern = 0x00000010 then 0x0000F0FF else 0xFFFFF0FF := by decide

/-- A word selects a row exactly when it is the row's match with its own context and, for `ICMP_MKREQ`, its own
immediate (R92). -/
theorem selects_row_iff {row : OpcodeRow} (h : row ∈ opcodeMap) (w : CmdWord) :
    w &&& row.mask = row.pattern ↔
      (row.pattern ||| ((CmdWord.ctx w).setWidth 32 <<< 8) |||
        if row.pattern = 0x00000010 then (CmdWord.imm w).setWidth 32 <<< 16 else 0) = w := by
  have hctx : ~~~(0xFFFFF0FF : CmdWord) = (BitVec.allOnes 4).setWidth 32 <<< 8 := by decide
  have himm : ~~~(0x0000F0FF : CmdWord) =
      (BitVec.allOnes 4).setWidth 32 <<< 8 ||| (BitVec.allOnes 16).setWidth 32 <<< 16 := by decide
  obtain ⟨hpat, hmask⟩ := opcodeMap_masks row h
  rw [and_eq_iff_or_eq hpat, hmask, BitVec.or_assoc]
  by_cases hmkreq : row.pattern = 0x00000010
  · rw [if_pos hmkreq, if_pos hmkreq, himm, BitVec.and_or_distrib_left, and_field, and_field]
    rfl
  · rw [if_neg hmkreq, if_neg hmkreq, hctx, and_field]
    exact iff_of_eq (congrArg (row.pattern ||| · = w) BitVec.or_zero.symm)

/-- The word of a row's command: its match, its context, and for `ICMP_MKREQ` its immediate (R92). -/
theorem encodeCommand_row {row : OpcodeRow} (h : row ∈ opcodeMap) (x : BitVec 4) (m : BitVec 16) :
    encodeCommand (row.instr x m) = some (row.pattern ||| (x.setWidth 32 <<< 8) |||
      if row.pattern = 0x00000010 then m.setWidth 32 <<< 16 else 0) := by
  simp only [opcodeMap, List.cons_append, List.nil_append, List.mem_cons, List.not_mem_nil, or_false] at h
  rcases h with rfl | rfl | rfl | rfl | rfl | rfl | rfl | rfl | rfl | rfl | rfl | rfl
  case inr.inl => rfl
  all_goals exact congrArg some BitVec.or_zero.symm

/-! ## The illegal words -/

/-- The twelve opcodes of R92. -/
def knownOpcodes : List (BitVec 8) := [0x00, 0x10, 0x11, 0x12, 0x13, 0x20, 0x21, 0x22, 0x23, 0x30, 0x31, 0x32]

/-- The opcode map refuses an opcode of its own exactly for an immediate it does not take, and every other opcode
(R93). -/
theorem decodeOpcode_error_iff (p : BitVec 8) (x : BitVec 4) (m : BitVec 16) :
    (∃ e, decodeOpcode p x m = .error e) ↔ p ∉ knownOpcodes ∨ (m ≠ 0 ∧ p ≠ 0x10) := by
  have himm (i : Instr) : (∃ e, withoutImm m i = .error e) ↔ m ≠ 0 := by
    by_cases hm : m = 0
    · rw [withoutImm, if_pos hm]
      exact ⟨fun ⟨_, he⟩ => (nomatch he), fun h => absurd hm h⟩
    · rw [withoutImm, if_neg hm]
      exact ⟨fun _ => hm, fun _ => ⟨_, rfl⟩⟩
  by_cases hp : p ∈ knownOpcodes
  · rw [or_iff_right (not_not_intro hp)]
    simp only [knownOpcodes, List.mem_cons, List.not_mem_nil, or_false] at hp
    rcases hp with rfl | rfl | rfl | rfl | rfl | rfl | rfl | rfl | rfl | rfl | rfl | rfl
    case inr.inl => simp [decodeOpcode]
    all_goals exact (himm _).trans (and_iff_left (by decide)).symm
  · refine ⟨fun _ => .inl hp, fun _ => ⟨.unknownOpcode, ?_⟩⟩
    simp only [knownOpcodes, List.mem_cons, List.not_mem_nil, or_false, not_or] at hp
    obtain ⟨h0, h1, h2, h3, h4, h5, h6, h7, h8, h9, h10, h11⟩ := hp
    simp only [decodeOpcode, h0, h1, h2, h3, h4, h5, h6, h7, h8, h9, h10, h11, if_false]

/-- The decoder's tests: the field ZERO, the context, then the opcode map (R93, log 9). -/
theorem decodeCommand_error_iff (n : Nat) (w : CmdWord) :
    (∃ e, decodeCommand n w = .error e) ↔
      CmdWord.zero w ≠ 0 ∨ n ≤ (CmdWord.ctx w).toNat ∨
        ∃ e, decodeOpcode (CmdWord.opcode w) (CmdWord.ctx w) (CmdWord.imm w) = .error e := by
  unfold decodeCommand
  by_cases hzero : CmdWord.zero w ≠ 0
  · rw [if_pos hzero]
    exact ⟨fun _ => .inl hzero, fun _ => ⟨_, rfl⟩⟩
  · rw [if_neg hzero, or_iff_right hzero]
    by_cases hctx : n ≤ (CmdWord.ctx w).toNat
    · rw [if_pos hctx]
      exact ⟨fun _ => .inl hctx, fun _ => ⟨_, rfl⟩⟩
    · rw [if_neg hctx, or_iff_right hctx]

end Sys2Proof.Machine
end

section
/-! The command word. -/

namespace Sys2Proof.Machine

/-- Settles O3: a command's word is built from its fields, and the decoder reads each field back. -/
theorem decodeAfterEncodeIsTheCommand : Obligations.DecodeAfterEncodeIsTheCommand := by
  unfold Obligations.DecodeAfterEncodeIsTheCommand
  intro n i hcmd hwf
  obtain ⟨x, hx⟩ := commandContext_of_isCommand hcmd
  obtain ⟨p, m, hw, hop⟩ := encodeCommand_fields hx
  exact ⟨_, hw, (decodeCommand_word p m ((wf_of_commandContext hx n).mp hwf)).trans hop⟩

/-- Settles O2: a word under a row's mask, the row's word and the decoder all turn on the same fields. -/
theorem wordSelectsItsOpcodeRow : Obligations.WordSelectsItsOpcodeRow := by
  unfold Obligations.WordSelectsItsOpcodeRow
  refine ⟨fun row h n w => ?_, fun row h x m => encodeCommand_row h x m, rfl, rfl, rfl, rfl⟩
  rw [selects_row_iff h, decodeCommand_eq_ok_iff, encodeCommand_row h, Option.some.injEq]
  rfl

/-- Settles O4: decoding is the inverse of encoding. -/
theorem legalWordIsItsCommandsWord : Obligations.LegalWordIsItsCommandsWord := by
  unfold Obligations.LegalWordIsItsCommandsWord
  intro n w i h
  obtain ⟨hw, hn⟩ := decodeCommand_eq_ok_iff.mp h
  have hx := commandContext_of_decodeCommand h
  exact ⟨isCommand_of_commandContext hx, (wf_of_commandContext hx n).mpr hn, hw⟩

/-- Settles O5: the decoder's tests are R93's four grounds, and an illegal word only sets `GERR.ILL`. -/
theorem illegalWordSetsIllAndNothingElse : Obligations.IllegalWordSetsIllAndNothingElse := by
  unfold Obligations.IllegalWordSetsIllAndNothingElse
  refine ⟨fun n w => ?_, fun n w i h => isCommand_of_commandContext (commandContext_of_decodeCommand h),
    fun s v e h => exec_regWr_illegal h⟩
  rw [decodeCommand_error_iff, decodeOpcode_error_iff]
  exact or_assoc.symm.trans (or_left_comm.trans (or_congr_right or_assoc))

/-- Settles O1: the decoder evaluated on each word. -/
theorem decodesWrittenOutWords : Obligations.DecodesWrittenOutWords := by
  unfold Obligations.DecodesWrittenOutWords
  decide

end Sys2Proof.Machine
end

section
/-! SUPPORT. What the encode, the decode and the `IP_MK` bodies make of a context where they raise nothing. -/

namespace Sys2Proof.Machine

/-! ## `ICMP_ENC` and `IP_ENC` -/

/-- A context after a successful encode of the `n` bytes `f` on a layer: `IC_CSUM` computed, the bytes and their number
laid down (R115, R137, R154). -/
def Context.encoded (c : Context) (n : Nat) (f : Nat → Byte) (layer : Layer) : Context :=
  (emit { c with icCsum := icmpChecksum c } ((List.range n).map f)).finish .ok layer

theorem encoded_wlen {n : Nat} (h : n ≤ 65535) (c : Context) (f : Nat → Byte) (layer : Layer) :
    (c.encoded n f layer).wlen.toNat = n := by
  rw [Context.encoded, finish_wlen, emit_wlen, List.length_map, List.length_range, BitVec.toNat_ofNat,
    Nat.mod_eq_of_lt (by omega)]

/-- An encode lays its bytes down and keeps the bytes after them. -/
theorem encoded_read (c : Context) (n : Nat) (f : Nat → Byte) (layer : Layer) (i : Nat) :
    (c.encoded n f layer).wbuf.read i = if i < n then f i else c.wbuf.read i := by
  rw [Context.encoded, finish_wbuf, emit_read]

theorem icmpEncBody_ok {cfg : Config} {c : Context} (hplen : c.icPlen.toNat ≤ cfg.payCap) :
    icmpEncBody cfg c = .ok (c.encoded (icmpLen c) (icmpWireByte c (icmpChecksum c)) .icmp) := by
  rw [icmpEncBody, icmpEncode_eq, if_neg (by omega)]
  rfl

theorem ipEncBody_ok {cfg : Config} {c : Context} (hopt : c.ipOptlen.toNat ≤ cfg.optMax)
    (hplen : c.icPlen.toNat ≤ cfg.payCap) (hlen : ipLen c ≤ cfg.wbufMax) :
    ipEncBody cfg c = .ok (c.encoded (ipLen c) (datagramWireByte c c.ipCsum (icmpChecksum c)) .ip) := by
  rw [ipEncBody, ipEncode_eq, if_neg (by omega), if_neg (by omega)]
  simp only [List.length_map, List.length_range]
  rw [if_neg (by omega)]
  rfl

/-- A message whose payload fits its buffer fits `WBUF` (R7). -/
theorem icmpLen_le {cfg : Config} (hv : cfg.Valid) {c : Context} (hplen : c.icPlen.toNat ≤ cfg.payCap) :
    icmpLen c ≤ cfg.wbufMax := by
  obtain ⟨hmin, -⟩ := hv
  rw [Config.payCap] at hplen
  rw [icmpLen]
  omega

/-! ## `ICMP_DEC` and `IP_DEC` -/

/-- `ICMP_DEC` of a long enough buffer whose checksum is right where the mode is strict (R116, R117). -/
theorem icmpDecBody_ok {cfg : Config} {strict : Bool} {c : Context} (hmax : c.wlen.toNat ≤ cfg.wbufMax)
    (hmin : 8 ≤ c.wlen.toNat) (hok : strict = true → IcmpWireOk c.wbuf.read 0 c.wlen.toNat) :
    ∃ c', icmpDecBody cfg strict c = .ok c' ∧ IcmpParsed c.wbuf.read 0 c.wlen.toNat c c' ∧
      c' = { c with icType := c'.icType, icCode := c'.icCode, icCsum := c'.icCsum, icId := c'.icId,
                    icSeq := c'.icSeq, icPlen := c'.icPlen, pay := c'.pay, status := 0x10 } := by
  rcases icmpDecode_cases c c.wbuf 0 c.wlen.toNat (by omega) with ⟨h, -⟩ | ⟨-, c', e, hicmp, hframe⟩
  · omega
  rw [Nat.zero_add] at hicmp
  have hcsum := icmpCsumOk_iff c.wbuf 0 hmin
  rw [Nat.zero_add] at hcsum
  have hpass : (strict && !icmpCsumOk (c.wbuf.readBytes 0 c.wlen.toNat)) = false := by
    cases strict with
    | false => rfl
    | true => rw [hcsum.mpr (hok rfl)]; rfl
  refine ⟨c'.finish .ok .icmp, ?_, hicmp, by rw [hframe]; rfl⟩
  simp only [icmpDecBody, e, hpass]
  rw [if_neg (by omega), if_neg Bool.false_ne_true]

/-- The strict checks pass where both checksums are right (R141, R157). -/
theorem strictChecks_ok {strict : Bool} {b : Buffer} {a n : Nat} (h : 28 ≤ n)
    (hok : strict = true → IpWireOk b.read a ∧ IcmpWireOk b.read (a + 20) (a + n)) (c : Context) :
    strictChecks strict (b.readBytes a n) c = .ok c := by
  rcases strictChecks_cases strict b a h c with ⟨-, e⟩ | ⟨hs, hbad, -⟩ | ⟨hs, -, hbad, -⟩
  · exact e
  · exact absurd (hok hs).1 hbad
  · exact absurd (hok hs).2 hbad

/-- `IP_DEC` of a long enough buffer whose checksums are right where the mode is strict (R139 to R141). -/
theorem ipDecBody_ok {cfg : Config} {strict : Bool} {c : Context} (hmax : c.wlen.toNat ≤ cfg.wbufMax)
    (hmin : 28 ≤ c.wlen.toNat)
    (hok : strict = true → IpWireOk c.wbuf.read 0 ∧ IcmpWireOk c.wbuf.read 20 c.wlen.toNat) :
    ∃ c', ipDecBody cfg strict c = .ok c' ∧ IpParsed c.wbuf.read 0 c' ∧
      IcmpParsed c.wbuf.read 20 c.wlen.toNat c c' ∧ c' = { c' with
        status := 0x20, csumRes := c.csumRes, wlen := c.wlen, ethDst := c.ethDst, ethSrc := c.ethSrc,
        ethType := c.ethType, wbuf := c.wbuf, opt := c.opt } := by
  have hn : 0 + c.wlen.toNat = c.wlen.toNat := Nat.zero_add _
  rcases ipDecode_cases c c.wbuf 0 c.wlen.toNat (by omega) with ⟨h, -⟩ | ⟨-, h, -⟩ | ⟨-, c', e, hip, hicmp, hframe⟩
  · omega
  · omega
  rw [hn] at hicmp
  refine ⟨c'.finish .ok .ip, ?_, hip, hicmp, by rw [hframe]; rfl⟩
  simp only [ipDecBody, e]
  rw [if_neg (by omega), strictChecks_ok hmin (hn.symm ▸ hok)]

/-! ## `IP_MK` -/

section
variable {cfg : Config} {c : Context} (hv : cfg.Valid) (hopt : c.ipOptlen.toNat ≤ cfg.optMax)
include hv hopt

/-- The padded options still fit their buffer, so `IP_OPTLEN` holds their length (R7, R132). -/
theorem padded_ipOptlen : c.padded.ipOptlen.toNat = 4 * optionWords c.ipOptlen.toNat := by
  obtain ⟨-, hmax, hdiv, -⟩ := hv
  simp only [Context.padded, optionWords, BitVec.toNat_ofNat]
  omega

/-- The total length counts the padded options in full (R134). -/
theorem padded_ipTlen (hplen : c.icPlen.toNat ≤ cfg.payCap) :
    c.padded.ipTlen.toNat = 20 + 4 * optionWords c.ipOptlen.toNat + 8 + c.icPlen.toNat := by
  obtain ⟨hmin, hmax, hdiv, -⟩ := hv
  rw [Config.payCap] at hplen
  simp only [Context.padded, optionWords, BitVec.toNat_ofNat]
  omega

end

theorem ipMkBody_ok {cfg : Config} {c : Context} (hopt : c.ipOptlen.toNat ≤ cfg.optMax)
    (hplen : c.icPlen.toNat ≤ cfg.payCap) :
    ipMkBody cfg c = .ok { c.padded with ipCsum := ipChecksum c.padded, status := 0x20 } := by
  rw [ipMkBody_eq, if_neg (by omega), if_neg (by omega), inetCsum_ipHdrBytes]
  rfl

/-- The row of R133's table that an option length falls in. -/
theorem optionWords_eq {n k : Nat} (h : 4 * k < n + 4) (h' : n ≤ 4 * k) : optionWords n = k := by
  rw [optionWords]
  omega

/-- The header-length nibble saturates (R133). -/
theorem vihlFor_saturated {w : Nat} (h : 4 ≤ w) : vihlFor w = 0x49 := by
  rw [vihlFor, ihlExtraCap, Nat.min_eq_right h]
  rfl

end Sys2Proof.Machine
end

section
/-! The serialisations and the parses of the three layers, and the header-length byte. -/

namespace Sys2Proof.Machine

/-- Settles O31: the encoded bytes are the wire format of the message, and they fit `WBUF`. -/
theorem icmpEncSerialisesTheMessage : Obligations.IcmpEncSerialisesTheMessage := by
  unfold Obligations.IcmpEncSerialisesTheMessage
  intro s x c hv hc hplen
  have hfits := icmpLen_le hv hplen
  have h16 : icmpLen c ≤ 65535 := by omega
  obtain ⟨he, -⟩ := exec_of_body_ok (i := .icmpEnc x) rfl hc (icmpEncBody_ok hplen)
  exact ⟨_, he, rfl, encoded_wlen h16 c _ _, hfits, encoded_read c _ _ _⟩

/-- Settles O32: the parse answers the fields from their offsets, and the strict check passes on the message's own
checksum. -/
theorem icmpDecParsesTheMessage : Obligations.IcmpDecParsesTheMessage := by
  unfold Obligations.IcmpDecParsesTheMessage
  intro s x c hc hmax hmin hok
  obtain ⟨c', hdec, hicmp, hframe⟩ := icmpDecBody_ok (cfg := s.config) (strict := s.strict) hmax hmin hok
  obtain ⟨he, -⟩ := exec_of_body_ok (i := .icmpDec x) rfl hc hdec
  exact ⟨c', he, hicmp, hframe⟩

/-- Settles O39: the header-length byte and the padded length depend on the number of option words alone, and the byte
no longer changes from four words on. -/
theorem headerLengthNibbleSaturates : Obligations.HeaderLengthNibbleSaturates := by
  unfold Obligations.HeaderLengthNibbleSaturates
  intro s x c hv hc hopt hplen
  obtain ⟨he, -⟩ := exec_of_body_ok (i := .ipMk x) rfl hc (ipMkBody_ok hopt hplen)
  have hrow {k : Nat} (h : optionWords c.ipOptlen.toNat = k) :
      c.padded.ipVihl = vihlFor k ∧ c.padded.ipOptlen = BitVec.ofNat 16 (4 * k) := by
    rw [← h]
    exact ⟨rfl, rfl⟩
  refine ⟨_, he, rfl, fun h => hrow (optionWords_eq (k := 0) (by omega) (by omega)),
    fun h h' => hrow (optionWords_eq (k := 1) (by omega) (by omega)),
    fun h h' => hrow (optionWords_eq (k := 2) (by omega) (by omega)),
    fun h h' => hrow (optionWords_eq (k := 3) (by omega) (by omega)),
    fun h h' => hrow (optionWords_eq (k := 4) (by omega) (by omega)), fun k hk h h' => ?_⟩
  have hw : optionWords c.ipOptlen.toNat = k := optionWords_eq (by omega) h'
  exact ⟨(hrow hw).1.trans (vihlFor_saturated (by omega)), hw ▸ padded_ipOptlen hv hopt,
    hw ▸ padded_ipTlen hv hopt hplen⟩

/-- Settles O40: the encoded bytes are the wire format of the datagram with the stored header checksum. -/
theorem ipEncSerialisesTheDatagram : Obligations.IpEncSerialisesTheDatagram := by
  unfold Obligations.IpEncSerialisesTheDatagram
  intro s x c hv hc hopt hplen hlen
  have h16 : ipLen c ≤ 65535 := by omega
  obtain ⟨he, -⟩ := exec_of_body_ok (i := .ipEnc x) rfl hc (ipEncBody_ok hopt hplen hlen)
  exact ⟨_, he, rfl, encoded_wlen h16 c _ _, encoded_read c _ _ _⟩

/-- Settles O41: the parse answers both records from their offsets, and the strict checks pass on their own
checksums. -/
theorem ipDecParsesTheDatagram : Obligations.IpDecParsesTheDatagram := by
  unfold Obligations.IpDecParsesTheDatagram
  intro s x c hc hmax hmin hok
  obtain ⟨c', hdec, hip, hicmp, hframe⟩ := ipDecBody_ok (cfg := s.config) (strict := s.strict) hmax hmin hok
  obtain ⟨he, -⟩ := exec_of_body_ok (i := .ipDec x) rfl hc hdec
  refine ⟨c', he, hip, hicmp, ?_⟩
  rw [hframe]
  exact ⟨rfl, rfl, rfl, rfl, rfl, rfl, rfl, rfl⟩

/-- Settles O47: the encoded bytes are the wire format of the frame. -/
theorem ethEncSerialisesTheFrame : Obligations.EthEncSerialisesTheFrame := by
  unfold Obligations.EthEncSerialisesTheFrame
  intro s x c hv hc hopt hplen hlen
  have h16 : ethLen c ≤ 65535 := by omega
  obtain ⟨he, -⟩ := exec_of_body_ok (i := .ethEnc x) rfl hc (ethEncBody_ok hopt hplen hlen)
  exact ⟨_, he, rfl, framed_wlen h16, framed_read c⟩

/-- Settles O48: the parse answers the three records from their offsets, and the strict checks pass on their own
checksums. -/
theorem ethDecParsesTheFrame : Obligations.EthDecParsesTheFrame := by
  unfold Obligations.EthDecParsesTheFrame
  intro s x c hc hmax hmin hok
  obtain ⟨c', hdec, heth, hip, hicmp, hframe⟩ := ethDecBody_ok (cfg := s.config) (strict := s.strict) hmax hmin hok
  obtain ⟨he, -⟩ := exec_of_body_ok (i := .ethDec x) rfl hc hdec
  refine ⟨c', he, heth, hip, hicmp, ?_⟩
  rw [hframe]
  exact ⟨rfl, rfl, rfl, rfl, rfl⟩

end Sys2Proof.Machine
end

section
/-! SUPPORT. A byte sequence with a 16-bit number filled into an even-offset field: its word sum, and when its checksum
is 0x0000 (R165, R170, R172). -/

namespace Sys2Proof.Machine

theorem wordSum_be16 (v : BitVec 16) : wordSum (be16 v) = v.toNat := by
  rw [be16, wordSum_pair, wordSum_nil, Nat.add_zero, ← toNat_append_byte, append_bytes16]

/-- A number in an even-offset field is one word of the sum (R166). -/
theorem wordSum_field {pre : List Byte} (h : pre.length % 2 = 0) (post : List Byte) (v : BitVec 16) :
    wordSum (pre ++ be16 v ++ post) = wordSum pre + v.toNat + wordSum post := by
  have hpre : (pre ++ be16 v).length % 2 = 0 := by
    rw [List.length_append, be16_length]
    omega
  rw [wordSum_append hpre, wordSum_append h, wordSum_be16]

/-- A checksum is 0x0000 exactly for a positive word sum that is 0 in one's complement (R172). -/
theorem inetCsum_eq_zero_iff (b : List Byte) : inetCsum b = 0x0000 ↔ 0 < wordSum b ∧ wordSum b % 65535 = 0 := by
  have hzero : (0x0000 : BitVec 16).toNat = 0 := rfl
  rw [← BitVec.toNat_inj, inetCsum_toNat, hzero]
  split <;> omega

/-- THE IDENTITY TEST AND THE COMPARISON: filling a number into the zeroed field makes the checksum 0x0000 exactly when
the number is the checksum, or is 0xFFFF where the checksum is 0x0000, the two zeros of one's complement (R121,
R170). -/
theorem inetCsum_field_eq_zero_iff {pre : List Byte} (h : pre.length % 2 = 0) (post : List Byte) (v : BitVec 16) :
    inetCsum (pre ++ be16 v ++ post) = 0x0000 ↔
      inetCsum (pre ++ be16 0 ++ post) = v ∨ (inetCsum (pre ++ be16 0 ++ post) = 0x0000 ∧ v = 0xFFFF) := by
  have hzero : (0 : BitVec 16).toNat = 0 := rfl
  have hones : (0xFFFF : BitVec 16).toNat = 65535 := rfl
  have hv := v.isLt
  rw [inetCsum_eq_zero_iff, inetCsum_eq_zero_iff, ← BitVec.toNat_inj, ← BitVec.toNat_inj, inetCsum_toNat,
    wordSum_field h, wordSum_field h, hzero, hones]
  split <;> omega

/-- The same of an ICMP message and its checksum field. -/
theorem inetCsum_icmpWire_eq_zero_iff (c : Context) (ck : BitVec 16) :
    inetCsum ((List.range (icmpLen c)).map (icmpWireByte c ck)) = 0x0000 ↔
      icmpChecksum c = ck ∨ (icmpChecksum c = 0x0000 ∧ ck = 0xFFFF) := by
  have hfield (v : BitVec 16) : icmpBytes c v =
      [c.icType, c.icCode] ++ be16 v ++ (be16 c.icId ++ be16 c.icSeq ++ c.pay.readBytes 0 c.icPlen.toNat) := by
    simp only [icmpBytes, List.append_assoc]
    rfl
  rw [← icmpBytes_eq_wire, ← inetCsum_icmpBytes, hfield, hfield]
  exact inetCsum_field_eq_zero_iff (pre := [c.icType, c.icCode]) (Nat.mod_self 2) _ ck

end Sys2Proof.Machine
end

section
/-! SUPPORT. What the commands of the ICMP family do in each of their cases, and an encode or a decode followed by
another command. -/

namespace Sys2Proof.Machine

/-! ## `ICMP_MKREQ` -/

/-- `ICMP_MKREQ` on a context that exists never raises (R112). -/
theorem exec_icmpMkreq {s : State} {x : BitVec 4} {c : Context} (hc : s.ctxs[x.toNat]? = some c) (seq : BitVec 16) :
    exec (.icmpMkreq x seq) s = .next (s.putCtx x.toNat { c with
      icType := 8, icCode := 0, icCsum := 0, icId := s.ident, icSeq := seq, icPlen := 12, status := 0x10
      pay := c.pay.writeBytes 0 (be64 s.timeSec ++ be32 s.timeSub) }) :=
  (exec_of_body_ok (i := .icmpMkreq x seq) rfl hc rfl).1

/-! ## The conditions of `ICMP_ENC`, `ICMP_DEC` and `ICMP_VFY` -/

section
variable {cfg : Config} {c : Context}

theorem icmpEncBody_range (h : cfg.payCap < c.icPlen.toNat) : icmpEncBody cfg c = .error ⟨.range, .icmp⟩ := by
  rw [icmpEncBody, icmpEncode_eq, if_pos h]

theorem icmpVfyBody_range (h : cfg.payCap < c.icPlen.toNat) : icmpVfyBody cfg c = .error ⟨.range, .icmp⟩ := if_pos h

/-- `ICMP_VFY` with a payload that fits compares and keeps the computed checksum in either case (R118). -/
theorem icmpVfyBody_ok (h : c.icPlen.toNat ≤ cfg.payCap) : icmpVfyBody cfg c =
    .ok { c with csumRes := icmpChecksum c, status := if icmpChecksum c = c.icCsum then 0x10 else 0x12 } := by
  rw [icmpVfyBody, if_neg (by omega), inetCsum_icmpBytes, verdict, Context.finish,
    apply_ite (statusWord · Layer.icmp)]
  rfl

theorem icmpDecBody_range (strict : Bool) (h : cfg.wbufMax < c.wlen.toNat) :
    icmpDecBody cfg strict c = .error ⟨.range, .icmp⟩ := if_pos h

theorem icmpDecBody_truncated (strict : Bool) (hmax : c.wlen.toNat ≤ cfg.wbufMax) (h : c.wlen.toNat < 8) :
    icmpDecBody cfg strict c = .error ⟨.truncated, .icmp⟩ := by
  rcases icmpDecode_cases c c.wbuf 0 c.wlen.toNat (by omega) with ⟨-, e⟩ | ⟨hmin, -⟩
  · rw [icmpDecBody, if_neg (by omega)]
    simp only [e]
  · omega

/-- In strict mode a long enough message with a wrong checksum is not parsed (R117). -/
theorem icmpDecBody_mismatch (hmax : c.wlen.toNat ≤ cfg.wbufMax) (hmin : 8 ≤ c.wlen.toNat)
    (hbad : ¬ IcmpWireOk c.wbuf.read 0 c.wlen.toNat) : icmpDecBody cfg true c = .error ⟨.csumMismatch, .icmp⟩ := by
  have hcsum := icmpCsumOk_iff c.wbuf 0 hmin
  rw [Nat.zero_add] at hcsum
  have hfail : icmpCsumOk (c.wbuf.readBytes 0 c.wlen.toNat) = false :=
    Bool.eq_false_iff.mpr fun h => hbad (hcsum.mp h)
  rcases icmpDecode_cases c c.wbuf 0 c.wlen.toNat (by omega) with ⟨h, -⟩ | ⟨-, c', e, -⟩
  · omega
  · rw [icmpDecBody, if_neg (by omega)]
    simp only [e, hfail]
    rfl

end

/-! ## After `ICMP_ENC` -/

/-- A context after a successful `ICMP_ENC`. -/
def Context.icmpEncoded (c : Context) : Context := c.encoded (icmpLen c) (icmpWireByte c (icmpChecksum c)) .icmp

/-- A second encode of the same bytes changes nothing (R120). -/
theorem encoded_encoded (c : Context) (n : Nat) (f : Nat → Byte) (layer : Layer) :
    (c.encoded n f layer).encoded n f layer = c.encoded n f layer := by
  have hwbuf : (c.encoded n f layer).wbuf.writeBytes 0 ((List.range n).map f) = (c.encoded n f layer).wbuf :=
    writeBytes_writeBytes_same _ _ _
  have hagain : (c.encoded n f layer).encoded n f layer = { c.encoded n f layer with
    wbuf := (c.encoded n f layer).wbuf.writeBytes 0 ((List.range n).map f) } := rfl
  rw [hagain, hwbuf]

/-- An encode reads none of what it has written: the encoded record has the same wire format. -/
theorem icmpEncoded_icmpEncoded (c : Context) : c.icmpEncoded.icmpEncoded = c.icmpEncoded := encoded_encoded c _ _ _

section
variable {c : Context} (h : icmpLen c ≤ 65535)
include h

theorem icmpEncoded_wlen : c.icmpEncoded.wlen.toNat = icmpLen c := encoded_wlen h c _ _

/-- What an encode leaves in `WBUF[0 .. WLEN)` is the message, byte by byte. -/
theorem icmpEncoded_wire : (List.range c.icmpEncoded.wlen.toNat).map c.icmpEncoded.wbuf.read =
    (List.range (icmpLen c)).map (icmpWireByte c (icmpChecksum c)) := by
  rw [icmpEncoded_wlen h]
  exact List.map_congr_left fun i hi => (encoded_read c _ _ _ i).trans (if_pos (List.mem_range.mp hi))

/-- The encoded message sums to zero: the verification identity (R120, R170). -/
theorem inetCsum_icmpEncoded :
    inetCsum ((List.range c.icmpEncoded.wlen.toNat).map c.icmpEncoded.wbuf.read) = 0x0000 := by
  rw [icmpEncoded_wire h, inetCsum_icmpWire_eq_zero_iff]
  exact .inl rfl

/-- `ICMP_DEC` takes what `ICMP_ENC` has laid down, in either mode, and gives the record back (R119). -/
theorem icmpDecBody_icmpEncoded {cfg : Config} (hmax : icmpLen c ≤ cfg.wbufMax) (strict : Bool) :
    ∃ c', icmpDecBody cfg strict c.icmpEncoded = .ok c' ∧ c'.status = 0x10 ∧
      c'.icType = c.icType ∧ c'.icCode = c.icCode ∧ c'.icCsum = icmpChecksum c ∧ c'.icId = c.icId ∧
      c'.icSeq = c.icSeq ∧ c'.icPlen = c.icPlen ∧ ∀ i < c.icPlen.toNat, c'.pay.read i = c.pay.read i := by
  have hwlen := icmpEncoded_wlen h
  have hlen : 0 + icmpLen c = icmpLen c := Nat.zero_add _
  have hbytes : ∀ i < icmpLen c, c.icmpEncoded.wbuf.read (0 + i) = icmpWireByte c (icmpChecksum c) i := fun i hi => by
    rw [Nat.zero_add]
    exact (encoded_read c _ _ _ i).trans (if_pos hi)
  have hok := icmpWireOk_of_wire hbytes
  obtain ⟨c', hdec, hparsed, hframe⟩ := icmpDecBody_ok (cfg := cfg) (strict := strict) (c := c.icmpEncoded)
    (by omega) (by rw [hwlen, icmpLen]; omega) (fun _ => by rw [hwlen, ← hlen]; exact hok)
  rw [hwlen, ← hlen] at hparsed
  exact ⟨c', hdec, by rw [hframe], hparsed.of_wire hbytes⟩

end

/-- `CSUM` of a length within `WBUF` keeps the checksum of `WBUF[0 .. WLEN)` (R171). -/
theorem csumBody_ok {cfg : Config} {c : Context} (h : c.wlen.toNat ≤ cfg.wbufMax) : csumBody cfg c =
    .ok { c with csumRes := inetCsum ((List.range c.wlen.toNat).map c.wbuf.read), status := 0x00 } := by
  rw [csumBody, if_neg (by omega), readBytes_eq_map]
  rfl

/-! ## After `ICMP_DEC` -/

/-- The wire format of a parsed record is the bytes it was parsed from. -/
theorem IcmpParsed.wire {b : Nat → Byte} {base len : Nat} {c c' : Context} (hp : IcmpParsed b base len c c')
    (hlen : base + 8 ≤ len) :
    icmpLen c' = len - base ∧ ∀ i < len - base, icmpWireByte c' c'.icCsum i = b (base + i) := by
  obtain ⟨htype, hcode, hcsum, hid, hseq, hplen, hpay⟩ := hp
  refine ⟨by rw [icmpLen, hplen]; omega, fun i hi => ?_⟩
  by_cases h8 : i < 8
  · rw [icmpWireByte, htype, hcode, hcsum, hid, hseq]
    simp only [BitVec.extractLsb'_append_eq_left, BitVec.extractLsb'_append_eq_right]
    interval_cases i <;> rfl
  · obtain ⟨j, rfl⟩ := Nat.exists_eq_add_of_le (Nat.le_of_not_lt h8)
    have hge (k : Nat) (hk : k < 8) : 8 + j ≠ k := by omega
    simp only [icmpWireByte, hge, Nat.reduceLT, if_false, Nat.add_sub_cancel_left]
    rw [hpay, if_pos (by omega), Nat.add_assoc]

/-- A record parsed from a correctly checksummed message holds its own checksum (R119). -/
theorem IcmpParsed.icmpChecksum_eq {b : Nat → Byte} {base len : Nat} {c c' : Context}
    (hp : IcmpParsed b base len c c') (hlen : base + 8 ≤ len) (hok : IcmpWireOk b base len) :
    icmpChecksum c' = c'.icCsum := by
  obtain ⟨hlen', hwire⟩ := hp.wire hlen
  obtain ⟨-, -, hcsum, -⟩ := hp
  rw [icmpChecksum, hcsum, ← hok, hlen']
  refine congrArg inetCsum (List.map_congr_left fun i hi => ?_)
  rw [icmpWireByte_zero c' c'.icCsum, hwire i (List.mem_range.mp hi)]

end Sys2Proof.Machine
end

section
/-! The ICMP echo codec: the request, the conditions, the round trip, and the two checksum tests. -/

namespace Sys2Proof.Machine

/-- Settles O30: the request's fields and its twelve timestamp bytes; the example is the word of `ICMP_MKREQ 0, 7`,
legal wherever context 0 exists. -/
theorem icmpMkreqBuildsTheRequest : Obligations.IcmpMkreqBuildsTheRequest := by
  unfold Obligations.IcmpMkreqBuildsTheRequest
  refine ⟨fun s x seq c hc => ⟨rfl, _, exec_icmpMkreq hc seq, rfl, timestamp_read c.pay s.timeSec s.timeSub⟩,
    fun s c hc hid hsec hsub => ?_⟩
  have hword : decodeCommand s.nctx ((0x00070010 : Data).setWidth 32) = .ok (.icmpMkreq 0 7) :=
    decodeCommand_eq_ok_iff.mpr ⟨rfl, lt_nctx_of_getElem? hc⟩
  refine ⟨_, (exec_regWr_legal hword).trans (exec_icmpMkreq (x := 0) hc 7), rfl, rfl, rfl, hid, rfl, rfl, ?_⟩
  rw [← readBytes_eq_map, hsec, hsub]
  exact readBytes_writeBytes c.pay 0 (be64 0x0000000065000000 ++ be32 0x075BCD15)

/-- Settles O34: each command's cases, in the order of its tests. -/
theorem icmpFamilyConditions : Obligations.IcmpFamilyConditions := by
  unfold Obligations.IcmpFamilyConditions
  intro s x c hc
  have hvfy (h : c.icPlen.toNat ≤ s.config.payCap) :=
    (exec_of_body_ok (i := .icmpVfy x) rfl hc (icmpVfyBody_ok h)).1
  refine ⟨fun h => ⟨?_, ?_⟩, fun h => ?_, fun hmax h => ?_, fun hmax hmin hs hbad => ?_, fun h hne => ?_,
    fun seq => ⟨_, exec_icmpMkreq hc seq, rfl⟩, fun h => ?_, fun hmax hmin hok => ?_, fun h heq => ?_⟩
  · exact exec_of_body_error (i := .icmpEnc x) rfl hc (icmpEncBody_range h)
  · exact exec_of_body_error (i := .icmpVfy x) rfl hc (icmpVfyBody_range h)
  · exact exec_of_body_error (i := .icmpDec x) rfl hc (icmpDecBody_range s.strict h)
  · exact exec_of_body_error (i := .icmpDec x) rfl hc (icmpDecBody_truncated s.strict hmax h)
  · have hstrict : s.strict = true := hs
    refine exec_of_body_error (i := .icmpDec x) rfl hc (r := ⟨.csumMismatch, .icmp⟩) ?_
    rw [commandBody, hstrict, icmpDecBody_mismatch hmax hmin hbad]
  · rw [hvfy h, if_neg hne]
  · exact ⟨_, (exec_of_body_ok (i := .icmpEnc x) rfl hc (icmpEncBody_ok h)).1, rfl⟩
  · have hpass : s.strict = true → IcmpWireOk c.wbuf.read 0 c.wlen.toNat := fun hs =>
      hok.resolve_left fun hlenient => Bool.noConfusion (hlenient.symm.trans hs)
    obtain ⟨c', hdec, -, hframe⟩ := icmpDecBody_ok hmax hmin hpass
    exact ⟨c', (exec_of_body_ok (i := .icmpDec x) rfl hc hdec).1, by rw [hframe]⟩
  · exact ⟨_, hvfy h, if_pos heq⟩

/-- Settles O35: what was encoded carries its checksum and parses to the record; what was parsed has the parsed bytes
as its wire format, its checksum included. -/
theorem icmpRoundTrip : Obligations.IcmpRoundTrip := by
  unfold Obligations.IcmpRoundTrip
  constructor
  · intro s x c hv hc hplen
    have hfits := icmpLen_le hv hplen
    have h16 : icmpLen c ≤ 65535 := by omega
    obtain ⟨c2, hdec, hstatus, htype, hcode, hcsum, hid, hseq, hplen2, hpay⟩ :=
      icmpDecBody_icmpEncoded h16 hfits s.strict
    obtain ⟨e1, h1⟩ := exec_of_body_ok (i := .icmpEnc x) rfl hc (icmpEncBody_ok hplen)
    obtain ⟨e2, h2⟩ := exec_of_body_ok (i := .icmpDec x) rfl h1 hdec
    exact ⟨_, _, _, c2, e1, h1, rfl, e2, h2, hstatus, htype, hcode, hid, hseq, hplen2, hpay, hcsum⟩
  · intro s x c hv hc hmin hmax hok
    obtain ⟨c1, hdec, hparsed, -⟩ := icmpDecBody_ok (cfg := s.config) (strict := s.strict) hmax hmin fun _ => hok
    obtain ⟨hlen, hwire⟩ := hparsed.wire hmin
    simp only [Nat.sub_zero, Nat.zero_add] at hlen hwire
    have hcsum := hparsed.icmpChecksum_eq hmin hok
    have hplen : c1.icPlen.toNat ≤ s.config.payCap := by
      rw [icmpLen] at hlen
      rw [Config.payCap]
      omega
    have h16 : icmpLen c1 ≤ 65535 := by omega
    obtain ⟨e1, h1⟩ := exec_of_body_ok (i := .icmpDec x) rfl hc hdec
    obtain ⟨e2, h2⟩ := exec_of_body_ok (i := .icmpEnc x) rfl h1 (icmpEncBody_ok hplen)
    refine ⟨_, _, _, e1, e2, h2, ?_, fun i hi => ?_⟩
    · rw [← BitVec.toNat_inj, encoded_wlen h16, hlen]
    · rw [encoded_read, hlen, if_pos hi, hcsum, hwire i hi]

/-- Settles O36: the encoded message sums to zero, and an encode of what was encoded writes the same bytes again. -/
theorem icmpEncChecksumIdentity : Obligations.IcmpEncChecksumIdentity := by
  unfold Obligations.IcmpEncChecksumIdentity
  intro s x c hv hc hplen
  have hfits := icmpLen_le hv hplen
  have h16 : icmpLen c ≤ 65535 := by omega
  obtain ⟨e1, h1⟩ := exec_of_body_ok (i := .icmpEnc x) (c' := c.icmpEncoded) rfl hc (icmpEncBody_ok hplen)
  obtain ⟨e2, h2⟩ := exec_of_body_ok (i := .csum x) rfl h1 (csumBody_ok ((icmpEncoded_wlen h16).trans_le hfits))
  obtain ⟨e3, -⟩ := exec_of_body_ok (i := .icmpEnc x) (c' := c.icmpEncoded.icmpEncoded) rfl h1
    (icmpEncBody_ok hplen)
  rw [icmpEncoded_icmpEncoded, putCtx_self h1] at e3
  exact ⟨_, _, _, _, e1, h1, inetCsum_icmpEncoded h16, e2, h2, inetCsum_icmpEncoded h16, e3⟩

/-- Settles O37: filling the stored checksum into the field gives 0x0000 for the computed one and for the other zero of
one's complement. -/
theorem verifyIsNotTheIdentityTest : Obligations.VerifyIsNotTheIdentityTest := by
  unfold Obligations.VerifyIsNotTheIdentityTest
  intro s x c hc hplen
  obtain ⟨he, -⟩ := exec_of_body_ok (i := .icmpVfy x) rfl hc (icmpVfyBody_ok hplen)
  have hne : (0x10 : BitVec 6) ≠ 0x12 := by decide
  refine ⟨_, he, hne.ite_eq_left_iff, hne.ite_eq_right_iff, ?_⟩
  rw [inetCsum_icmpWire_eq_zero_iff, hne.ite_eq_left_iff]

/-- Settles O33: with a payload that fits, the verify compares the recomputed checksum. -/
theorem icmpVfyComparesTheChecksum : Obligations.IcmpVfyComparesTheChecksum := by
  unfold Obligations.IcmpVfyComparesTheChecksum
  intro s x c hc hplen
  exact (exec_of_body_ok (i := .icmpVfy x) rfl hc (icmpVfyBody_ok hplen)).1

end Sys2Proof.Machine
end

section
/-! SUPPORT. What the commands of the IPv4 family do in each of their cases. -/

namespace Sys2Proof.Machine

section
variable {cfg : Config} {c : Context}

/-! ## `IP_MK` -/

theorem ipMkBody_optRange (h : cfg.optMax < c.ipOptlen.toNat) : ipMkBody cfg c = .error ⟨.range, .ip⟩ := if_pos h

theorem ipMkBody_payRange (hopt : c.ipOptlen.toNat ≤ cfg.optMax) (h : cfg.payCap < c.icPlen.toNat) :
    ipMkBody cfg c = .error ⟨.range, .icmp⟩ := by
  rw [ipMkBody_eq, if_neg (by omega), if_pos h]

/-! ## `IP_ENC` -/

theorem ipEncBody_optRange (h : cfg.optMax < c.ipOptlen.toNat) : ipEncBody cfg c = .error ⟨.range, .ip⟩ := by
  rw [ipEncBody, ipEncode_eq, if_pos h]

theorem ipEncBody_payRange (hopt : c.ipOptlen.toNat ≤ cfg.optMax) (h : cfg.payCap < c.icPlen.toNat) :
    ipEncBody cfg c = .error ⟨.range, .icmp⟩ := by
  rw [ipEncBody, ipEncode_eq, if_neg (by omega), if_pos h]

/-- Both lengths in range, but the datagram does not fit `WBUF` (R137). -/
theorem ipEncBody_lenRange (hopt : c.ipOptlen.toNat ≤ cfg.optMax) (hplen : c.icPlen.toNat ≤ cfg.payCap)
    (h : cfg.wbufMax < ipLen c) : ipEncBody cfg c = .error ⟨.range, .ip⟩ := by
  rw [ipEncBody, ipEncode_eq, if_neg (by omega), if_neg (by omega)]
  simp only [List.length_map, List.length_range]
  rw [if_pos h]

/-! ## `IP_DEC` -/

section
variable (strict : Bool)

theorem ipDecBody_range (h : cfg.wbufMax < c.wlen.toNat) : ipDecBody cfg strict c = .error ⟨.range, .ip⟩ := if_pos h

variable (hmax : c.wlen.toNat ≤ cfg.wbufMax)
include hmax

theorem ipDecBody_truncated_ip (h : c.wlen.toNat < 20) : ipDecBody cfg strict c = .error ⟨.truncated, .ip⟩ := by
  rcases ipDecode_cases c c.wbuf 0 c.wlen.toNat (by omega) with ⟨-, e⟩ | ⟨hmin, -⟩ | ⟨hmin, -⟩
  · rw [ipDecBody, if_neg (by omega)]
    simp only [e]
  · omega
  · omega

theorem ipDecBody_truncated_icmp (hmin : 20 ≤ c.wlen.toNat) (h : c.wlen.toNat < 28) :
    ipDecBody cfg strict c = .error ⟨.truncated, .icmp⟩ := by
  rcases ipDecode_cases c c.wbuf 0 c.wlen.toNat (by omega) with ⟨h20, -⟩ | ⟨-, -, e⟩ | ⟨h28, -⟩
  · omega
  · rw [ipDecBody, if_neg (by omega)]
    simp only [e]
  · omega

/-- A long enough buffer is parsed, so that the strict checks alone can raise a condition (R139, R141). -/
theorem ipDecBody_eq_strictChecks (hmin : 28 ≤ c.wlen.toNat) :
    ∃ c', ipDecBody cfg strict c = strictChecks strict (c.wbuf.readBytes 0 c.wlen.toNat) c' := by
  rcases ipDecode_cases c c.wbuf 0 c.wlen.toNat (by omega) with ⟨h, -⟩ | ⟨-, h, -⟩ | ⟨-, c', e, -⟩
  · omega
  · omega
  · refine ⟨c'.finish .ok .ip, ?_⟩
    rw [ipDecBody, if_neg (by omega)]
    simp only [e]

/-- In strict mode a wrong header checksum is reported before the message's is looked at (R141). -/
theorem ipDecBody_mismatch_ip (hmin : 28 ≤ c.wlen.toNat) (hbad : ¬ IpWireOk c.wbuf.read 0) :
    ipDecBody cfg true c = .error ⟨.csumMismatch, .ip⟩ := by
  obtain ⟨c', e⟩ := ipDecBody_eq_strictChecks true hmax hmin
  rcases strictChecks_cases true c.wbuf 0 hmin c' with ⟨hok, -⟩ | ⟨-, -, e'⟩ | ⟨-, hip, -⟩
  · exact absurd (hok rfl).1 hbad
  · exact e.trans e'
  · exact absurd hip hbad

theorem ipDecBody_mismatch_icmp (hmin : 28 ≤ c.wlen.toNat) (hip : IpWireOk c.wbuf.read 0)
    (hbad : ¬ IcmpWireOk c.wbuf.read 20 c.wlen.toNat) : ipDecBody cfg true c = .error ⟨.csumMismatch, .icmp⟩ := by
  obtain ⟨c', e⟩ := ipDecBody_eq_strictChecks true hmax hmin
  have hchecks := strictChecks_cases true c.wbuf 0 hmin c'
  rw [Nat.zero_add, Nat.zero_add] at hchecks
  rcases hchecks with ⟨hok, -⟩ | ⟨-, hbad', -⟩ | ⟨-, -, -, e'⟩
  · exact absurd (hok rfl).2 hbad
  · exact absurd hip hbad'
  · exact e.trans e'

end

/-- "In lenient mode, or where `p` holds" is "`p` holds where the mode is strict" (R36). -/
theorem lenient_or_iff (s : State) (p : Prop) : (s.cfg.getLsbD 0 = false ∨ p) ↔ (s.strict = true → p) := by
  rw [State.strict, ← Bool.not_eq_true, imp_iff_not_or]

/-! ## `IP_VFY` -/

theorem ipVfyBody_range (h : cfg.optMax < c.ipOptlen.toNat) : ipVfyBody cfg c = .error ⟨.range, .ip⟩ := if_pos h

/-- `IP_VFY` with options that fit compares and keeps the computed checksum in either case (R142). -/
theorem ipVfyBody_ok (h : c.ipOptlen.toNat ≤ cfg.optMax) : ipVfyBody cfg c =
    .ok { c with csumRes := ipChecksum c, status := if ipChecksum c = c.ipCsum then 0x20 else 0x22 } := by
  rw [ipVfyBody, if_neg (by omega), inetCsum_ipHdrBytes, verdict, Context.finish, apply_ite (statusWord · Layer.ip)]
  rfl

end

end Sys2Proof.Machine
end

section
/-! SUPPORT. The header `IP_MK` completes: its bytes, its checksum, and a second `IP_MK` on it (R132 to R136, R144). -/

namespace Sys2Proof.Machine

/-- A context after a successful `IP_MK`. -/
def Context.ipMade (c : Context) : Context := { c.padded with ipCsum := ipChecksum c.padded, status := 0x20 }

/-- The high nibble is the version, the low one the saturated word count (R29, R133). -/
theorem vihlFor_toNat (w : Nat) : (vihlFor w).toNat = 0x40 + (5 + min w 4) := by
  rcases Nat.lt_or_ge w 4 with h | h
  · interval_cases w <;> rfl
  · rw [vihlFor_saturated h, Nat.min_eq_right h]
    rfl

/-- The padding bytes are 0, and no other byte of the options buffer changes (R132). -/
theorem padded_read (c : Context) (i : Nat) : c.padded.opt.read i =
    if c.ipOptlen.toNat ≤ i ∧ i < 4 * optionWords c.ipOptlen.toNat then 0 else c.opt.read i := by
  have hle : c.ipOptlen.toNat ≤ 4 * optionWords c.ipOptlen.toNat := by rw [optionWords]; omega
  have hend : c.ipOptlen.toNat + (4 * optionWords c.ipOptlen.toNat - c.ipOptlen.toNat) =
      4 * optionWords c.ipOptlen.toNat := Nat.add_sub_cancel' hle
  simp only [Context.padded, read_writeBytes, List.length_replicate, hend]
  split
  · have hlt : i - c.ipOptlen.toNat < 4 * optionWords c.ipOptlen.toNat - c.ipOptlen.toNat := by omega
    rw [byteAt, List.getD_replicate _ hlt]
  · rfl

/-- Options that are padded already are padded to what they are (R132, R144). -/
theorem padded_eq_self {c : Context} {k : Nat} (hopt : c.ipOptlen.toNat = 4 * k) (hvihl : c.ipVihl = vihlFor k)
    (htlen : c.ipTlen.toNat = 20 + 4 * k + 8 + c.icPlen.toNat) : c.padded = c := by
  have hw : optionWords (4 * k) = k := optionWords_eq (by omega) (by omega)
  rw [Context.padded, hopt, hw, Nat.sub_self, ← hvihl, ← htlen, ← hopt, BitVec.ofNat_toNat, BitVec.ofNat_toNat]
  rfl

section
variable {cfg : Config} {c : Context} (hv : cfg.Valid) (hopt : c.ipOptlen.toNat ≤ cfg.optMax)
include hv hopt

theorem ipMade_ipOptlen_le : c.ipMade.ipOptlen.toNat ≤ cfg.optMax := by
  have hpad : c.ipMade.ipOptlen.toNat = 4 * optionWords c.ipOptlen.toNat := padded_ipOptlen hv hopt
  obtain ⟨-, -, hdiv, -⟩ := hv
  rw [hpad, optionWords]
  omega

/-- A completed header is completed already (R144). -/
theorem ipMade_ipMade (hplen : c.icPlen.toNat ≤ cfg.payCap) : c.ipMade.ipMade = c.ipMade := by
  have hpad : c.ipMade.padded = c.ipMade :=
    padded_eq_self (padded_ipOptlen hv hopt) rfl (padded_ipTlen hv hopt hplen)
  rw [Context.ipMade, hpad]
  rfl

end

/-- THE IDENTITY TEST AND THE COMPARISON of an IPv4 header and its checksum field. -/
theorem inetCsum_ipWire_eq_zero_iff (c : Context) (ck : BitVec 16) :
    inetCsum ((List.range (20 + c.ipOptlen.toNat)).map (ipWireByte c ck)) = 0x0000 ↔
      ipChecksum c = ck ∨ (ipChecksum c = 0x0000 ∧ ck = 0xFFFF) := by
  have hfield (v : BitVec 16) : ipHdrBytes c v = (ipHdrBytes c 0).take 10 ++ be16 v ++ (ipHdrBytes c 0).drop 12 := rfl
  have heven : ((ipHdrBytes c 0).take 10).length % 2 = 0 := by
    rw [List.length_take, ipHdrBytes_length]
    omega
  have hiff := inetCsum_field_eq_zero_iff heven ((ipHdrBytes c 0).drop 12) ck
  rw [← hfield ck, ← hfield 0, inetCsum_ipHdrBytes, ipHdrBytes_eq_wire] at hiff
  exact hiff

end Sys2Proof.Machine
end

section
/-! SUPPORT. `IP_DEC` of what `IP_ENC` has laid down (R143). -/

namespace Sys2Proof.Machine

theorem datagramWireByte_ip (c : Context) (ipCk icCk : BitVec 16) {i : Nat} (h : i < 20 + c.ipOptlen.toNat) :
    datagramWireByte c ipCk icCk i = ipWireByte c ipCk i := if_pos h

theorem datagramWireByte_icmp (c : Context) (ipCk icCk : BitVec 16) (i : Nat) :
    datagramWireByte c ipCk icCk (20 + c.ipOptlen.toNat + i) = icmpWireByte c icCk i := by
  rw [datagramWireByte, if_neg (by omega), Nat.add_sub_cancel_left]

/-- Header bytes of a record without options pass the check of R141 exactly when the checksum laid down is the
record's. -/
theorem ipWireOk_iff_of_wire {b : Nat → Byte} {base : Nat} {c : Context} {ck : BitVec 16} (hopt : c.ipOptlen = 0)
    (h : ∀ i < 20, b (base + i) = ipWireByte c ck i) : IpWireOk b base ↔ ipChecksum c = ck := by
  have hfield : b (base + 10) ++ b (base + 11) = ck := by
    rw [h 10 (by decide), h 11 (by decide)]
    exact append_bytes16 _
  have hbytes : (List.range 20).map (fun i => if i = 10 ∨ i = 11 then 0 else b (base + i)) =
      (List.range 20).map (ipWireByte c 0) := List.map_congr_left fun i hi => by
    rw [ipWireByte_zero c ck, h i (List.mem_range.mp hi)]
  rw [IpWireOk, hfield, hbytes, ipChecksum, hopt]
  rfl

/-- A parse looks at no byte past its length. -/
theorem IcmpParsed.congr {b b' : Nat → Byte} {base len : Nat} {c c' : Context} (hp : IcmpParsed b base len c c')
    (hlen : base + 8 ≤ len) (h : ∀ i < len, b i = b' i) : IcmpParsed b' base len c c' := by
  obtain ⟨htype, hcode, hcsum, hid, hseq, hplen, hpay⟩ := hp
  have hfield (k : Nat) (hk : k < 8) : b (base + k) = b' (base + k) := h _ (by omega)
  simp only [hfield, Nat.reduceLT] at hcode hcsum hid hseq
  refine ⟨htype.trans (hfield 0 (by decide)), hcode, hcsum, hid, hseq, hplen, fun i => ?_⟩
  rw [hpay]
  split
  · exact h _ (by omega)
  · rfl

/-- A context after a successful `IP_ENC`. -/
def Context.ipEncoded (c : Context) : Context :=
  c.encoded (ipLen c) (datagramWireByte c c.ipCsum (icmpChecksum c)) .ip

/-- An encode reads none of what it has written: the encoded records have the same wire format. -/
theorem ipEncoded_ipEncoded (c : Context) : c.ipEncoded.ipEncoded = c.ipEncoded := encoded_encoded c _ _ _

theorem ipEncoded_read {c : Context} {i : Nat} (h : i < ipLen c) :
    c.ipEncoded.wbuf.read i = datagramWireByte c c.ipCsum (icmpChecksum c) i :=
  (encoded_read c _ _ _ i).trans (if_pos h)

theorem ipEncoded_read_ip {c : Context} {i : Nat} (h : i < 20 + c.ipOptlen.toNat) :
    c.ipEncoded.wbuf.read i = ipWireByte c c.ipCsum i :=
  (ipEncoded_read (Nat.lt_add_right _ h)).trans (datagramWireByte_ip c _ _ h)

theorem ipEncoded_read_icmp {c : Context} {i : Nat} (h : i < icmpLen c) :
    c.ipEncoded.wbuf.read (20 + c.ipOptlen.toNat + i) = icmpWireByte c (icmpChecksum c) i :=
  (ipEncoded_read (Nat.add_lt_add_left h _)).trans (datagramWireByte_icmp c _ _ i)

section
variable {cfg : Config} {c : Context} (hv : cfg.Valid) (hlen : ipLen c ≤ cfg.wbufMax)
include hv hlen

theorem ipEncoded_wlen : c.ipEncoded.wlen.toNat = ipLen c := by
  obtain ⟨-, hmax, -⟩ := hv
  exact encoded_wlen (by omega) c _ _

/-- The payload of a datagram that fits `WBUF` fits `PAY` (R7). -/
theorem icPlen_le_of_ipLen : c.icPlen.toNat ≤ cfg.payCap := by
  rw [ipLen, icmpLen] at hlen
  rw [Config.payCap]
  omega

/-- Lenient decoding takes every encoded datagram; whatever follows the 20 bytes of the header is read as the message
(R140, R143). -/
theorem ipDecBody_ipEncoded_lenient : ∃ c', ipDecBody cfg false c.ipEncoded = .ok c' ∧ c'.status = 0x20 ∧
    c'.ipOptlen = 0 ∧ IcmpParsed (datagramWireByte c c.ipCsum (icmpChecksum c)) 20 (ipLen c) c c' := by
  have hwlen := ipEncoded_wlen hv hlen
  have hmin : 28 ≤ ipLen c := by rw [ipLen, icmpLen]; omega
  obtain ⟨c', hdec, ⟨-, -, -, -, -, -, -, -, -, -, hopt⟩, hicmp, hframe⟩ := ipDecBody_ok (cfg := cfg) (strict := false)
    (c := c.ipEncoded) (by omega) (by omega) nofun
  rw [hwlen] at hicmp
  exact ⟨c', hdec, by rw [hframe], hopt, hicmp.congr hmin fun i hi => ipEncoded_read hi⟩

variable (hopt : c.ipOptlen = 0)
include hopt

/-- Without options both records come back, where the mode is lenient or the stored header checksum is right
(R143). -/
theorem ipDecBody_ipEncoded {strict : Bool} (hok : strict = true → ipChecksum c = c.ipCsum) :
    ∃ c', ipDecBody cfg strict c.ipEncoded = .ok c' ∧ (∀ i < c.icPlen.toNat, c'.pay.read i = c.pay.read i) ∧
      c' = { c with icCsum := icmpChecksum c, wlen := c'.wlen, wbuf := c'.wbuf, pay := c'.pay, status := 0x20 } := by
  have hwlen := ipEncoded_wlen hv hlen
  have hol : c.ipOptlen.toNat = 0 := congrArg BitVec.toNat hopt
  have hlen20 : ipLen c = 20 + icmpLen c := by rw [ipLen, hol]
  have hhdr : ∀ i < 20, c.ipEncoded.wbuf.read (0 + i) = ipWireByte c c.ipCsum i := fun i hi => by
    rw [Nat.zero_add, ipEncoded_read_ip (Nat.lt_add_right _ hi)]
  have hmsg : ∀ i < icmpLen c, c.ipEncoded.wbuf.read (20 + i) = icmpWireByte c (icmpChecksum c) i := fun i hi => by
    simpa [hol] using ipEncoded_read_icmp hi
  obtain ⟨c', hdec, hip, hicmp, hframe⟩ := ipDecBody_ok (cfg := cfg) (strict := strict) (c := c.ipEncoded)
    (by omega) (by rw [hwlen, hlen20, icmpLen]; omega) fun hs =>
      ⟨(ipWireOk_iff_of_wire hopt hhdr).mpr (hok hs), hwlen ▸ hlen20 ▸ icmpWireOk_of_wire hmsg⟩
  rw [hwlen, hlen20] at hicmp
  obtain ⟨hvihl, htos, htlen, hid, hflfr, httl, hproto, hcsum, hsrc, hdst⟩ := hip.of_wire hhdr
  obtain ⟨-, -, -, -, -, -, -, -, -, -, hopt'⟩ := hip
  obtain ⟨htype, hcode, hicCsum, hicId, hseq, hplen, hpay⟩ := hicmp.of_wire hmsg
  refine ⟨c', hdec, hpay, ?_⟩
  rw [hframe, hvihl, htos, htlen, hid, hflfr, httl, hproto, hcsum, hsrc, hdst, hopt', ← hopt, htype, hcode, hicCsum,
    hicId, hseq, hplen]
  rfl

/-- Strict decoding reports a stored header checksum that is wrong (R143). -/
theorem ipDecBody_ipEncoded_mismatch (hbad : ipChecksum c ≠ c.ipCsum) :
    ipDecBody cfg true c.ipEncoded = .error ⟨.csumMismatch, .ip⟩ := by
  have hwlen := ipEncoded_wlen hv hlen
  have hmin : 28 ≤ ipLen c := by rw [ipLen, icmpLen]; omega
  refine ipDecBody_mismatch_ip (by omega) (by omega) fun hok => hbad ((ipWireOk_iff_of_wire hopt fun i hi => ?_).mp hok)
  rw [Nat.zero_add, ipEncoded_read_ip (Nat.lt_add_right _ hi)]

end

end Sys2Proof.Machine
end

section
/-! The IPv4 header codec: the completed header, the conditions, the round trip, and the header checksum. -/

namespace Sys2Proof.Machine

/-- Settles O38: the padded record has its checksum computed over the padded options. -/
theorem ipMkCompletesTheHeader : Obligations.IpMkCompletesTheHeader := by
  unfold Obligations.IpMkCompletesTheHeader
  intro s x c hv hc hopt hplen
  obtain ⟨he, -⟩ := exec_of_body_ok (i := .ipMk x) (c' := c.ipMade) rfl hc (ipMkBody_ok hopt hplen)
  have hpad : c.ipMade.ipOptlen.toNat = 4 * optionWords c.ipOptlen.toNat := padded_ipOptlen hv hopt
  refine ⟨c.ipMade, he, rfl, hpad, ipMade_ipOptlen_le hv hopt, padded_read c, vihlFor_toNat _, ?_, rfl⟩
  rw [hpad]
  exact padded_ipTlen hv hopt hplen

/-- Settles O43: each command's cases, in the order of its tests. -/
theorem ipFamilyConditions : Obligations.IpFamilyConditions := by
  unfold Obligations.IpFamilyConditions
  intro s x c hc
  have hvfy (h : c.ipOptlen.toNat ≤ s.config.optMax) := (exec_of_body_ok (i := .ipVfy x) rfl hc (ipVfyBody_ok h)).1
  have hlen : 28 + c.ipOptlen.toNat + c.icPlen.toNat = ipLen c := by rw [ipLen, icmpLen]; omega
  rw [hlen]
  refine ⟨fun h => ⟨?_, ?_, ?_⟩, fun hopt h => ⟨?_, ?_⟩, fun hopt hplen h => ?_, fun h => ?_, fun hmax h => ?_,
    fun hmax hmin h => ?_, fun hmax hmin hs hbad => ?_, fun hmax hmin hs hip hbad => ?_, fun hopt hne => ?_,
    fun hopt hplen => ?_, fun hopt hplen h => ?_, fun hmax hmin hok => ?_, fun hopt heq => ⟨_, hvfy hopt, if_pos heq⟩⟩
  · exact exec_of_body_error (i := .ipMk x) rfl hc (ipMkBody_optRange h)
  · exact exec_of_body_error (i := .ipEnc x) rfl hc (ipEncBody_optRange h)
  · exact exec_of_body_error (i := .ipVfy x) rfl hc (ipVfyBody_range h)
  · exact exec_of_body_error (i := .ipMk x) rfl hc (ipMkBody_payRange hopt h)
  · exact exec_of_body_error (i := .ipEnc x) rfl hc (ipEncBody_payRange hopt h)
  · exact exec_of_body_error (i := .ipEnc x) rfl hc (ipEncBody_lenRange hopt hplen h)
  · exact exec_of_body_error (i := .ipDec x) rfl hc (ipDecBody_range s.strict h)
  · exact exec_of_body_error (i := .ipDec x) rfl hc (ipDecBody_truncated_ip s.strict hmax h)
  · exact exec_of_body_error (i := .ipDec x) rfl hc (ipDecBody_truncated_icmp s.strict hmax hmin h)
  · have hstrict : s.strict = true := hs
    refine exec_of_body_error (i := .ipDec x) rfl hc (r := ⟨.csumMismatch, .ip⟩) ?_
    rw [commandBody, hstrict, ipDecBody_mismatch_ip hmax hmin hbad]
  · have hstrict : s.strict = true := hs
    refine exec_of_body_error (i := .ipDec x) rfl hc (r := ⟨.csumMismatch, .icmp⟩) ?_
    rw [commandBody, hstrict, ipDecBody_mismatch_icmp hmax hmin hip hbad]
  · rw [hvfy hopt, if_neg hne]
  · exact ⟨_, (exec_of_body_ok (i := .ipMk x) rfl hc (ipMkBody_ok hopt hplen)).1, rfl⟩
  · exact ⟨_, (exec_of_body_ok (i := .ipEnc x) rfl hc (ipEncBody_ok hopt hplen h)).1, rfl⟩
  · have hpass := (lenient_or_iff s _).mp hok
    obtain ⟨c', hdec, -, -, hframe⟩ := ipDecBody_ok hmax hmin hpass
    exact ⟨c', (exec_of_body_ok (i := .ipDec x) rfl hc hdec).1, by rw [hframe]⟩

/-- Settles O44: without options the encoded bytes parse to the records, and strict decoding turns on the stored header
checksum; option bytes lie where the parse looks for the message. -/
theorem ipRoundTripWithoutOptions : Obligations.IpRoundTripWithoutOptions := by
  unfold Obligations.IpRoundTripWithoutOptions
  constructor
  · intro s x c hv hc hopt hplen
    have hol : c.ipOptlen.toNat = 0 := congrArg BitVec.toNat hopt
    have hlen : ipLen c ≤ s.config.wbufMax := by
      obtain ⟨hmin, -⟩ := hv
      rw [ipLen, icmpLen]
      omega
    obtain ⟨e1, h1⟩ := exec_of_body_ok (i := .ipEnc x) (c' := c.ipEncoded) rfl hc
      (ipEncBody_ok (by omega) (icPlen_le_of_ipLen hv hlen) hlen)
    by_cases hok : s.strict = true → ipChecksum c = c.ipCsum
    · obtain ⟨c2, hdec, hpay, hrecords⟩ := ipDecBody_ipEncoded hv hlen hopt hok
      obtain ⟨e2, h2⟩ := exec_of_body_ok (i := .ipDec x) rfl h1 hdec
      exact ⟨_, _, _, c2, e1, h1, rfl, e2, h2, fun _ => ⟨hrecords, hpay⟩, fun hs hbad => absurd (hok hs) hbad⟩
    · obtain ⟨hs, hbad⟩ := Classical.not_imp.mp hok
      have e2 := exec_of_body_error (i := .ipDec x) rfl h1 (r := ⟨.csumMismatch, .ip⟩) (by
        rw [commandBody, show (s.putCtx x.toNat c.ipEncoded).strict = true from hs]
        exact ipDecBody_ipEncoded_mismatch hv hlen hopt hbad)
      refine ⟨_, _, _, _, e1, h1, rfl, e2, putCtx_get_same (lt_nctx_of_getElem? h1) _, fun h => ?_, fun _ _ => rfl⟩
      exact absurd ((lenient_or_iff s _).mp h) hok
  · intro s x c hv hc hlenient _ hopt hlen
    have hstrict : s.strict = false := hlenient
    obtain ⟨c2, hdec, hstatus, hopt2, hicmp⟩ := ipDecBody_ipEncoded_lenient hv hlen
    obtain ⟨e1, h1⟩ := exec_of_body_ok (i := .ipEnc x) (c' := c.ipEncoded) rfl hc
      (ipEncBody_ok hopt (icPlen_le_of_ipLen hv hlen) hlen)
    obtain ⟨e2, h2⟩ := exec_of_body_ok (i := .ipDec x) rfl h1 (by
      rw [commandBody, show (s.putCtx x.toNat c.ipEncoded).strict = false from hstrict]
      exact hdec)
    have hplen : c2.icPlen.toNat = c.ipOptlen.toNat + c.icPlen.toNat := by
      obtain ⟨-, -, -, -, -, hplen, -⟩ := hicmp
      rw [hplen, ipLen, icmpLen]
      omega
    exact ⟨_, _, c2, e1, e2, h2, hstatus, hopt2, hplen, hicmp⟩

/-- Settles O45: the checksum in its field makes the header sum to zero, a completed header is completed already, and an
encode of what was encoded writes the same bytes again. -/
theorem ipMkChecksumIdentity : Obligations.IpMkChecksumIdentity := by
  unfold Obligations.IpMkChecksumIdentity
  constructor
  · intro s x c hv hc hopt hplen
    obtain ⟨e1, h1⟩ := exec_of_body_ok (i := .ipMk x) (c' := c.ipMade) rfl hc (ipMkBody_ok hopt hplen)
    obtain ⟨e2, -⟩ := exec_of_body_ok (i := .ipMk x) (c' := c.ipMade.ipMade) rfl h1
      (ipMkBody_ok (ipMade_ipOptlen_le hv hopt) hplen)
    rw [ipMade_ipMade hv hopt hplen, putCtx_self h1] at e2
    exact ⟨_, _, e1, h1, (inetCsum_ipWire_eq_zero_iff _ _).mpr (.inl rfl), e2⟩
  · intro s x c hv hc hopt hplen hlen
    obtain ⟨e1, h1⟩ := exec_of_body_ok (i := .ipEnc x) (c' := c.ipEncoded) rfl hc (ipEncBody_ok hopt hplen hlen)
    obtain ⟨e2, -⟩ := exec_of_body_ok (i := .ipEnc x) (c' := c.ipEncoded.ipEncoded) rfl h1
      (ipEncBody_ok hopt hplen hlen)
    rw [ipEncoded_ipEncoded, putCtx_self h1] at e2
    exact ⟨_, e1, e2⟩

/-- Settles O42: with options that fit, the verify compares the recomputed header checksum. -/
theorem ipVfyComparesTheChecksum : Obligations.IpVfyComparesTheChecksum := by
  unfold Obligations.IpVfyComparesTheChecksum
  intro s x c hc hopt
  exact (exec_of_body_ok (i := .ipVfy x) rfl hc (ipVfyBody_ok hopt)).1

end Sys2Proof.Machine
end

section
/-! SUPPORT. What the commands of the Ethernet family do in each of their cases. -/

namespace Sys2Proof.Machine

/-! ## `ETH_MK` -/

/-- `ETH_MK` on a context that exists never raises (R152). -/
theorem exec_ethMk {s : State} {x : BitVec 4} {c : Context} (hc : s.ctxs[x.toNat]? = some c) :
    exec (.ethMk x) s = .next (s.putCtx x.toNat { c with
      ethDst := if s.peerEn = true then s.macPeer else macBroadcast
      ethSrc := s.macLocal, ethType := ethertypeIpv4, status := 0x30 }) :=
  (exec_of_body_ok (i := .ethMk x) rfl hc rfl).1

section
variable {cfg : Config} {c : Context}

/-! ## `ETH_ENC` -/

theorem ethEncBody_optRange (h : cfg.optMax < c.ipOptlen.toNat) : ethEncBody cfg c = .error ⟨.range, .ip⟩ := by
  rw [ethEncBody, ipEncode_eq, if_pos h]

theorem ethEncBody_payRange (hopt : c.ipOptlen.toNat ≤ cfg.optMax) (h : cfg.payCap < c.icPlen.toNat) :
    ethEncBody cfg c = .error ⟨.range, .icmp⟩ := by
  rw [ethEncBody, ipEncode_eq, if_neg (by omega), if_pos h]

/-- Both lengths in range, but the frame does not fit `WBUF` (R154). -/
theorem ethEncBody_lenRange (hopt : c.ipOptlen.toNat ≤ cfg.optMax) (hplen : c.icPlen.toNat ≤ cfg.payCap)
    (h : cfg.wbufMax < ethLen c) : ethEncBody cfg c = .error ⟨.range, .eth⟩ := by
  rw [ethEncBody, ipEncode_eq, if_neg (by omega), if_neg (by omega)]
  simp only [List.length_append, ethHdrBytes_length, List.length_map, List.length_range]
  exact if_pos h

/-! ## `ETH_DEC` -/

section
variable (strict : Bool)

theorem ethDecBody_range (h : cfg.wbufMax < c.wlen.toNat) : ethDecBody cfg strict c = .error ⟨.range, .eth⟩ := if_pos h

variable (hmax : c.wlen.toNat ≤ cfg.wbufMax)
include hmax

/-- A condition of the structural parse is the command's (R156). -/
theorem ethDecBody_of_ethDecode_error {r : Raised} (e : ethDecode c (c.wbuf.readBytes 0 c.wlen.toNat) = .error r) :
    ethDecBody cfg strict c = .error r := by
  rw [ethDecBody, if_neg (by omega)]
  simp only [e]

/-- A buffer too short for a frame with a whole message: the outermost layer that does not fit is reported (R156). -/
theorem ethDecBody_truncated (h : c.wlen.toNat < 42) : ethDecBody cfg strict c = .error ⟨.truncated,
    if c.wlen.toNat < 14 then .eth else if c.wlen.toNat < 34 then .ip else .icmp⟩ := by
  refine ethDecBody_of_ethDecode_error strict hmax ?_
  rcases ethDecode_cases c c.wbuf c.wlen.toNat (by omega) with ⟨h14, e⟩ | ⟨h14, h34, e⟩ | ⟨h34, -, e⟩ | ⟨h42, -⟩
  · rw [e, if_pos h14]
  · rw [e, if_neg (by omega), if_pos h34]
  · rw [e, if_neg (by omega), if_neg (by omega)]
  · omega

/-- A long enough buffer is parsed, so that the strict checks alone can raise a condition (R156, R157). -/
theorem ethDecBody_eq_strictChecks (hmin : 42 ≤ c.wlen.toNat) :
    ∃ c', ethDecBody cfg strict c = strictChecks strict (c.wbuf.readBytes 14 (c.wlen.toNat - 14)) c' := by
  rcases ethDecode_cases c c.wbuf c.wlen.toNat (by omega) with ⟨h, -⟩ | ⟨-, h, -⟩ | ⟨-, h, -⟩ | ⟨-, c', e, -⟩
  · omega
  · omega
  · omega
  · refine ⟨c'.finish .ok .eth, ?_⟩
    rw [ethDecBody, if_neg (by omega)]
    simp only [e, drop_readBytes, ethMin, Nat.zero_add]

/-- In strict mode a wrong header checksum is reported before the message's is looked at (R157). -/
theorem ethDecBody_mismatch_ip (hmin : 42 ≤ c.wlen.toNat) (hbad : ¬ IpWireOk c.wbuf.read 14) :
    ethDecBody cfg true c = .error ⟨.csumMismatch, .ip⟩ := by
  obtain ⟨c', e⟩ := ethDecBody_eq_strictChecks true hmax hmin
  rcases strictChecks_cases true c.wbuf 14 (n := c.wlen.toNat - 14) (by omega) c' with
    ⟨hok, -⟩ | ⟨-, -, e'⟩ | ⟨-, hip, -⟩
  · exact absurd (hok rfl).1 hbad
  · exact e.trans e'
  · exact absurd hip hbad

theorem ethDecBody_mismatch_icmp (hmin : 42 ≤ c.wlen.toNat) (hip : IpWireOk c.wbuf.read 14)
    (hbad : ¬ IcmpWireOk c.wbuf.read 34 c.wlen.toNat) : ethDecBody cfg true c = .error ⟨.csumMismatch, .icmp⟩ := by
  obtain ⟨c', e⟩ := ethDecBody_eq_strictChecks true hmax hmin
  have hend : 14 + (c.wlen.toNat - 14) = c.wlen.toNat := by omega
  have hchecks := strictChecks_cases true c.wbuf 14 (n := c.wlen.toNat - 14) (by omega) c'
  rw [hend] at hchecks
  rcases hchecks with ⟨hok, -⟩ | ⟨-, hbad', -⟩ | ⟨-, -, -, e'⟩
  · exact absurd (hok rfl).2 hbad
  · exact absurd hip hbad'
  · exact e.trans e'

end

end

end Sys2Proof.Machine
end

section
/-! SUPPORT. A frame encoded and decoded: what `ETH_DEC` makes of the bytes `ETH_ENC` has laid down (R159), and their
checksums (R155). -/

namespace Sys2Proof.Machine

/-- A parsed header has no options (R140). -/
theorem IpParsed.ipOptlen_eq {b : Nat → Byte} {base : Nat} {c' : Context} (hp : IpParsed b base c') :
    c'.ipOptlen = 0 := by
  obtain ⟨-, -, -, -, -, -, -, -, -, -, hopt⟩ := hp
  exact hopt

theorem IpParsed.ipOptlen_toNat {b : Nat → Byte} {base : Nat} {c' : Context} (hp : IpParsed b base c') :
    c'.ipOptlen.toNat = 0 := congrArg BitVec.toNat hp.ipOptlen_eq

/-- A second `ETH_ENC` writes the same frame again: an encode reads none of what it has written (R155). -/
theorem framed_framed (c : Context) : c.framed.framed = c.framed := encoded_encoded c _ _ .eth

/-- The ICMP part of an encoded frame sums to zero (R155). -/
theorem inetCsum_framed_icmp (c : Context) : inetCsum ((List.range (icmpLen c)).map fun i =>
    c.framed.wbuf.read (34 + c.ipOptlen.toNat + i)) = 0x0000 := by
  rw [List.map_congr_left fun i hi => framed_read_icmp (List.mem_range.mp hi), inetCsum_icmpWire_eq_zero_iff]
  exact .inl rfl

/-- The header part sums to zero where the stored checksum is the record's (R155). -/
theorem inetCsum_framed_ip {c : Context} (h : c.ipCsum = ipChecksum c) :
    inetCsum ((List.range (20 + c.ipOptlen.toNat)).map fun i => c.framed.wbuf.read (14 + i)) = 0x0000 := by
  rw [List.map_congr_left fun i hi => framed_read_ip (List.mem_range.mp hi), inetCsum_ipWire_eq_zero_iff]
  exact .inl h.symm

section
variable {c : Context} (hopt : c.ipOptlen = 0)
include hopt

/-- Without options the message of a frame starts at offset 34 (R81). -/
theorem ethLen_noOptions : ethLen c = 34 + icmpLen c := by
  have hol : c.ipOptlen.toNat = 0 := congrArg BitVec.toNat hopt
  rw [ethLen, ipLen, hol]
  omega

theorem framed_read_icmp_noOptions {i : Nat} (h : i < icmpLen c) :
    c.framed.wbuf.read (34 + i) = icmpWireByte c (icmpChecksum c) i := by
  have hol : c.ipOptlen.toNat = 0 := congrArg BitVec.toNat hopt
  simpa [hol] using framed_read_icmp h

/-- An encoded frame passes the strict checks where the stored header checksum is right (R157, R159). -/
theorem framed_wireOk (hcsum : ipChecksum c = c.ipCsum) :
    IpWireOk c.framed.wbuf.read 14 ∧ IcmpWireOk c.framed.wbuf.read 34 (ethLen c) := by
  rw [ethLen_noOptions hopt]
  exact ⟨(ipWireOk_iff_of_wire hopt fun i hi => framed_read_ip (Nat.lt_add_right _ hi)).mpr hcsum,
    icmpWireOk_of_wire fun i hi => framed_read_icmp_noOptions hopt hi⟩

end

section
variable {cfg : Config} {c : Context} (hv : cfg.Valid) (hlen : ethLen c ≤ cfg.wbufMax)
include hv hlen

/-- The payload of a frame that fits `WBUF` fits `PAY` (R7). -/
theorem icPlen_le_of_ethLen : c.icPlen.toNat ≤ cfg.payCap :=
  icPlen_le_of_ipLen hv ((Nat.le_add_left (ipLen c) 14).trans hlen)

/-- `ETH_DEC` takes every encoded frame in lenient mode, and one without options whose stored header checksum is right
in strict mode; the Ethernet registers come back, and whatever follows the 20 bytes of the header is read as the
message (R159). -/
theorem ethDecBody_framed_parsed {strict : Bool} (hok : strict = true → c.ipOptlen = 0 ∧ ipChecksum c = c.ipCsum) :
    ∃ c', ethDecBody cfg strict c.framed = .ok c' ∧ IpParsed c.framed.wbuf.read 14 c' ∧
      IcmpParsed c.framed.wbuf.read 34 (ethLen c) c.framed c' ∧ c' = { c' with
        ethDst := c.ethDst, ethSrc := c.ethSrc, ethType := c.ethType, status := 0x30, csumRes := c.csumRes
        opt := c.opt } := by
  have hwlen : c.framed.wlen.toNat = ethLen c := framed_wlen (by omega)
  have hmin : 42 ≤ ethLen c := by rw [ethLen, ipLen, icmpLen]; omega
  obtain ⟨c', hdec, heth, hip, hicmp, hframe⟩ := ethDecBody_ok (cfg := cfg) (strict := strict) (c := c.framed)
    (by omega) (by omega) fun hs => hwlen ▸ framed_wireOk (hok hs).1 (hok hs).2
  rw [hwlen] at hicmp
  obtain ⟨hdst, hsrc, htype⟩ := heth.of_wire fun i hi => framed_read_eth hi
  refine ⟨c', hdec, hip, hicmp, ?_⟩
  rw [← hdst, ← hsrc, ← htype, hframe]
  rfl

/-- Without options all three records come back, where the mode is lenient or the stored header checksum is right
(R159). -/
theorem ethDecBody_framed_records (hopt : c.ipOptlen = 0) {strict : Bool}
    (hok : strict = true → ipChecksum c = c.ipCsum) :
    ∃ c', ethDecBody cfg strict c.framed = .ok c' ∧ (∀ i < c.icPlen.toNat, c'.pay.read i = c.pay.read i) ∧
      c' = { c with icCsum := icmpChecksum c, wlen := c'.wlen, wbuf := c'.wbuf, pay := c'.pay, status := 0x30 } := by
  obtain ⟨c', hdec, hip, hicmp, hframe⟩ := ethDecBody_framed_parsed hv hlen fun hs => ⟨hopt, hok hs⟩
  rw [ethLen_noOptions hopt] at hicmp
  obtain ⟨hvihl, htos, htlen, hid, hflfr, httl, hproto, hcsum, hsrc, hdst⟩ :=
    hip.of_wire fun i hi => framed_read_ip (Nat.lt_add_right _ hi)
  obtain ⟨htype, hcode, hicCsum, hicId, hseq, hplen, hpay⟩ :=
    hicmp.of_wire fun i hi => framed_read_icmp_noOptions hopt hi
  refine ⟨c', hdec, hpay, ?_⟩
  rw [hframe, hvihl, htos, htlen, hid, hflfr, httl, hproto, hcsum, hsrc, hdst, hip.ipOptlen_eq, ← hopt, htype, hcode,
    hicCsum, hicId, hseq, hplen]

end

end Sys2Proof.Machine
end

section
/-! SUPPORT. A frame decoded and encoded: the wire format of parsed records is the bytes they were parsed from
(R159). -/

namespace Sys2Proof.Machine

/-- The bytes of a 32-bit number made of four bytes, the highest first. -/
theorem extractLsb'_bytes32 (f : Nat → Byte) {i : Nat} (h : i < 4) :
    (f 0 ++ f 1 ++ f 2 ++ f 3).extractLsb' (24 - 8 * i) 8 = f i := by
  apply BitVec.eq_of_toNat_eq
  simp only [toNat_append_byte, BitVec.extractLsb'_toNat, Nat.shiftRight_eq_div_pow]
  interval_cases i <;> omega

/-- The bytes of a 48-bit number made of six bytes, the highest first. -/
theorem extractLsb'_bytes48 (f : Nat → Byte) {i : Nat} (h : i < 6) :
    (f 0 ++ f 1 ++ f 2 ++ f 3 ++ f 4 ++ f 5).extractLsb' (40 - 8 * i) 8 = f i := by
  apply BitVec.eq_of_toNat_eq
  simp only [toNat_append_byte, BitVec.extractLsb'_toNat, Nat.shiftRight_eq_div_pow]
  interval_cases i <;> omega

/-! ## The addresses on the wire -/

theorem ethWireByte_ethDst (c : Context) {i : Nat} (h : i < 6) :
    ethWireByte c i = c.ethDst.extractLsb' (40 - 8 * i) 8 := if_pos h

theorem ethWireByte_ethSrc (c : Context) {i : Nat} (h : i < 6) :
    ethWireByte c (6 + i) = c.ethSrc.extractLsb' (40 - 8 * i) 8 := by
  interval_cases i <;> rfl

theorem ipWireByte_ipSrc (c : Context) (ck : BitVec 16) {i : Nat} (h : i < 4) :
    ipWireByte c ck (12 + i) = c.ipSrc.extractLsb' (24 - 8 * i) 8 := by
  interval_cases i <;> rfl

theorem ipWireByte_ipDst (c : Context) (ck : BitVec 16) {i : Nat} (h : i < 4) :
    ipWireByte c ck (16 + i) = c.ipDst.extractLsb' (24 - 8 * i) 8 := by
  interval_cases i <;> rfl

/-! ## The headers and the frame of parsed records -/

/-- The wire format of a parsed Ethernet header is the bytes it was parsed from. -/
theorem EthParsed.wire {b : Nat → Byte} {c' : Context} (hp : EthParsed b c') {i : Nat} (h : i < 14) :
    ethWireByte c' i = b i := by
  obtain ⟨hdst, hsrc, htype⟩ := hp
  rcases Nat.lt_or_ge i 6 with h6 | h6
  · rw [ethWireByte_ethDst c' h6, hdst]
    exact extractLsb'_bytes48 b h6
  rcases Nat.lt_or_ge i 12 with h12 | h12
  · obtain ⟨j, rfl⟩ := Nat.exists_eq_add_of_le h6
    rw [ethWireByte_ethSrc c' (by omega), hsrc]
    exact extractLsb'_bytes48 (fun k => b (6 + k)) (by omega)
  · rw [ethWireByte, htype, BitVec.extractLsb'_append_eq_left, BitVec.extractLsb'_append_eq_right]
    interval_cases i <;> rfl

/-- The wire format of a parsed IPv4 header, its stored checksum filled in, is the bytes it was parsed from. -/
theorem IpParsed.wire {b : Nat → Byte} {base : Nat} {c' : Context} (hp : IpParsed b base c') {i : Nat} (h : i < 20) :
    ipWireByte c' c'.ipCsum i = b (base + i) := by
  obtain ⟨hvihl, htos, htlen, hid, hflfr, httl, hproto, hcsum, hsrc, hdst, -⟩ := hp
  rcases Nat.lt_or_ge i 12 with h12 | h12
  · rw [ipWireByte, hvihl, htos, htlen, hid, hflfr, httl, hproto, hcsum]
    simp only [BitVec.extractLsb'_append_eq_left, BitVec.extractLsb'_append_eq_right]
    interval_cases i <;> rfl
  rcases Nat.lt_or_ge i 16 with h16 | h16
  · obtain ⟨j, rfl⟩ := Nat.exists_eq_add_of_le h12
    rw [ipWireByte_ipSrc c' _ (by omega), hsrc]
    exact extractLsb'_bytes32 (fun k => b (base + (12 + k))) (by omega)
  · obtain ⟨j, rfl⟩ := Nat.exists_eq_add_of_le h16
    rw [ipWireByte_ipDst c' _ (by omega), hdst]
    exact extractLsb'_bytes32 (fun k => b (base + (16 + k))) (by omega)

section
variable {b : Nat → Byte} {len : Nat} {c c' : Context} (heth : EthParsed b c') (hip : IpParsed b 14 c')
  (hicmp : IcmpParsed b 34 len c c') (hmin : 42 ≤ len)
include hip hicmp hmin

/-- A parsed frame has no options, so it is as long as the bytes it was parsed from (R140). -/
theorem ethLen_of_parsed : ethLen c' = len := by
  obtain ⟨hlen, -⟩ := hicmp.wire hmin
  rw [ethLen, ipLen, hlen, hip.ipOptlen_toNat]
  omega

include heth

/-- The frame of the parsed records, their stored checksums filled in, is the bytes they were parsed from. -/
theorem frameWireByte_of_parsed {i : Nat} (hi : i < len) : frameWireByte c' c'.ipCsum c'.icCsum i = b i := by
  obtain ⟨-, hwire⟩ := hicmp.wire hmin
  rcases Nat.lt_or_ge i 14 with h14 | h14
  · rw [frameWireByte_eth _ _ _ h14, heth.wire h14]
  · rcases Nat.lt_or_ge i 34 with h34 | h34
    · obtain ⟨j, rfl⟩ := Nat.exists_eq_add_of_le h14
      rw [frameWireByte_ip _ _ _ (by omega), hip.wire (by omega)]
    · obtain ⟨j, rfl⟩ := Nat.exists_eq_add_of_le h34
      have hmsg := frameWireByte_icmp c' c'.ipCsum c'.icCsum j
      rw [hip.ipOptlen_toNat, Nat.add_zero] at hmsg
      rw [hmsg, hwire j (by omega)]

end

end Sys2Proof.Machine
end

section
/-! The Ethernet frame codec: the link-layer registers, the conditions, the round trip, and the checksums of a
frame. -/

namespace Sys2Proof.Machine

/-- Settles O46: the operands are `CFG.PEER_EN`, `MAC_PEER` and `MAC_LOCAL`, and nothing is tested. -/
theorem ethMkFillsTheLinkLayerFields : Obligations.EthMkFillsTheLinkLayerFields := by
  unfold Obligations.EthMkFillsTheLinkLayerFields
  refine ⟨fun s x c hc => ⟨rfl, exec_ethMk hc⟩, fun s x c hc hlocal => ⟨fun hcfg => ?_, fun hcfg hpeer => ?_⟩⟩
  · rw [exec_ethMk hc, State.peerEn, hcfg, hlocal]
    rfl
  · rw [exec_ethMk hc, State.peerEn, hcfg, hlocal, hpeer]
    rfl

/-- Settles O49: each command's cases, in the order of its tests. -/
theorem ethFamilyConditions : Obligations.EthFamilyConditions := by
  unfold Obligations.EthFamilyConditions
  intro s x c hc
  have hlen : 42 + c.ipOptlen.toNat + c.icPlen.toNat = ethLen c := by rw [ethLen, ipLen, icmpLen]; omega
  have htrunc (hmax : c.wlen.toNat ≤ s.config.wbufMax) (h : c.wlen.toNat < 42) :=
    exec_of_body_error (i := .ethDec x) rfl hc (ethDecBody_truncated s.strict hmax h)
  rw [hlen]
  refine ⟨⟨_, exec_ethMk hc, rfl⟩, fun h => ?_, fun hopt h => ?_, fun hopt hplen h => ?_, fun h => ?_,
    fun hmax h => ?_, fun hmax hmin h => ?_, fun hmax hmin h => ?_, fun hmax hmin hs hbad => ?_,
    fun hmax hmin hs hip hbad => ?_, fun hopt hplen h => ?_, fun hmax hmin hok => ?_⟩
  · exact exec_of_body_error (i := .ethEnc x) rfl hc (ethEncBody_optRange h)
  · exact exec_of_body_error (i := .ethEnc x) rfl hc (ethEncBody_payRange hopt h)
  · exact exec_of_body_error (i := .ethEnc x) rfl hc (ethEncBody_lenRange hopt hplen h)
  · exact exec_of_body_error (i := .ethDec x) rfl hc (ethDecBody_range s.strict h)
  · rw [htrunc hmax (by omega), if_pos h]
    rfl
  · rw [htrunc hmax (by omega), if_neg (by omega), if_pos h]
    rfl
  · rw [htrunc hmax h, if_neg (by omega), if_neg (by omega)]
    rfl
  · have hstrict : s.strict = true := hs
    refine exec_of_body_error (i := .ethDec x) rfl hc (r := ⟨.csumMismatch, .ip⟩) ?_
    rw [commandBody, hstrict, ethDecBody_mismatch_ip hmax hmin hbad]
  · have hstrict : s.strict = true := hs
    refine exec_of_body_error (i := .ethDec x) rfl hc (r := ⟨.csumMismatch, .icmp⟩) ?_
    rw [commandBody, hstrict, ethDecBody_mismatch_icmp hmax hmin hip hbad]
  · exact ⟨_, (exec_of_body_ok (i := .ethEnc x) rfl hc (ethEncBody_ok hopt hplen h)).1, rfl⟩
  · obtain ⟨c', hdec, -, -, -, hframe⟩ := ethDecBody_ok hmax hmin ((lenient_or_iff s _).mp hok)
    exact ⟨c', (exec_of_body_ok (i := .ethDec x) rfl hc hdec).1, by rw [hframe]⟩

/-- Settles O51: the encoded bytes parse to the records; what was parsed has the parsed bytes as its wire format, its
ICMP checksum included. -/
theorem frameRoundTrip : Obligations.FrameRoundTrip := by
  unfold Obligations.FrameRoundTrip
  refine ⟨fun s x c hv hc hopt hplen hok => ?_, fun s x c hv hc hlenient _ hopt hlen => ?_,
    fun s x c hv hc hlenient hmin hmax hicmpOk => ?_⟩
  · have hol : c.ipOptlen.toNat = 0 := congrArg BitVec.toNat hopt
    have hlen : ethLen c ≤ s.config.wbufMax := by
      obtain ⟨hmin, -⟩ := hv
      rw [ethLen, ipLen, icmpLen]
      omega
    obtain ⟨c2, hdec, hpay, hrecords⟩ := ethDecBody_framed_records hv hlen hopt ((lenient_or_iff s _).mp hok)
    obtain ⟨e1, h1⟩ := exec_of_body_ok (i := .ethEnc x) rfl hc
      (ethEncBody_ok (by omega) (icPlen_le_of_ethLen hv hlen) hlen)
    obtain ⟨e2, h2⟩ := exec_of_body_ok (i := .ethDec x) rfl h1 hdec
    exact ⟨_, _, _, c2, e1, h1, rfl, e2, h2, hrecords, hpay⟩
  · obtain ⟨c2, hdec, hip, hicmp, hframe⟩ :=
      ethDecBody_framed_parsed hv hlen ((lenient_or_iff s _).mp (.inl hlenient))
    obtain ⟨e1, h1⟩ := exec_of_body_ok (i := .ethEnc x) rfl hc
      (ethEncBody_ok hopt (icPlen_le_of_ethLen hv hlen) hlen)
    obtain ⟨e2, h2⟩ := exec_of_body_ok (i := .ethDec x) rfl h1 hdec
    obtain ⟨-, -, -, -, -, hplen, -⟩ := hicmp
    have hplen2 : c2.icPlen.toNat = c.ipOptlen.toNat + c.icPlen.toNat := by
      rw [hplen, ethLen, ipLen, icmpLen]
      omega
    refine ⟨_, _, c2, e1, e2, h2, ?_, ?_, ?_, ?_, hip.ipOptlen_eq, hplen2⟩ <;> rw [hframe]
  · obtain ⟨c1, hdec, heth, hip, hicmp, -⟩ := ethDecBody_ok hmax hmin ((lenient_or_iff s _).mp (.inl hlenient))
    have hlen : ethLen c1 = c.wlen.toNat := ethLen_of_parsed hip hicmp hmin
    have hcsum : icmpChecksum c1 = c1.icCsum := hicmp.icmpChecksum_eq hmin hicmpOk
    have hfits : ethLen c1 ≤ s.config.wbufMax := hlen.trans_le hmax
    obtain ⟨e1, h1⟩ := exec_of_body_ok (i := .ethDec x) rfl hc hdec
    obtain ⟨e2, h2⟩ := exec_of_body_ok (i := .ethEnc x) rfl h1
      (ethEncBody_ok (hip.ipOptlen_toNat.trans_le (Nat.zero_le _)) (icPlen_le_of_ethLen hv hfits) hfits)
    refine ⟨_, _, _, e1, e2, h2, ?_, fun i hi => ?_⟩
    · rw [← BitVec.toNat_inj, framed_wlen (by omega), hlen]
    · rw [framed_read, hlen, if_pos hi, hcsum, frameWireByte_of_parsed heth hip hicmp hmin hi]

/-- Settles O52: both parts of the frame hold their checksums, and a second encode writes the same bytes again. -/
theorem frameChecksumIdentities : Obligations.FrameChecksumIdentities := by
  unfold Obligations.FrameChecksumIdentities
  intro s x c hv hc hopt hplen hlen
  obtain ⟨e1, h1⟩ := exec_of_body_ok (i := .ethEnc x) rfl hc (ethEncBody_ok hopt hplen hlen)
  obtain ⟨e2, -⟩ := exec_of_body_ok (i := .ethEnc x) (c' := c.framed.framed) rfl h1 (ethEncBody_ok hopt hplen hlen)
  rw [framed_framed, putCtx_self h1] at e2
  exact ⟨_, _, e1, h1, inetCsum_framed_icmp c, inetCsum_framed_ip, e2⟩

/-- Settles O50: fourteen bytes are an Ethernet header and no IPv4 header, whatever they hold. -/
theorem fourteenZeroBytesAreTruncated : Obligations.FourteenZeroBytesAreTruncated := by
  unfold Obligations.FourteenZeroBytesAreTruncated
  intro s x c hv hc hwlen _
  have h14 : c.wlen.toNat = 14 := congrArg BitVec.toNat hwlen
  obtain ⟨hmin, -⟩ := hv
  have hbody := ethDecBody_truncated (cfg := s.config) (c := c) s.strict (by omega) (by omega)
  rw [if_neg (by omega), if_pos (by omega)] at hbody
  exact exec_of_body_error (i := .ethDec x) rfl hc hbody

end Sys2Proof.Machine
end

section
/-! SUPPORT. The checksum as a function of the word sum: its closed form, which sequences have the word sum 0, its words
by index, and its 32-bit accumulator (R165 to R169, R172); and the condition of `CSUM`. -/

namespace Sys2Proof.Machine

/-! ## The words of a sequence -/

/-- The number `b[2k]·256 + b[2k+1]`, a missing byte counting as 0 (R166). -/
def wordAt (b : List Byte) (k : Nat) : Nat := (b.getD (2 * k) 0).toNat * 256 + (b.getD (2 * k + 1) 0).toNat

theorem wordAt_pair_succ (hi lo : Byte) (rest : List Byte) (k : Nat) :
    wordAt (hi :: lo :: rest) (k + 1) = wordAt rest k := rfl

/-- The sum is over the byte pairs from the start (R166). -/
theorem wordSum_eq_sum_wordAt (b : List Byte) :
    wordSum b = ((List.range ((b.length + 1) / 2)).map (wordAt b)).sum := by
  induction b using pairs_induction with
  | nil => rfl
  | single hi => simp [wordAt]
  | pair hi lo rest ih =>
    have hlen : ((hi :: lo :: rest).length + 1) / 2 = (rest.length + 1) / 2 + 1 := by
      simp only [List.length_cons]
      omega
    have htail : wordAt (hi :: lo :: rest) ∘ Nat.succ = wordAt rest := funext (wordAt_pair_succ hi lo rest)
    rw [hlen, List.range_succ_eq_map, List.map_cons, List.map_map, htail, List.sum_cons, ← ih]
    rfl

/-- Every word is at most 0xFFFF. -/
theorem wordSum_le (b : List Byte) : wordSum b ≤ 65535 * ((b.length + 1) / 2) := by
  induction b using pairs_induction with
  | nil => exact Nat.zero_le _
  | single hi =>
    have := hi.isLt
    simp only [wordSum_single, List.length_singleton]
    omega
  | pair hi lo rest ih =>
    have := hi.isLt
    have := lo.isLt
    simp only [wordSum_pair, List.length_cons]
    omega

/-- The word sum is 0 for zero bytes alone (R172). -/
theorem wordSum_eq_zero_iff (b : List Byte) : wordSum b = 0 ↔ ∀ v ∈ b, v = 0 := by
  have hbyte (v : Byte) : v = 0 ↔ v.toNat = 0 := BitVec.toNat_inj.symm
  induction b using pairs_induction with
  | nil => simp
  | single hi =>
    rw [wordSum_single, List.forall_mem_singleton, hbyte]
    omega
  | pair hi lo rest ih =>
    rw [wordSum_pair, List.forall_mem_cons, List.forall_mem_cons, ih.symm, hbyte, hbyte]
    omega

theorem wordSum_replicate_zero (n : Nat) : wordSum (List.replicate n 0) = 0 :=
  (wordSum_eq_zero_iff _).mpr fun _ => List.eq_of_mem_replicate

/-- Zero bytes at the end, any number of them, add nothing (R166). -/
theorem wordSum_append_zeros (b : List Byte) (n : Nat) : wordSum (b ++ List.replicate n 0) = wordSum b := by
  induction b using pairs_induction with
  | nil => exact wordSum_replicate_zero n
  | single hi =>
    cases n with
    | zero => rfl
    | succ n =>
      rw [List.singleton_append, List.replicate_succ, wordSum_pair, wordSum_replicate_zero]
      simp
  | pair hi lo rest ih => rw [List.cons_append, List.cons_append, wordSum_pair, wordSum_pair, ih]

/-- The sum over a list of words. -/
theorem wordSum_flatMap (ws : List (Byte × Byte)) :
    wordSum (ws.flatMap fun w => [w.1, w.2]) = (ws.map fun w => w.1.toNat * 256 + w.2.toNat).sum := by
  induction ws with
  | nil => rfl
  | cons w ws ih => rw [List.map_cons, List.sum_cons, ← ih]; rfl

/-! ## The closed form -/

/-- The closed form of the checksum (R172). -/
theorem inetCsum_eq_closedForm (b : List Byte) :
    inetCsum b = BitVec.ofNat 16 (0xFFFF - if wordSum b = 0 then 0 else (wordSum b - 1) % 65535 + 1) := by
  apply BitVec.eq_of_toNat_eq
  rw [inetCsum_toNat, BitVec.toNat_ofNat]
  exact (Nat.mod_eq_of_lt (by omega)).symm

/-- A checksum is 0xFFFF exactly for the word sum 0 (R172). -/
theorem inetCsum_eq_ones_iff (b : List Byte) : inetCsum b = 0xFFFF ↔ wordSum b = 0 := by
  have hones : (0xFFFF : BitVec 16).toNat = 65535 := rfl
  rw [← BitVec.toNat_inj, inetCsum_toNat, hones]
  split <;> omega

/-! ## The 32-bit accumulator -/

/-- The loop of R165 on 32 bits adds up the words modulo 2^32. -/
theorem sum32_toNat (b : List Byte) (acc : BitVec 32) : (sum32 acc b).toNat = (acc.toNat + wordSum b) % 2 ^ 32 := by
  induction b using pairs_induction generalizing acc with
  | nil => exact (Nat.mod_eq_of_lt acc.isLt).symm
  | single hi => simp [sum32]
  | pair hi lo rest ih =>
    have hword : (acc + (hi.setWidth 32 * 256#32 + lo.setWidth 32)).toNat =
        (acc.toNat + (hi.toNat * 256 + lo.toNat)) % 2 ^ 32 := by simp
    rw [sum32, ih, hword, wordSum_pair, Nat.mod_add_mod, Nat.add_assoc]

/-- One folding step of R167 on 32 bits. -/
theorem foldStep32_toNat (acc : BitVec 32) :
    ((acc &&& 0xFFFF#32) + (acc >>> 16)).toNat = acc.toNat % 65536 + acc.toNat / 65536 := by
  have hlow : (acc &&& 0xFFFF#32).toNat = acc.toNat % 65536 := Nat.and_two_pow_sub_one_eq_mod acc.toNat 16
  have hhigh : (acc >>> 16).toNat = acc.toNat / 65536 := by
    rw [BitVec.toNat_ushiftRight, Nat.shiftRight_eq_div_pow]
  have := acc.isLt
  rw [BitVec.toNat_add, hlow, hhigh, Nat.mod_eq_of_lt (by omega)]

/-- Two folding steps are enough for 32 bits (R167). -/
theorem fold32_toNat (acc : BitVec 32) : (fold32 acc).toNat = foldCarries acc.toNat acc.toNat := by
  have := acc.isLt
  rw [fold32, foldStep32_toNat, foldStep32_toNat, foldCarries_eq _ _ (Nat.le_refl _)]
  split <;> omega

/-! ## `CSUM` -/

/-- `CSUM` of a length beyond `WBUF` fails (R171). -/
theorem csumBody_range {cfg : Config} {c : Context} (h : cfg.wbufMax < c.wlen.toNat) :
    csumBody cfg c = .error ⟨.range, .csum⟩ := if_pos h

end Sys2Proof.Machine
end

section
/-! The checksum unit. -/

namespace Sys2Proof.Machine

/-- Settles O25: the length is tested first; the sequences of the examples are evaluated. -/
theorem csumComputesTheChecksum : Obligations.CsumComputesTheChecksum := by
  unfold Obligations.CsumComputesTheChecksum
  refine ⟨fun s x c hc => ⟨rfl, fun h => ?_, fun h => ?_⟩, by decide, by decide⟩
  · exact (exec_of_body_ok (i := .csum x) rfl hc (csumBody_ok h)).1
  · exact exec_of_body_error (i := .csum x) rfl hc (csumBody_range h)

/-- Settles O26: the words are the byte pairs, and the checksum depends on their sum alone, to which zeros at the end
add nothing. -/
theorem checksumPairsBytesFromTheStart : Obligations.ChecksumPairsBytesFromTheStart := by
  unfold Obligations.ChecksumPairsBytesFromTheStart
  exact ⟨wordSum_eq_sum_wordAt, fun b _ => inetCsum_congr (wordSum_append_zeros b 1),
    fun b n => inetCsum_congr (wordSum_append_zeros b (2 * n))⟩

/-- Settles O27: 65537 words of at most 0xFFFF stay below 2^32, so the 32-bit sum is exact, and both foldings end in the
same number. -/
theorem thirtyTwoBitAccumulatorAgrees : Obligations.ThirtyTwoBitAccumulatorAgrees := by
  unfold Obligations.ThirtyTwoBitAccumulatorAgrees
  intro b hlen
  have hfits : wordSum b < 2 ^ 32 := by
    have := wordSum_le b
    omega
  have hsum : (sum32 0 b).toNat = wordSum b := by
    have hzero : (0 : BitVec 32).toNat = 0 := rfl
    rw [sum32_toNat, hzero, Nat.zero_add, Nat.mod_eq_of_lt hfits]
  refine ⟨hfits, hsum, ?_⟩
  rw [inetCsum, ← hsum, ← fold32_toNat, BitVec.ofNat_toNat]

/-- Settles O28: all five are facts about the word sum. -/
theorem checksumClosedForm : Obligations.ChecksumClosedForm := by
  unfold Obligations.ChecksumClosedForm
  refine ⟨inetCsum_eq_closedForm, fun b => (inetCsum_eq_ones_iff b).trans (wordSum_eq_zero_iff b), inetCsum_eq_zero_iff,
    fun ws ws' h => inetCsum_congr ?_, fun a b h => inetCsum_congr ?_⟩
  · rw [wordSum_flatMap, wordSum_flatMap]
    exact (h.map _).sum_eq
  · exact (wordSum_field h b 0).trans (wordSum_append h b).symm

/-- Settles O29: the checksum is one of the two numbers that make the filled field sum to zero. -/
theorem verificationIdentity : Obligations.VerificationIdentity := by
  unfold Obligations.VerificationIdentity
  intro pre post ck h hck
  exact (inetCsum_field_eq_zero_iff h post ck).mpr (.inl hck.symm)

end Sys2Proof.Machine
end

section
/-! SUPPORT. The byte of a transaction by its selector: where a read finds it (R178), and what every buffer reads after a
write of it (R179). -/

namespace Sys2Proof.Machine

theorem exec_bufRd_selected {s : State} {x : BitVec 4} {sel : BitVec 2} {off : BitVec 16} {c : Context} {b : BufName}
    (hc : s.ctxs[x.toNat]? = some c) (hsel : bufSelected sel = some b) (hoff : off.toNat < bufCapacity s.config b) :
    exec (.bufRd x sel off) s = .next { s with reply := .byte ((c.buffer b).read off.toNat) } :=
  exec_bufRd_found ((bufferAt_eq_some_iff s x sel off c b).mpr ⟨hc, hsel, hoff⟩)

/-- Buffers are the same exactly when their selectors are (R60). -/
theorem bufName_eq_iff {sel sel' : BitVec 2} {b b' : BufName} (h : bufSelected sel = some b)
    (h' : bufSelected sel' = some b') : b = b' ↔ sel = sel' :=
  ⟨fun e => bufSelected_inj h (e ▸ h'), fun e => Option.some.inj (h.symm.trans (e ▸ h'))⟩

/-- After a write of the byte at `off` of the buffer of `sel`, the buffer of `sel'` differs at most there. -/
theorem buffer_putByte_read_selected {sel sel' : BitVec 2} {b b' : BufName} (h : bufSelected sel = some b)
    (h' : bufSelected sel' = some b') (c : Context) (off : Nat) (d : Byte) (j : Nat) :
    ((c.putBuffer ((c.buffer b).writeBytes off [d]) b).buffer b').read j =
      if sel = sel' ∧ j = off then d else (c.buffer b').read j := by
  simp only [buffer_putByte_read, bufName_eq_iff h h', eq_comm (a := off)]

/-- A replaced buffer moves no register of its context. -/
theorem putBuffer_frame (c : Context) (w : Buffer) (b : BufName) : c.putBuffer w b = { c with
    wbuf := (c.putBuffer w b).wbuf, pay := (c.putBuffer w b).pay, opt := (c.putBuffer w b).opt } := by
  cases b <;> rfl

end Sys2Proof.Machine
end

section
/-! The buffer transactions of the host. -/

namespace Sys2Proof.Machine

/-- Settles O22: in range the transaction finds the buffer of its selector, whose capacity bounds the offset. -/
theorem bufRdReturnsTheByte : Obligations.BufRdReturnsTheByte := by
  unfold Obligations.BufRdReturnsTheByte
  refine ⟨fun s x sel off c hc => ⟨?_, ?_, ?_⟩,
    fun s x sel off h => exec_bufRd_absent ((bufferAt_eq_none_iff s x sel off).mpr h)⟩
  · rintro rfl hoff
    exact exec_bufRd_selected (b := .wbuf) hc rfl hoff
  · rintro rfl hoff
    exact exec_bufRd_selected (b := .pay) hc rfl hoff
  · rintro rfl hoff
    exact exec_bufRd_selected (b := .opt) hc rfl hoff

/-- Settles O23: the buffer found is replaced by one with the byte written; the other two and the registers stay. -/
theorem bufWrWritesOneByte : Obligations.BufWrWritesOneByte := by
  unfold Obligations.BufWrWritesOneByte
  refine ⟨fun s x sel off d c hc hin => ?_,
    fun s x sel off d h => exec_bufWr_absent ((bufferAt_eq_none_iff s x sel off).mpr h) d⟩
  obtain ⟨e, b, hfound⟩ := bufferAt_of_inRange hin
  obtain ⟨he, hsel, -⟩ := (bufferAt_eq_some_iff s x sel off e b).mp hfound
  obtain rfl : c = e := Option.some.inj (hc.symm.trans he)
  exact ⟨_, exec_bufWr_found hfound d, putBuffer_frame c _ b,
    buffer_putByte_read_selected (b' := .wbuf) hsel rfl c off.toNat d,
    buffer_putByte_read_selected (b' := .pay) hsel rfl c off.toNat d,
    buffer_putByte_read_selected (b' := .opt) hsel rfl c off.toNat d⟩

end Sys2Proof.Machine
end

section
/-! SUPPORT. How a command ends: with code `OK`, with a raised condition, or with a verdict (R186); and what a
`STATUS` of code `TRUNCATED` says of a decode (R187). -/

namespace Sys2Proof.Machine

/-! ## A run goes through -/

/-- No step is a fault or a refusal (R196). -/
theorem step_next (s : State) : ∃ t, step s = .next t := by
  rcases step_cases s with ⟨-, e⟩ | ⟨rest, -, e⟩ | ⟨tr, rest, -, e⟩
  · exact ⟨_, e⟩
  · exact ⟨_, e⟩
  · obtain ⟨t, ht, -⟩ := exec_effect tr.toInstr { s with pending := rest, reply := .nothing }
    exact ⟨t, e.trans ht⟩

/-- A run goes on with what its first step gives. -/
theorem run_succ {M : Host.Core} {s t : M.State} (h : M.step s = .next t) (k : Nat) : M.run (k + 1) s = M.run k t := by
  rw [Host.Core.run, h]

/-! ## The status word -/

theorem codeBits_inj {a b : Code} (h : a.bits = b.bits) : a = b := by
  revert h
  cases a <;> cases b <;> decide

theorem layerBits_inj {a b : Layer} (h : a.bits = b.bits) : a = b := by
  revert h
  cases a <;> cases b <;> decide

theorem statusLayer_statusWord (code : Code) (layer : Layer) : statusLayer (statusWord code layer) = layer.bits := by
  cases code <;> cases layer <;> rfl

/-- The status word determines code and layer (R43). -/
theorem statusWord_inj {code code' : Code} {layer layer' : Layer}
    (h : statusWord code layer = statusWord code' layer') : code = code' ∧ layer = layer' := by
  have hcode := congrArg statusCode h
  have hlayer := congrArg statusLayer h
  rw [statusCode_statusWord, statusCode_statusWord] at hcode
  rw [statusLayer_statusWord, statusLayer_statusWord] at hlayer
  exact ⟨codeBits_inj hcode, layerBits_inj hlayer⟩

/-! ## How a command ends -/

/-- What a command body answers is a condition, or a context with code `OK`. -/
def RaisesOrOk : Except Raised Context → Prop
  | .ok c' => statusCode c'.status = 0
  | .error _ => True

theorem RaisesOrOk.raised (r : Raised) : RaisesOrOk (.error r) := trivial

theorem RaisesOrOk.finished (c : Context) (layer : Layer) : RaisesOrOk (.ok (c.finish .ok layer)) :=
  statusCode_statusWord .ok layer

/-- Such a command leaves another code than `OK` only where it raised a condition. -/
theorem RaisesOrOk.exists_raised {c : Context} {r : Except Raised Context} (h : RaisesOrOk r)
    (hne : statusCode (c.settle r).status ≠ 0) : ∃ q, r = .error q := by
  cases r with
  | ok c' => exact absurd h hne
  | error q => exact ⟨q, rfl⟩

/-- Such a command leaves `TRUNCATED` at a layer exactly where it raised it. -/
theorem RaisesOrOk.status_truncated_iff {c : Context} {r : Except Raised Context} (h : RaisesOrOk r) (layer : Layer) :
    (c.settle r).status = statusWord .truncated layer ↔ r = .error ⟨.truncated, layer⟩ := by
  constructor
  · intro e
    have hne : statusCode (c.settle r).status ≠ 0 := by
      rw [e, statusCode_statusWord]
      decide
    obtain ⟨⟨code, layer'⟩, rfl⟩ := h.exists_raised hne
    obtain ⟨rfl, rfl⟩ := statusWord_inj (show statusWord code layer' = statusWord .truncated layer from e)
    rfl
  · rintro rfl
    rfl

theorem strictChecks_raisesOrOk {c : Context} (h : statusCode c.status = 0) (strict : Bool) (bs : List Byte) :
    RaisesOrOk (strictChecks strict bs c) := by
  unfold strictChecks
  split
  · trivial
  · split
    · trivial
    · exact h

section
variable (cfg : Config) (strict : Bool) (c : Context)

theorem csumBody_raisesOrOk : RaisesOrOk (csumBody cfg c) := by
  unfold csumBody
  split
  · exact .raised _
  · exact .finished _ _

theorem icmpEncBody_raisesOrOk : RaisesOrOk (icmpEncBody cfg c) := by
  unfold icmpEncBody
  split
  · exact .raised _
  · exact .finished _ _

theorem icmpDecBody_raisesOrOk : RaisesOrOk (icmpDecBody cfg strict c) := by
  simp only [icmpDecBody]
  split
  · exact .raised _
  · split
    · exact .raised _
    · split
      · exact .raised _
      · exact .finished _ _

theorem ipMkBody_raisesOrOk : RaisesOrOk (ipMkBody cfg c) := by
  simp only [ipMkBody]
  split
  · exact .raised _
  · split
    · exact .raised _
    · exact .finished _ _

theorem ipEncBody_raisesOrOk : RaisesOrOk (ipEncBody cfg c) := by
  unfold ipEncBody
  split
  · exact .raised _
  · split
    · exact .raised _
    · exact .finished _ _

theorem ipDecBody_raisesOrOk : RaisesOrOk (ipDecBody cfg strict c) := by
  simp only [ipDecBody]
  split
  · exact .raised _
  · split
    · exact .raised _
    · exact strictChecks_raisesOrOk (statusCode_statusWord .ok .ip) _ _

theorem ethEncBody_raisesOrOk : RaisesOrOk (ethEncBody cfg c) := by
  simp only [ethEncBody]
  split
  · exact .raised _
  · split
    · exact .raised _
    · exact .finished _ _

theorem ethDecBody_raisesOrOk : RaisesOrOk (ethDecBody cfg strict c) := by
  simp only [ethDecBody]
  split
  · exact .raised _
  · split
    · exact .raised _
    · exact strictChecks_raisesOrOk (statusCode_statusWord .ok .eth) _ _

end

/-- Is it one of the two verify commands? -/
def IsVerify (i : Instr) : Prop := ∃ y, i = .icmpVfy y ∨ i = .ipVfy y

/-- ALL THE WAYS A COMMAND CAN END: a condition, code `OK`, or, for a verify, its verdict (R118, R142, R186). -/
theorem commandBody_ends {i : Instr} {x : BitVec 4} (h : commandContext i = some x) (s : State) (c : Context) :
    RaisesOrOk (commandBody s i c) ∨
      IsVerify i ∧ ∃ computed stored layer, commandBody s i c = .ok (verdict c computed stored layer) := by
  cases i with
  | csum => exact .inl (csumBody_raisesOrOk _ _)
  | icmpMkreq => exact .inl (.finished _ _)
  | icmpEnc => exact .inl (icmpEncBody_raisesOrOk _ _)
  | icmpDec => exact .inl (icmpDecBody_raisesOrOk _ _ _)
  | icmpVfy y =>
    rw [commandBody, icmpVfyBody]
    split
    · exact .inl (.raised _)
    · exact .inr ⟨⟨y, .inl rfl⟩, _, _, _, rfl⟩
  | ipMk => exact .inl (ipMkBody_raisesOrOk _ _)
  | ipEnc => exact .inl (ipEncBody_raisesOrOk _ _)
  | ipDec => exact .inl (ipDecBody_raisesOrOk _ _ _)
  | ipVfy y =>
    rw [commandBody, ipVfyBody]
    split
    · exact .inl (.raised _)
    · exact .inr ⟨⟨y, .inr rfl⟩, _, _, _, rfl⟩
  | ethMk => exact .inl (.finished _ _)
  | ethEnc => exact .inl (ethEncBody_raisesOrOk _ _)
  | ethDec => exact .inl (ethDecBody_raisesOrOk _ _ _)
  | regRd | regWr | bufRd | bufWr => cases h

/-- A verdict other than `OK` is `CSUM_MISMATCH` (R118, R142). -/
theorem verdict_code {c : Context} {computed stored : BitVec 16} {layer : Layer}
    (h : statusCode (verdict c computed stored layer).status ≠ 0) :
    statusCode (verdict c computed stored layer).status = 2 := by
  rw [verdict_status, statusCode_statusWord] at h ⊢
  by_cases heq : computed = stored
  · rw [if_pos heq] at h
    exact absurd rfl h
  · rw [if_neg heq]
    rfl

/-! ## Where a decode raises `TRUNCATED` -/

theorem strictChecks_ne_truncated (strict : Bool) (bs : List Byte) (c : Context) (layer : Layer) :
    strictChecks strict bs c ≠ .error ⟨.truncated, layer⟩ := by
  unfold strictChecks
  split
  · simp
  · split <;> simp

section
variable {cfg : Config} {c : Context} (strict : Bool) (hmax : c.wlen.toNat ≤ cfg.wbufMax) (layer : Layer)
include hmax

theorem icmpDecBody_eq_truncated_iff : icmpDecBody cfg strict c = .error ⟨.truncated, layer⟩ ↔
    layer = .icmp ∧ c.wlen.toNat < 8 := by
  rcases icmpDecode_cases c c.wbuf 0 c.wlen.toNat (by omega) with ⟨h, -⟩ | ⟨h, c', e, -⟩
  · simp [icmpDecBody_truncated strict hmax h, h, eq_comm]
  · have hne : icmpDecBody cfg strict c ≠ .error ⟨.truncated, layer⟩ := by
      rw [icmpDecBody, if_neg (by omega)]
      simp only [e]
      split <;> simp
    exact iff_of_false hne (by omega)

theorem ipDecBody_eq_truncated_iff : ipDecBody cfg strict c = .error ⟨.truncated, layer⟩ ↔
    (layer = .ip ∧ c.wlen.toNat < 20) ∨ (layer = .icmp ∧ 20 ≤ c.wlen.toNat ∧ c.wlen.toNat < 28) := by
  rcases Nat.lt_or_ge c.wlen.toNat 20 with h | h20
  · simp [ipDecBody_truncated_ip strict hmax h, h, eq_comm]
  · rcases Nat.lt_or_ge c.wlen.toNat 28 with h | h28
    · simp [ipDecBody_truncated_icmp strict hmax h20 h, h20, h, eq_comm]
    · obtain ⟨c', e⟩ := ipDecBody_eq_strictChecks strict hmax h28
      exact iff_of_false (e ▸ strictChecks_ne_truncated strict _ c' layer) (by omega)

theorem ethDecBody_eq_truncated_iff : ethDecBody cfg strict c = .error ⟨.truncated, layer⟩ ↔
    (layer = .eth ∧ c.wlen.toNat < 14) ∨ (layer = .ip ∧ 14 ≤ c.wlen.toNat ∧ c.wlen.toNat < 34) ∨
      (layer = .icmp ∧ 34 ≤ c.wlen.toNat ∧ c.wlen.toNat < 42) := by
  rcases Nat.lt_or_ge c.wlen.toNat 42 with h | h42
  · rw [ethDecBody_truncated strict hmax h]
    rcases Nat.lt_or_ge c.wlen.toNat 14 with h14 | h14
    · simp [h14, show ¬ 34 ≤ c.wlen.toNat by omega, eq_comm]
    · rw [if_neg (Nat.not_lt.mpr h14)]
      rcases Nat.lt_or_ge c.wlen.toNat 34 with h34 | h34
      · simp [h14, h34, Nat.not_lt.mpr h14, Nat.not_le.mpr h34, eq_comm]
      · simp [h34, h, Nat.not_lt.mpr h14, Nat.not_lt.mpr h34, eq_comm]
  · obtain ⟨c', e⟩ := ethDecBody_eq_strictChecks strict hmax h42
    exact iff_of_false (e ▸ strictChecks_ne_truncated strict _ c' layer) (by omega)

end

/-- No status that the rules of another command list has code `TRUNCATED` (R187). -/
theorem possibleStatus_code_ne_truncated {i : Instr} (h : ∀ y, i ≠ .icmpDec y ∧ i ≠ .ipDec y ∧ i ≠ .ethDec y) :
    ∀ w ∈ possibleStatus i, statusCode w ≠ 1 := by
  cases i with
  | icmpDec y => exact absurd rfl (h y).1
  | ipDec y => exact absurd rfl (h y).2.1
  | ethDec y => exact absurd rfl (h y).2.2
  | _ => simp only [possibleStatus]; decide

/-- The next state of a command, and its context there, are those its body makes. -/
theorem command_result {s t : State} {i : Instr} {x : BitVec 4} {c c' : Context} (h : commandContext i = some x)
    (hc : s.ctxs[x.toNat]? = some c) (ht : exec i s = .next t) (hc' : t.ctxs[x.toNat]? = some c') :
    c' = c.settle (commandBody s i c) ∧ t = s.putCtx x.toNat c' := by
  obtain rfl : s.putCtx x.toNat (c.settle (commandBody s i c)) = t :=
    Host.Outcome.next.inj ((exec_command_of_get h hc).symm.trans ht)
  rw [putCtx_get_same (lt_nctx_of_getElem? hc)] at hc'
  obtain rfl := Option.some.inj hc'
  exact ⟨rfl, rfl⟩

end Sys2Proof.Machine
end

section
/-! Exceptions: nothing stops the block, the truncation table, and what a raised condition changes. -/

namespace Sys2Proof.Machine

/-- Settles O11, by induction on the number of steps: each one goes through. -/
theorem noInputSequenceStopsTheBlock : Obligations.NoInputSequenceStopsTheBlock := by
  unfold Obligations.NoInputSequenceStopsTheBlock
  intro k
  induction k with
  | zero => exact fun s => ⟨s, rfl⟩
  | succ k ih =>
    intro s
    obtain ⟨t, ht⟩ := step_next s
    obtain ⟨u, hu⟩ := ih t
    exact ⟨u, (run_succ (M := Sys2Proof.core) ht k).trans hu⟩

/-- Settles O54: a decode reports `TRUNCATED` exactly where it raises it, and no other command's rules list it. -/
theorem truncationTable : Obligations.TruncationTable := by
  unfold Obligations.TruncationTable
  intro s x c hc hmax
  have hicmp (layer : Layer) := ((icmpDecBody_raisesOrOk s.config s.strict c).status_truncated_iff (c := c) layer).trans
    (icmpDecBody_eq_truncated_iff s.strict hmax layer)
  have hip (layer : Layer) := ((ipDecBody_raisesOrOk s.config s.strict c).status_truncated_iff (c := c) layer).trans
    (ipDecBody_eq_truncated_iff s.strict hmax layer)
  have heth (layer : Layer) := ((ethDecBody_raisesOrOk s.config s.strict c).status_truncated_iff (c := c) layer).trans
    (ethDecBody_eq_truncated_iff s.strict hmax layer)
  refine ⟨_, _, _, exec_command_of_get (i := .icmpDec x) rfl hc, exec_command_of_get (i := .ipDec x) rfl hc,
    exec_command_of_get (i := .ethDec x) rfl hc, (hicmp .icmp).trans (by simp), (hip .ip).trans (by simp),
    (hip .icmp).trans (by simp), (heth .eth).trans (by simp), (heth .ip).trans (by simp),
    (heth .icmp).trans (by simp), fun i t c' _ hdec hx ht hc' => ?_⟩
  obtain ⟨rfl, -⟩ := command_result hx hc ht hc'
  exact possibleStatus_code_ne_truncated hdec _ (commandBody_leaves hx s c).settle.1

/-- Settles O55: a raised condition writes `STATUS` alone, and the one other way to leave a code that is not `OK` is a
verify's verdict, which is `CSUM_MISMATCH`. -/
theorem raisedConditionChangesStatusAlone : Obligations.RaisedConditionChangesStatusAlone := by
  unfold Obligations.RaisedConditionChangesStatusAlone
  intro s t i x c c' hx hc ht hc' hcode
  obtain ⟨hres, hput⟩ := command_result hx hc ht hc'
  refine ⟨hput, ?_⟩
  rcases commandBody_ends hx s c with hends | ⟨⟨y, hverify⟩, computed, stored, layer, e⟩
  · rw [hres] at hcode
    obtain ⟨r, e⟩ := hends.exists_raised hcode
    rw [e] at hres
    subst hres
    exact ⟨rfl, fun _ => rfl, fun _ => rfl⟩
  · rw [e] at hres
    subst hres
    refine ⟨rfl, fun hother => ?_, fun hne => absurd (verdict_code hcode) hne⟩
    rcases hverify with rfl | rfl
    · exact absurd rfl (hother y).1
    · exact absurd rfl (hother y).2

end Sys2Proof.Machine
end
